-- ==== Sys2Proof/Word.lean ====
section
/-!
DEFINITION. Word.lean: the two widths the frame engine computes on (00_scope.md R8).
A byte is 8 bits. An operation word, a 16-bit frame field and the CRC-16 register are 16 bits.
-/

namespace Sys2Proof

/-- A byte, 0 .. 255 (R8). -/
abbrev Byte := BitVec 8

/-- A 16-bit unsigned value: an operation word (R80), a 16-bit frame field (R60), the CRC-16 register (R31). -/
abbrev Word := BitVec 16

end Sys2Proof
end

