-- ==== Sys2Proof/Config.lean ====
section
/-!
DEFINITION. Config.lean: what an implementation fixes (00_scope.md R6) and the free values (10_state.md R22, R24, R33).

The OPEN parameters of R6 are a record of plain data. A state carries its record (State.cfg), no step changes it (R274),
and a statement about every state is a statement about every configuration. The one free value, the content of an array
byte that no rule may look at, is an opaque constant: nothing can be proved about it.
-/

namespace Sys2Proof

/-- The five byte memories of R62. -/
inductive ArrayId where
  | txbuf | rxbuf | frame | pkt | targetName
  deriving DecidableEq, Repr

/-- `MAX_RETRIES` of R6: an integer in 0 .. 255, or `INF`. -/
inductive RetryBound where
  /-- At most this many NAKs for one packet. -/
  | upTo (n : Byte)
  /-- `INF`: the engine never gives up; only the timeout ends the transfer. -/
  | inf
  deriving DecidableEq, Repr

/-- The OPEN parameters of R6, one field each. Which records are configurations of the engine is `Config.valid`
(WellFormed.lean). `RXBUF_CAP` is decided by the spec and is a constant (Machine/Constants.lean). -/
structure Config where
  /-- `CT_LORAWAN` (D9). -/
  ctLorawan : Byte
  /-- `CT_SIDEWALK` (D9). -/
  ctSidewalk : Byte
  /-- `RC_SET` (D10): the members of the closed return-code enumeration. -/
  rcSet : List Byte
  /-- `CATALOGUE` (D11): the pairs (command type, command code) at which the predicate is true. -/
  catalogue : List (Byte × Word)
  /-- `TXBUF_CAP` (D12). -/
  txbufCap : Nat
  /-- `T_TIMEOUT` (D30), in TICK operations. -/
  tTimeout : Nat
  /-- `MAX_RETRIES` (D29). -/
  maxRetries : RetryBound
  /-- `SOLICIT_ON_START` (D20). -/
  solicitOnStart : Bool
  deriving DecidableEq, Repr

namespace Config

/-- DESIGN CHOICE (notes/assumptions/1.md): the configuration `State.reset` carries. It is the spec's test configuration
TC (95_test_vectors.md section 0), which the spec says is no claim about the real hardware. No statement rests on it. -/
def reference : Config where
  ctLorawan := 0x02
  ctSidewalk := 0x03
  rcSet := [0x00, 0x01, 0x20]
  catalogue := [(0x01, 0x0000), (0x01, 0x0001)]
  txbufCap := 64
  tTimeout := 3
  maxRetries := .upTo 2
  solicitOnStart := true

/-- The free draw of R22, R24 and R33 (93 I1, I2): what byte `i` of array `a` is where the spec says it is unspecified,
after `draw` steps. It has no body, so no proof can see a value of it (notes/assumptions/2.md). -/
opaque freeByte (draw : Nat) (a : ArrayId) (i : Nat) : Byte

end Config

end Sys2Proof
end

