-- ==== Sys2Proof/Machine/Constants.lean ====
section
/-!
DEFINITION. Machine/Constants.lean: the fixed constants of 00_scope.md R7 and the decided capacities of R6, each named once
(R5), with the packet sizes of 30_encoding.md R101 and the array sizes of 20_memory.md R62.
-/

namespace Sys2Proof.Machine

/-- `RC_OK` (R7). -/
def rcOk : Byte := 0x00
/-- `NOTIFY_EVENTS`, the sentinel byte of a notification (R7). -/
def notifyEvents : Byte := 0x20
/-- `CT_GENERAL` (R7). -/
def ctGeneral : Byte := 0x01
/-- `CMD_GET_EVENT` (R7). -/
def cmdGetEvent : Word := 0x0000
/-- `NOTIFY_LEN` (R7). -/
def notifyLen : Nat := 5
/-- `NOTIFY_PAYLOAD_LEN` (R7). -/
def notifyPayloadLen : Word := 1
/-- `MAX_PENDING` (R7). -/
def maxPending : Nat := 10
/-- `MIN_TX_LEN` (R7). -/
def minTxLen : Nat := 6
/-- `RESP_HDR_LEN` (R7). -/
def respHdrLen : Nat := 6
/-- `RESP_OVERHEAD` (R7). -/
def respOverhead : Nat := 7
/-- `CRC16_POLY` (R7). -/
def crc16Poly : Word := 0x1021
/-- `CRC16_INIT` (R7). -/
def crc16Init : Word := 0x0000

/-- `SOH` (R7, R100): starts a 128-byte packet. -/
def soh : Byte := 0x01
/-- `STX` (R7, R100): starts a 1024-byte packet. -/
def stx : Byte := 0x02
/-- `EOT` (R7, R100). -/
def eot : Byte := 0x04
/-- `ACK` (R7, R100). -/
def ackByte : Byte := 0x06
/-- `NAK` (R7, R100). -/
def nak : Byte := 0x15
/-- `C`, the CRC-mode request byte (R7, R100). -/
def crcRequest : Byte := 0x43
/-- `NUL` (R9). -/
def nul : Byte := 0x00

/-- `RXBUF_CAP`, decided by the spec (R6, D12): 7 + 65535. -/
def rxbufCap : Nat := 65542
/-- The greatest capacity the port widths allow (R34). -/
def maxBufCap : Nat := 131071
/-- The least `TXBUF_CAP` (R6). -/
def minTxbufCap : Nat := 6
/-- The greatest `T_TIMEOUT` (R6, R34): 2^32 - 1. -/
def maxTimeout : Nat := 4294967295

/-- The data size of a packet that starts with SOH (R101). -/
def sohDataLen : Nat := 128
/-- The data size of a packet that starts with STX (R101). -/
def stxDataLen : Nat := 1024
/-- The bytes of a packet beside its data (R101): start, block, complement and the two CRC bytes. -/
def packetOverhead : Nat := 5
/-- The size of `pkt` (R22, R62). -/
def pktSize : Nat := 1029
/-- The size of `target_name` (R22, R62). -/
def nameSize : Nat := 1023

/-- The greatest file size and the greatest `write_offset` (R22, R209, D39): 2^63 - 1. -/
def maxFileSize : Nat := 9223372036854775807

end Sys2Proof.Machine
end

