-- ==== Sys2Proof/Syntax.lean ====
section
/-!
DEFINITION. Syntax.lean: the fifteen operations of 30_encoding.md R83, one constructor per row of the opcode table.
The only operand is the byte `b = w[7:0]` (R81); the other operations ignore that byte, so their constructors carry none.
-/

namespace Sys2Proof

inductive Instr where
  /-- NOP (R122). -/
  | nop
  /-- CK_CLR (R123). -/
  | ckClr
  /-- CK_ACC b (R124). -/
  | ckAcc (b : Byte)
  /-- C16_CLR (R191). -/
  | c16Clr
  /-- C16_ACC b (R192). -/
  | c16Acc (b : Byte)
  /-- RX_BYTE b (R151). -/
  | rxByte (b : Byte)
  /-- RX_EOB (R158). -/
  | rxEob
  /-- RX_CLASSIFY (R170). -/
  | rxClassify
  /-- RX_CLR (R171). -/
  | rxClr
  /-- FRAME_TAKE (R172). -/
  | frameTake
  /-- TX_CLR (R125). -/
  | txClr
  /-- TX_BYTE b (R126). -/
  | txByte (b : Byte)
  /-- TX_SEAL (R127). -/
  | txSeal
  /-- BT_START (R195). -/
  | btStart
  /-- TICK (R215). -/
  | tick
  deriving DecidableEq, Repr

end Sys2Proof
end

