-- ==== Sys2Proof/WellFormed.lean ====
section
/-!
DEFINITION. WellFormed.lean: which instructions and which configurations are well formed.
An instruction's operand is any byte (30_encoding.md R81), and its type says so: every term of `Instr` is well formed.
A configuration is well formed when it meets every bound of 00_scope.md R6 and 10_state.md R34.
-/

namespace Sys2Proof

/-- The operand of an operation is an unsigned byte, and no value of it is reserved or illegal (R81). -/
def Instr.wf : Instr → Bool
  | .ckAcc b | .c16Acc b | .rxByte b | .txByte b => decide (b.toNat < 256)
  | .nop | .ckClr | .c16Clr | .rxEob | .rxClassify | .rxClr | .frameTake | .txClr | .txSeal | .btStart | .tick => true

namespace Config

/-- The three command types are pairwise distinct (R6). -/
def typesDistinct (c : Config) : Bool :=
  decide (c.ctLorawan ≠ Machine.ctGeneral) && decide (c.ctSidewalk ≠ Machine.ctGeneral) && decide (c.ctLorawan ≠ c.ctSidewalk)

/-- `RC_SET` contains `RC_OK` and `NOTIFY_EVENTS` (R6). -/
def rcSetHasFixed (c : Config) : Bool :=
  c.rcSet.contains Machine.rcOk && c.rcSet.contains Machine.notifyEvents

/-- `CATALOGUE` is true at (0x01, 0x0000), GET_EVENT (R6). -/
def catalogueHasGetEvent (c : Config) : Bool :=
  c.catalogue.contains (Machine.ctGeneral, Machine.cmdGetEvent)

/-- `TXBUF_CAP` is at least 6 (R6) and at most 131071 (R34). -/
def txbufCapInRange (c : Config) : Bool :=
  decide (Machine.minTxbufCap ≤ c.txbufCap) && decide (c.txbufCap ≤ Machine.maxBufCap)

/-- `T_TIMEOUT` is in 1 .. 2^32 - 1 (R6, R34). -/
def timeoutInRange (c : Config) : Bool :=
  decide (1 ≤ c.tTimeout) && decide (c.tTimeout ≤ Machine.maxTimeout)

/-- The configuration is within the bounds of R6 and R34. One outside them is refused (R34). -/
def valid (c : Config) : Bool :=
  c.typesDistinct && c.rcSetHasFixed && c.catalogueHasGetEvent && c.txbufCapInRange && c.timeoutInRange

end Config

end Sys2Proof
end

