-- ==== Sys2Proof/Decode.lean ====
section
/-!
DEFINITION. Decode.lean: the operation word (30_encoding.md R80 to R85). Decoding is a total function of `w[15:8]` (R82);
an opcode outside the table is rejected by name. The encoder follows, written from the same table.
-/

namespace Sys2Proof

/-- Why a word is no operation. -/
inductive DecodeReject where
  /-- The opcode is none of the fifteen of R83 (R84). -/
  | illegalOpcode (opc : Byte)
  deriving DecidableEq, Repr

/-- The field `opc` = bits [15:8] (R80). -/
def opcOf (w : Word) : Byte := w.extractLsb' 8 8

/-- The field `imm8` = bits [7:0] (R80), the operand `b` (R81). -/
def immOf (w : Word) : Byte := w.extractLsb' 0 8

/-- One row of the opcode map R83. A word is the row's when `w & mask = pattern`. -/
structure OpcodeRow where
  mnemonic : String
  pattern : Word
  mask : Word
  deriving DecidableEq, Repr

/-- The opcode map of R83 in the table's order. -/
def opcodeTable : List OpcodeRow :=
  [⟨"NOP", 0x0000, 0xFF00⟩, ⟨"CK_CLR", 0x0100, 0xFF00⟩, ⟨"CK_ACC", 0x0200, 0xFF00⟩, ⟨"C16_CLR", 0x0800, 0xFF00⟩,
   ⟨"C16_ACC", 0x0900, 0xFF00⟩, ⟨"RX_BYTE", 0x1000, 0xFF00⟩, ⟨"RX_EOB", 0x1100, 0xFF00⟩, ⟨"RX_CLASSIFY", 0x1200, 0xFF00⟩] ++
  [⟨"RX_CLR", 0x1300, 0xFF00⟩, ⟨"FRAME_TAKE", 0x1400, 0xFF00⟩, ⟨"TX_CLR", 0x2000, 0xFF00⟩, ⟨"TX_BYTE", 0x2100, 0xFF00⟩,
   ⟨"TX_SEAL", 0x2200, 0xFF00⟩, ⟨"BT_START", 0x3000, 0xFF00⟩, ⟨"TICK", 0x3100, 0xFF00⟩]

/-- The word is a word of the row. -/
def OpcodeRow.selects (r : OpcodeRow) (w : Word) : Bool := w &&& r.mask == r.pattern

/-- The operation an opcode and an operand byte stand for (R83). -/
def decodeFields (opc b : Byte) : Except DecodeReject Instr :=
  match opc with
  | 0x00#8 => .ok .nop
  | 0x01#8 => .ok .ckClr
  | 0x02#8 => .ok (.ckAcc b)
  | 0x08#8 => .ok .c16Clr
  | 0x09#8 => .ok (.c16Acc b)
  | 0x10#8 => .ok (.rxByte b)
  | 0x11#8 => .ok .rxEob
  | 0x12#8 => .ok .rxClassify
  | 0x13#8 => .ok .rxClr
  | 0x14#8 => .ok .frameTake
  | 0x20#8 => .ok .txClr
  | 0x21#8 => .ok (.txByte b)
  | 0x22#8 => .ok .txSeal
  | 0x30#8 => .ok .btStart
  | 0x31#8 => .ok .tick
  | _ => .error (.illegalOpcode opc)

/-- Decode one operation word: every word is one of the fifteen operations or is rejected by name (R82, R84). -/
def decode (w : Word) : Except DecodeReject Instr := decodeFields (opcOf w) (immOf w)

/-- The opcode of an operation (R83). -/
def Instr.opc : Instr → Byte
  | .nop => 0x00
  | .ckClr => 0x01
  | .ckAcc _ => 0x02
  | .c16Clr => 0x08
  | .c16Acc _ => 0x09
  | .rxByte _ => 0x10
  | .rxEob => 0x11
  | .rxClassify => 0x12
  | .rxClr => 0x13
  | .frameTake => 0x14
  | .txClr => 0x20
  | .txByte _ => 0x21
  | .txSeal => 0x22
  | .btStart => 0x30
  | .tick => 0x31

/-- The byte in `imm8`: the operand, or 0x00 for an operation that takes none (R81, R86). -/
def Instr.imm8 : Instr → Byte
  | .ckAcc b | .c16Acc b | .rxByte b | .txByte b => b
  | .nop | .ckClr | .c16Clr | .rxEob | .rxClassify | .rxClr | .frameTake | .txClr | .txSeal | .btStart | .tick => 0x00

/-- The bits of the word the operation depends on: all of them where it takes an operand, `opc` alone elsewhere (R81). -/
def Instr.wordMask : Instr → Word
  | .ckAcc _ | .c16Acc _ | .rxByte _ | .txByte _ => 0xFFFF
  | .nop | .ckClr | .c16Clr | .rxEob | .rxClassify | .rxClr | .frameTake | .txClr | .txSeal | .btStart | .tick => 0xFF00

/-- The operation word of an operation (R80, R86). -/
def encode (i : Instr) : Word := i.opc ++ i.imm8

/-- The host's numbering of an instruction's bits, given to the decoder. The engine's word is delivered whole (R80), so
bit k of the table is bit k of the word and there is no byte order to apply. Bits from `nbits` on are 0. -/
def decodeTableWord (nbits w : Nat) : Option Instr :=
  if w % 2 ^ nbits < 2 ^ 16 then (decode (BitVec.ofNat 16 (w % 2 ^ nbits))).toOption else none

end Sys2Proof
end

