-- ==== Sys2Proof/Machine/State.lean ====
section
/-!
DEFINITION. Machine/State.lean: the state of the frame engine, 10_state.md R22 field by field, as plain data; the codes of
R25 to R29; the output events of 60_exceptions.md R245; and why a step can stop.
The model's own fields stand last: the configuration, the output list of the last step, the host's pending inputs, and the
counter the free draws are indexed by.
-/

namespace Sys2Proof.Machine

/-- `rx_class`, the result of the last classify (R25). -/
inductive RxClass where
  | incomplete | response | notification | malformed
  deriving DecidableEq, Repr

/-- `frame_err`, the result of the last frame completion or discard (R26). -/
inductive FrameErr where
  | none | badReturnCode | badCommandType | badCommandCode | badCrc | malformed | badNotifyLen | badPendingCount | rxOverflow
  deriving DecidableEq, Repr

/-- `bt_state`, the block-transfer state (R27, R200). -/
inductive BtState where
  | idle | waitHeader | receivingData | waitEot | complete
  deriving DecidableEq, Repr

/-- `bt_status`, the outcome of the current or last transfer (R28). -/
inductive BtStatus where
  | none | active | doneOk | doneShort | endOfBatch | timeout | crcExhausted
  deriving DecidableEq, Repr

/-- `op_err`, the error of the current step's operation (R29). -/
inductive OpErr where
  | none | illegalOp | txUndersized | txOverflow | btBusy | noFrame
  deriving DecidableEq, Repr

/-- `frame_kind` (R22): 0 = response, 1 = notification. -/
inductive FrameKind where
  | response | notification
  deriving DecidableEq, Repr

/-- `mode` (R22, R150): which unit the received bytes go to. -/
inductive Mode where
  /-- 0: the frame detector owns the channel. -/
  | detector
  /-- 1: the block-transfer engine owns it. -/
  | engine
  deriving DecidableEq, Repr

/-- The output events of R245, every kind. -/
inductive Event where
  /-- `SER_TX(b)`: a byte for the block-transfer sender. -/
  | serTx (b : Byte)
  /-- `STG_OPEN(name, size)`: the size is an i64, -1 = not declared. -/
  | stgOpen (name : List Byte) (size : BitVec 64)
  /-- `STG_WRITE(offset, data)`. -/
  | stgWrite (offset : BitVec 64) (data : List Byte)
  /-- `STG_CLOSE`. -/
  | stgClose
  /-- `STG_DISCARD`. -/
  | stgDiscard
  /-- `FINALIZE`. -/
  | finalize
  /-- `FRAME(k)`. -/
  | frame (k : FrameKind)
  /-- `FRAME_ERR(e)`. -/
  | frameErr (e : FrameErr)
  /-- `NOTIFY(p)`. -/
  | notify (p : Byte)
  /-- `BT_END(st)`. -/
  | btEnd (st : BtStatus)
  deriving DecidableEq, Repr

/-- What the host does at a step boundary: it issues an operation word (R80) or asserts the reset input (R270). -/
inductive HostInput where
  | op (w : Word)
  | reset
  deriving DecidableEq, Repr

/-- The content of one byte memory (R62): index and byte, indices strictly rising. An index that is not listed has never
been written since reset; the spec calls its content unspecified (R22), so it has no value here. -/
abbrev Memory := List Host.Cell

/-- The state of the frame engine (R22). -/
structure State where
  /-- `ck_acc`, u8. -/
  ckAcc : Byte
  /-- `txbuf`, `TXBUF_CAP` bytes. -/
  txbuf : Memory
  /-- `tx_len`, 0 .. `TXBUF_CAP`. -/
  txLen : Nat
  /-- `rxbuf`, `RXBUF_CAP` bytes. -/
  rxbuf : Memory
  /-- `rx_len`, 0 .. `RXBUF_CAP`. -/
  rxLen : Nat
  /-- `rx_class`. -/
  rxClass : RxClass
  /-- `frame`, the latched frame, `RXBUF_CAP` bytes. -/
  frame : Memory
  /-- `frame_len`, 0 .. `RXBUF_CAP`. -/
  frameLen : Nat
  /-- `frame_valid`. -/
  frameValid : Bool
  /-- `frame_kind`. -/
  frameKind : FrameKind
  /-- `overrun`. -/
  overrun : Bool
  /-- `frame_err`. -/
  frameErr : FrameErr
  /-- `pending`, u8, 0 .. 10. -/
  pending : Byte
  /-- `mode`. -/
  mode : Mode
  /-- `bt_state`. -/
  btState : BtState
  /-- `pkt`, 1029 bytes. -/
  pkt : Memory
  /-- `pkt_len`, 0 .. 1029. -/
  pktLen : Nat
  /-- `expected_blk`, u8. -/
  expectedBlk : Byte
  /-- `retries`, u8. -/
  retries : Byte
  /-- `idle_ticks`, u32. -/
  idleTicks : BitVec 32
  /-- `remaining`, i64: -1, or 0 .. 2^63 - 1. -/
  remaining : BitVec 64
  /-- `write_offset`, u64, 0 .. 2^63 - 1. -/
  writeOffset : BitVec 64
  /-- `staging_open`. -/
  stagingOpen : Bool
  /-- `target_name`, 1023 bytes. -/
  targetName : Memory
  /-- `name_len`, 0 .. 1023. -/
  nameLen : Nat
  /-- `bt_status`. -/
  btStatus : BtStatus
  /-- `c16_acc`, u16. -/
  c16Acc : Word
  /-- `op_err`. -/
  opErr : OpErr
  /-- The model's own: the output list of the last step, first emitted first (R12, R245). -/
  events : List Event
  /-- The model's own: what the host will issue, next first (R2, R80, R270). -/
  inputs : List HostInput
  /-- The model's own: the counter that the free draws are indexed by (R24, R33). -/
  draws : Nat
  /-- The configuration (R6), fixed while the engine runs (R274). -/
  cfg : Config
  deriving DecidableEq, Repr

/-- What stops the machine. No fault is a behaviour of the hardware (it has no traps, R248). -/
inductive Fault where
  /-- Raised by RX_BYTE when a data block would carry `write_offset` past 2^63 - 1: "a model must fault" (R13, D39, 93 I9).
  Safe: the spec gives no behaviour there. -/
  | writeOffsetOverflow
  /-- Raised by an operation that would access an array at or past its size (R62: there is no such byte). No state that meets
  the invariants raises it. Safe. -/
  | outsideArray (a : ArrayId)
  /-- Raised by RX_BYTE when a packet is complete while no transfer is active: R207 gives no case for Idle and Complete.
  No state that meets R35 raises it. Safe. -/
  | packetOutsideTransfer
  deriving DecidableEq, Repr

/-- Why a step gives no meaning. -/
inductive Refusal where
  /-- Raised by `exec` for an instruction that has no meaning yet. None is left. Safe. -/
  | notModelled (mnemonic : String)
  /-- Raised by `step` when the configuration is outside the bounds of R6 and R34: "is refused" (R34). Safe. -/
  | badConfiguration
  deriving DecidableEq, Repr

/-- What an operation answers. -/
abbrev Result := Host.Outcome State Fault Refusal

/-- The reset state R271 under a configuration. The arrays are unspecified: nothing is listed. -/
def State.resetWith (c : Config) : State where
  ckAcc := 0x00
  txbuf := []
  txLen := 0
  rxbuf := []
  rxLen := 0
  rxClass := .incomplete
  frame := []
  frameLen := 0
  frameValid := false
  frameKind := .response
  overrun := false
  frameErr := .none
  pending := 0
  mode := .detector
  btState := .idle
  pkt := []
  pktLen := 0
  expectedBlk := 0x00
  retries := 0
  idleTicks := 0
  remaining := 0
  writeOffset := 0
  stagingOpen := false
  targetName := []
  nameLen := 0
  btStatus := .none
  c16Acc := 0x0000
  opErr := .none
  events := []
  inputs := []
  draws := 0
  cfg := c

/-- The machine right after reset (R271), under the reference configuration (notes/assumptions/1.md). The host has issued
nothing yet. -/
def State.reset : State := State.resetWith Config.reference

end Sys2Proof.Machine
end

