-- ==== Sys2Proof/Machine/Ops.lean ====
section
/-!
DEFINITION. Machine/Ops.lean: the named operations the rules are written with (00_scope.md R10): reading and writing a byte
memory, appending to one, emitting an event, raising an operation error, the return to Idle, and the pre-step.
-/

namespace Sys2Proof.Machine

/-- What a memory holds at index `i`: the byte last written there, none where nothing has been written. -/
def Memory.read? : Memory → Nat → Option Byte
  | [], _ => none
  | (a, b) :: m, i => if i = a then some b else Memory.read? m i

/-- `MemWrite(M, i, b)` (R10). The indices stay strictly rising. -/
def Memory.write : Memory → Nat → Byte → Memory
  | [], i, b => [(i, b)]
  | (a, c) :: m, i, b =>
    if i < a then (i, b) :: (a, c) :: m
    else if i = a then (i, b) :: m
    else (a, c) :: Memory.write m i b

/-- Write a byte sequence from index `i` on. -/
def Memory.writeAll : Memory → Nat → List Byte → Memory
  | m, _, [] => m
  | m, i, b :: bs => Memory.writeAll (m.write i b) (i + 1) bs

/-- The canonical form: indices strictly rising. Equal contents are then equal data. -/
abbrev Memory.wf (m : Memory) : Prop := (m.map Prod.fst).Pairwise (· < ·)

namespace State

/-- The memory of an array (R62). -/
def mem (s : State) : ArrayId → Memory
  | .txbuf => s.txbuf
  | .rxbuf => s.rxbuf
  | .frame => s.frame
  | .pkt => s.pkt
  | .targetName => s.targetName

/-- The length field of an array (R62). -/
def len (s : State) : ArrayId → Nat
  | .txbuf => s.txLen
  | .rxbuf => s.rxLen
  | .frame => s.frameLen
  | .pkt => s.pktLen
  | .targetName => s.nameLen

/-- The size of an array (R62). -/
def size (s : State) : ArrayId → Nat
  | .txbuf => s.cfg.txbufCap
  | .rxbuf => rxbufCap
  | .frame => rxbufCap
  | .pkt => pktSize
  | .targetName => nameSize

/-- What array `a` holds at index `i`, none where nothing has been written since reset. -/
def read? (s : State) (a : ArrayId) (i : Nat) : Option Byte := (s.mem a).read? i

/-- `MemRead(a, i)` (R10). A byte nothing has written is unspecified: a free draw (R22). -/
def rd (s : State) (a : ArrayId) (i : Nat) : Byte := (s.read? a i).getD (Config.freeByte s.draws a i)

/-- The byte sequence `a[lo .. lo + n)` (R9). -/
def bytes (s : State) (a : ArrayId) (lo n : Nat) : List Byte := (List.range n).map fun k => s.rd a (lo + k)

/-- `emit` the events, first to last (R10, R245). -/
def emit (s : State) (es : List Event) : State := { s with events := s.events ++ es }

/-- `return` (R10). -/
def done (s : State) : Result := .next s

/-- `raise OpError(code)`, the one way an operation reports misuse (R10, R242): `op_err` is set and the operation ends with
no other effect. The engine has no trap to take (R248) and nothing to return from (R249). -/
def raiseOp (s : State) (e : OpErr) : Result := .next { s with opErr := e }

/-- `go_idle()` (R217). The mode flag is cleared in the same atomic step that reaches Idle. -/
def goIdle (s : State) : State :=
  { s with btState := .idle, mode := .detector, pktLen := 0, idleTicks := 0, retries := 0 }

/-- The pre-step (R272): clear `op_err`, and leave Complete for Idle. -/
def preStep (s : State) : State :=
  if s.btState = .complete then { s.goIdle with opErr := .none } else { s with opErr := .none }

/-- A step's output list begins empty (R12, R245), and its free draws are new ones (R33). -/
def openStep (s : State) : State := { s with events := [], draws := s.draws + 1 }

/-- What every step does before its operation (R12 part 1). -/
def beginStep (s : State) : State := s.openStep.preStep

end State

end Sys2Proof.Machine
end

