-- ==== Sys2Proof/Machine/Operands.lean ====
section
/-!
DEFINITION. Machine/Operands.lean: how bytes make 16-bit values and where a field stands in a byte sequence
(00_scope.md R8, R9; 20_memory.md R60, R61). An operation's own operand is the byte `b` of its word, used as is
(30_encoding.md R81); it needs no assembly beyond Decode.lean.
-/

namespace Sys2Proof.Machine

/-- The 16-bit value of two bytes, the more significant first (R8, R60). -/
def u16 (hi lo : Byte) : Word := hi ++ lo

/-- `v[15:8]` (R8). -/
def hiByte (v : Word) : Byte := v.extractLsb' 8 8

/-- `v[7:0]` (R8). -/
def loByte (v : Word) : Byte := v.extractLsb' 0 8

/-- `f[i]` (R9). Every use below is guarded by a length test, so the default is never the answer (R24). -/
def byteAt (f : List Byte) (i : Nat) : Byte := f.getD i 0

/-- The 16-bit field at index `i` (R60). -/
def u16At (f : List Byte) (i : Nat) : Word := u16 (byteAt f i) (byteAt f (i + 1))

/-- A byte sequence without its last byte, `f[0 .. n-1)` (R9, R88). -/
def body (f : List Byte) : List Byte := f.take (f.length - 1)

/-- The last byte of a sequence, `f[n-1]`: a frame's checksum byte (R88). -/
def trailer (f : List Byte) : Byte := byteAt f (f.length - 1)

end Sys2Proof.Machine
end

