-- ==== Sys2Proof/Machine/Codec.lean ====
section
/-!
DEFINITION. Machine/Codec.lean: the pure functions of a byte sequence (90_conflicts.md C9): the XOR checksum
(40_checksum.md R120), the CRC-16 (42_block_transfer.md R190), classify and the two validations
(41_frame_detector.md R155 to R157), and the size field of a header packet (42_block_transfer.md R209).
-/

namespace Sys2Proof.Machine

/-- `xor8(seq)` (R120). -/
def xor8 (f : List Byte) : Byte := f.foldl (· ^^^ ·) 0x00

/-- One shift of the CRC register: the bit shifted out is tested, then dropped (R13, R190). -/
def crcShift (c : Word) : Word := if c.msb then (c <<< 1) ^^^ crc16Poly else c <<< 1

/-- `n` shifts of the CRC register. -/
def crcShifts : Nat → Word → Word
  | 0, c => c
  | n + 1, c => crcShifts n (crcShift c)

/-- `crc16_step(c, b)` (R190). -/
def crc16Step (c : Word) (b : Byte) : Word := crcShifts 8 (c ^^^ (b.setWidth 16 <<< 8))

/-- `crc16(seq)` (R190). -/
def crc16 (f : List Byte) : Word := f.foldl crc16Step crc16Init

/-- `classify(buf, n)`, with `n` the length of the sequence (R155). -/
def classify (f : List Byte) : RxClass :=
  if f.length = 0 then .incomplete
  else if byteAt f 0 = notifyEvents then
    if f.length < notifyLen then .incomplete
    else if f.length = notifyLen then .notification
    else .malformed
  else if f.length < respHdrLen then .incomplete
  else
    let total := respOverhead + (u16At f 4).toNat
    if f.length < total then .incomplete
    else if f.length = total then .response
    else .malformed

/-- The return code is in `RC_SET` (R6). -/
def inRcSet (c : Config) (rc : Byte) : Bool := c.rcSet.contains rc

/-- The command type is one of the three (R6, R156). -/
def isCommandType (c : Config) (t : Byte) : Bool := t == ctGeneral || t == c.ctLorawan || t == c.ctSidewalk

/-- `CATALOGUE(t, code)` (R6). -/
def inCatalogue (c : Config) (t : Byte) (code : Word) : Bool := c.catalogue.contains (t, code)

/-- `validate_response(buf, n)` (R156): the first violation in the fixed order. -/
def validateResponse (c : Config) (f : List Byte) : FrameErr :=
  if !inRcSet c (byteAt f 0) then .badReturnCode
  else if !isCommandType c (byteAt f 1) then .badCommandType
  else if !inCatalogue c (byteAt f 1) (u16At f 2) then .badCommandCode
  else if trailer f ≠ xor8 (body f) then .badCrc
  else .none

/-- `validate_notification(buf)` (R157): the first violation in the fixed order. -/
def validateNotification (f : List Byte) : FrameErr :=
  if u16At f 1 ≠ notifyPayloadLen then .badNotifyLen
  else if (byteAt f 3).toNat > maxPending then .badPendingCount
  else if trailer f ≠ xor8 (body f) then .badCrc
  else .none

/-- The data size a packet's start byte gives (R101, R205). -/
def packetDataLen (start : Byte) : Nat := if start = soh then sohDataLen else stxDataLen

/-- The name of a header packet is the bytes before the first NUL; none where there is no NUL (R209). -/
def headerName? (data : List Byte) : Option (List Byte) :=
  let name := data.takeWhile (· != nul)
  if name.length < data.length then some name else none

/-- What the size field of a header packet says (R209). -/
inductive HeaderSize where
  /-- No digit follows the NUL: the size is not declared. -/
  | notDeclared
  /-- The declared size. -/
  | declared (n : Nat)
  /-- The value passes 2^63 - 1. -/
  | tooLarge
  deriving DecidableEq, Repr

/-- An ASCII decimal digit, 0x30 .. 0x39 (R102). -/
def isDigit (b : Byte) : Bool := decide (0x30 ≤ b.toNat) && decide (b.toNat ≤ 0x39)

/-- The digit loop of R209: `v` is the value so far and `digits` whether a digit has been seen. -/
def sizeFrom (v : Nat) (digits : Bool) : List Byte → HeaderSize
  | [] => if digits then .declared v else .notDeclared
  | b :: bs =>
    if isDigit b then
      let v' := 10 * v + (b.toNat - 0x30)
      if v' > maxFileSize then .tooLarge else sizeFrom v' true bs
    else if digits then .declared v else .notDeclared

/-- The size field that stands after a name of length `z` and its NUL (R209). -/
def headerSize (data : List Byte) (z : Nat) : HeaderSize := sizeFrom 0 false (data.drop (z + 1))

end Sys2Proof.Machine
end

