-- ==== Sys2Proof/Machine/Flags.lean ====
section
/-!
DEFINITION. Machine/Flags.lean: the 1-bit fields of 10_state.md R30 and the retry and idle counts, each computed in one place.
The engine has no condition codes (R30).
-/

namespace Sys2Proof.Machine

/-- `overrun` after a latch (R159): set when the host had not taken the previous frame, otherwise as it was. -/
def overrunAfterLatch (s : State) : Bool := s.overrun || s.frameValid

/-- `bt_status` after EOT (R214). -/
def statusAfterEot (s : State) : BtStatus := if s.remaining.toInt > 0 then .doneShort else .doneOk

/-- `bt_state` after a header of the given size (R209). -/
def stateAfterHeader (size : BitVec 64) : BtState := if size = 0 then .waitEot else .receivingData

/-- `bt_state` after a data block, from `remaining` after the write (R212). -/
def stateAfterData (st : BtState) (remaining : BitVec 64) : BtState := if remaining = 0 then .waitEot else st

/-- `MAX_RETRIES != INF and retries = MAX_RETRIES` (R211). -/
def retriesReached (m : RetryBound) (retries : Byte) : Bool :=
  match m with
  | .upTo n => retries == n
  | .inf => false

/-- `min(retries + 1, 255)` (R211). -/
def bumpRetries (retries : Byte) : Byte := BitVec.ofNat 8 (min (retries.toNat + 1) 255)

/-- `idle_ticks + 1 >= T_TIMEOUT` (R215), on exact integers. -/
def idleExpires (s : State) : Bool := decide (s.idleTicks.toNat + 1 ≥ s.cfg.tTimeout)

end Sys2Proof.Machine
end

