-- ==== Sys2Proof/Machine/Checksum.lean ====
section
/-!
DEFINITION. Machine/Checksum.lean: the XOR checksum unit and the transmit buffer (40_checksum.md): NOP, CK_CLR, CK_ACC,
TX_CLR, TX_BYTE, TX_SEAL. A meaning is run on the state after the pre-step (R272).
-/

namespace Sys2Proof.Machine

/-- NOP (R122): the pre-step is its whole effect. -/
def execNop (s : State) : Result := s.done

/-- CK_CLR (R123). -/
def execCkClr (s : State) : Result := { s with ckAcc := 0x00 }.done

/-- CK_ACC b (R124). -/
def execCkAcc (b : Byte) (s : State) : Result := { s with ckAcc := s.ckAcc ^^^ b }.done

/-- TX_CLR (R125). The bytes of `txbuf` stay. -/
def execTxClr (s : State) : Result := { s with txLen := 0 }.done

/-- TX_BYTE b (R126). -/
def execTxByte (b : Byte) (s : State) : Result :=
  if s.txLen = s.cfg.txbufCap then s.raiseOp .txOverflow
  else if s.txLen < s.cfg.txbufCap then { s with txbuf := s.txbuf.write s.txLen b, txLen := s.txLen + 1 }.done
  else .fault (.outsideArray .txbuf)

/-- TX_SEAL (R127): the checksum of all bytes but the last goes into the last. -/
def execTxSeal (s : State) : Result :=
  if s.txLen < minTxLen then s.raiseOp .txUndersized
  else if s.txLen ≤ s.cfg.txbufCap then
    { s with txbuf := s.txbuf.write (s.txLen - 1) (xor8 (s.bytes .txbuf 0 (s.txLen - 1))) }.done
  else .fault (.outsideArray .txbuf)

end Sys2Proof.Machine
end

