-- ==== Sys2Proof/Machine/BlockTransfer.lean ====
section
/-!
DEFINITION. Machine/BlockTransfer.lean: the block-transfer engine and the CRC-16 unit (42_block_transfer.md): C16_CLR,
C16_ACC, BT_START, TICK, and the engine's part of RX_BYTE.
-/

namespace Sys2Proof.Machine

/-- C16_CLR (R191). -/
def execC16Clr (s : State) : Result := { s with c16Acc := 0x0000 }.done

/-- C16_ACC b (R192). -/
def execC16Acc (b : Byte) (s : State) : Result := { s with c16Acc := crc16Step s.c16Acc b }.done

/-- What BT_START leaves when it starts a transfer (R195, R196). -/
def State.startTransfer (s : State) : State :=
  { s with
    mode := .engine
    btState := .waitHeader
    expectedBlk := 0x00
    retries := 0
    idleTicks := 0
    pktLen := 0
    writeOffset := 0
    nameLen := 0
    btStatus := .active
    events := s.events ++ (if s.cfg.solicitOnStart then [.serTx crcRequest] else []) }

/-- BT_START (R195). -/
def execBtStart (s : State) : Result := if s.btState ≠ .idle then s.raiseOp .btBusy else s.startTransfer.done

/-- `abort(reason)` (R217). -/
def State.abort (s : State) (reason : BtStatus) : State :=
  { s.goIdle with
    stagingOpen := false
    btStatus := reason
    events := s.events ++ (if s.stagingOpen then [.stgDiscard] else []) ++ [.btEnd reason] }

/-- TICK (R215, R216). -/
def execTick (s : State) : Result :=
  if s.btState = .idle then s.done
  else if idleExpires s then (s.abort .timeout).done
  else { s with idleTicks := s.idleTicks + 1 }.done

/-- `bad_packet()` (R211). -/
def State.badPacket (s : State) : State :=
  if retriesReached s.cfg.maxRetries s.retries then s.abort .crcExhausted
  else { s with retries := bumpRetries s.retries, events := s.events ++ [.serTx nak] }

/-- `on_end_of_batch()` (R210). -/
def State.onEndOfBatch (s : State) : State :=
  { s.goIdle with
    btStatus := .endOfBatch
    events := s.events ++ [.serTx ackByte, .btEnd .endOfBatch] }

/-- The header is accepted with this name and size (R209). -/
def State.acceptHeader (s : State) (name : List Byte) (size : BitVec 64) : State :=
  { s with
    targetName := s.targetName.writeAll 0 name
    nameLen := name.length
    remaining := size
    writeOffset := 0
    stagingOpen := true
    expectedBlk := 0x01
    retries := 0
    btState := stateAfterHeader size
    events := s.events ++ [.stgOpen name size, .serTx ackByte, .serTx crcRequest] }

/-- `on_header(data, N)` (R209). -/
def State.onHeader (s : State) (data : List Byte) : State :=
  match headerName? data with
  | none => s.badPacket
  | some [] => s.onEndOfBatch
  | some (b :: bs) =>
    match headerSize data (b :: bs).length with
    | .tooLarge => s.badPacket
    | .notDeclared => s.acceptHeader (b :: bs) (-1)
    | .declared v => s.acceptHeader (b :: bs) (BitVec.ofNat 64 v)

/-- `wlen` of R212: all of the block where no size was declared, otherwise at most what is still to be written. -/
def writeLen (s : State) (n : Nat) : Nat := if s.remaining.toInt < 0 then n else min n s.remaining.toNat

/-- `remaining` after `wlen` bytes are written (R212): -1 is never changed by arithmetic (R13). -/
def remainingAfter (s : State) (wlen : Nat) : BitVec 64 :=
  if s.remaining.toInt < 0 then s.remaining else s.remaining - BitVec.ofNat 64 wlen

/-- The data block is accepted and `wlen` bytes of it are written (R212). -/
def State.acceptData (s : State) (data : List Byte) (wlen : Nat) : State :=
  { s with
    writeOffset := s.writeOffset + BitVec.ofNat 64 wlen
    remaining := remainingAfter s wlen
    expectedBlk := s.expectedBlk + 1
    retries := 0
    btState := stateAfterData s.btState (remainingAfter s wlen)
    events := s.events ++ (if 0 < wlen then [.stgWrite s.writeOffset (data.take wlen)] else []) ++ [.serTx ackByte] }

/-- `on_data(data, N)` (R212), with the fault of D39 (93 I9). -/
def onData (data : List Byte) (s : State) : Result :=
  if 0 < writeLen s data.length ∧ s.writeOffset.toNat + writeLen s data.length > maxFileSize then .fault .writeOffsetOverflow
  else (s.acceptData data (writeLen s data.length)).done

/-- `on_duplicate()` (R213). -/
def State.onDuplicate (s : State) : State := { s with retries := 0, events := s.events ++ [.serTx ackByte] }

/-- `on_eot()` (R214). -/
def State.onEot (s : State) : State :=
  { s with
    stagingOpen := false
    btStatus := statusAfterEot s
    btState := .complete
    retries := 0
    events := s.events ++ [.serTx ackByte, .stgClose, .finalize, .btEnd (statusAfterEot s)] }

/-- A packet's complement and CRC are right (R207, R61). -/
def packetIntact (blk cblk : Byte) (data : List Byte) (crcRx : Word) : Bool := cblk == 0xFF ^^^ blk && crc16 data == crcRx

/-- The block-number cases of R207 for an intact packet. -/
def dispatchPacket (blk : Byte) (data : List Byte) (s : State) : Result :=
  match s.btState with
  | .waitHeader => if blk ≠ 0x00 then s.badPacket.done else (s.onHeader data).done
  | .receivingData | .waitEot =>
    if blk = s.expectedBlk then onData data s
    else if blk = s.expectedBlk - 1 then s.onDuplicate.done
    else s.badPacket.done
  | .idle | .complete => .fault .packetOutsideTransfer

/-- `on_packet(N)` (R207, R208), run with `pkt_len` back at 0. -/
def onPacket (n : Nat) (s : State) : Result :=
  if packetIntact (s.rd .pkt 1) (s.rd .pkt 2) (s.bytes .pkt 3 n) (u16 (s.rd .pkt (3 + n)) (s.rd .pkt (4 + n))) then
    dispatchPacket (s.rd .pkt 1) (s.bytes .pkt 3 n) s
  else s.badPacket.done

/-- The packet byte is stored (R205, R63). -/
def State.appendPkt (s : State) (b : Byte) : State := { s with pkt := s.pkt.write s.pktLen b, pktLen := s.pktLen + 1 }

/-- A byte in the middle of a packet, whatever its value (R205). -/
def packetByte (b : Byte) (s : State) : Result :=
  if s.pktLen < pktSize then
    if s.pktLen + 1 = packetDataLen ((s.appendPkt b).rd .pkt 0) + packetOverhead then
      onPacket (packetDataLen ((s.appendPkt b).rd .pkt 0)) { s.appendPkt b with pktLen := 0 }
    else (s.appendPkt b).done
  else .fault (.outsideArray .pkt)

/-- EOT is honoured between packets in these states (R205, R214). -/
def BtState.takesEot : BtState → Bool
  | .receivingData | .waitEot => true
  | .idle | .waitHeader | .complete => false

/-- A byte between packets (R205, R206). -/
def betweenPackets (b : Byte) (s : State) : Result :=
  if b = soh ∨ b = stx then { s with pkt := s.pkt.write 0 b, pktLen := 1 }.done
  else if b = eot ∧ s.btState.takesEot then s.onEot.done
  else s.done

/-- `bt_rx(b)` (R205): any byte is activity. -/
def engineRx (b : Byte) (s : State) : Result :=
  if s.pktLen = 0 then betweenPackets b { s with idleTicks := 0 } else packetByte b { s with idleTicks := 0 }

end Sys2Proof.Machine
end

