-- ==== Sys2Proof/Machine/FrameDetector.lean ====
section
/-!
DEFINITION. Machine/FrameDetector.lean: the frame-boundary detector (41_frame_detector.md): RX_EOB, RX_CLASSIFY, RX_CLR,
FRAME_TAKE, and the detector's part of RX_BYTE.
-/

namespace Sys2Proof.Machine

/-- The bytes received so far, `rxbuf[0 .. rx_len)`. -/
def State.rxBytes (s : State) : List Byte := s.bytes .rxbuf 0 s.rxLen

/-- `latch(k)` (R159): the buffer is copied into the latch and emptied, in one action (R65). -/
def State.latch (s : State) (k : FrameKind) : State :=
  { s with
    overrun := overrunAfterLatch s
    frame := s.frame.writeAll 0 s.rxBytes
    frameLen := s.rxLen
    frameKind := k
    frameValid := true
    frameErr := .none
    rxLen := 0
    events := s.events ++ [.frame k] }

/-- `discard(e)` (R160): the buffer is emptied and the error reported. The latch is not touched. -/
def State.discard (s : State) (e : FrameErr) : State :=
  { s with frameErr := e, rxLen := 0, events := s.events ++ [.frameErr e] }

/-- The NOTIFICATION case of RX_EOB (R158, R163). -/
def State.endNotification (s : State) : State :=
  let e := validateNotification s.rxBytes
  if e ≠ .none then s.discard e
  else { (s.latch .notification).emit [.notify (byteAt s.rxBytes 3)] with pending := byteAt s.rxBytes 3 }

/-- The RESPONSE case of RX_EOB (R158). -/
def State.endResponse (s : State) : State :=
  let e := validateResponse s.cfg s.rxBytes
  if e ≠ .none then s.discard e else s.latch .response

/-- The case distinction of RX_EOB, after `rx_class` has been written (R158). -/
def State.endBatch (s : State) (c : RxClass) : State :=
  match c with
  | .incomplete => s
  | .malformed => s.discard .malformed
  | .notification => s.endNotification
  | .response => s.endResponse

/-- RX_EOB (R158). -/
def execRxEob (s : State) : Result :=
  if s.rxLen ≤ rxbufCap then ({ s with rxClass := classify s.rxBytes }.endBatch (classify s.rxBytes)).done
  else .fault (.outsideArray .rxbuf)

/-- RX_CLASSIFY (R170). -/
def execRxClassify (s : State) : Result :=
  if s.rxLen ≤ rxbufCap then { s with rxClass := classify s.rxBytes }.done else .fault (.outsideArray .rxbuf)

/-- RX_CLR (R171). -/
def execRxClr (s : State) : Result := { s with rxLen := 0, rxClass := .incomplete }.done

/-- FRAME_TAKE (R172). -/
def execFrameTake (s : State) : Result :=
  if s.frameValid then { s with frameValid := false, overrun := false }.done else s.raiseOp .noFrame

/-- A byte that arrives at a full receive buffer (R151, R153). -/
def State.rxOverflow (s : State) : State :=
  { s with frameErr := .rxOverflow, rxClass := .malformed, rxLen := 0, events := s.events ++ [.frameErr .rxOverflow] }

/-- The detector's part of RX_BYTE (R151). -/
def detectorRx (b : Byte) (s : State) : Result :=
  if s.rxLen = rxbufCap then s.rxOverflow.done
  else if s.rxLen < rxbufCap then { s with rxbuf := s.rxbuf.write s.rxLen b, rxLen := s.rxLen + 1 }.done
  else .fault (.outsideArray .rxbuf)

end Sys2Proof.Machine
end

