-- ==== Sys2Proof/Machine/Receive.lean ====
section
/-!
DEFINITION. Machine/Receive.lean: RX_BYTE. The mode flag, sampled per byte, routes the byte to one of the two units
(41_frame_detector.md R150, R151).
-/

namespace Sys2Proof.Machine

/-- RX_BYTE b (R151). -/
def execRxByte (b : Byte) (s : State) : Result :=
  match s.mode with
  | .engine => engineRx b s
  | .detector => detectorRx b s

end Sys2Proof.Machine
end

