-- ==== Sys2Proof/Machine/Dispatch.lean ====
section
/-!
DEFINITION. Machine/Dispatch.lean: one arm per operation of 30_encoding.md R83, run on the state after the pre-step (R12).
-/

namespace Sys2Proof.Machine

/-- The operation's rule (R12 part 3). -/
def exec (i : Instr) (s : State) : Host.Outcome State Fault Refusal :=
  match i with
  | .nop => Sys2Proof.Machine.execNop s
  | .ckClr => Sys2Proof.Machine.execCkClr s
  | .ckAcc b => Sys2Proof.Machine.execCkAcc b s
  | .c16Clr => Sys2Proof.Machine.execC16Clr s
  | .c16Acc b => Sys2Proof.Machine.execC16Acc b s
  | .rxByte b => Sys2Proof.Machine.execRxByte b s
  | .rxEob => Sys2Proof.Machine.execRxEob s
  | .rxClassify => Sys2Proof.Machine.execRxClassify s
  | .rxClr => Sys2Proof.Machine.execRxClr s
  | .frameTake => Sys2Proof.Machine.execFrameTake s
  | .txClr => Sys2Proof.Machine.execTxClr s
  | .txByte b => Sys2Proof.Machine.execTxByte b s
  | .txSeal => Sys2Proof.Machine.execTxSeal s
  | .btStart => Sys2Proof.Machine.execBtStart s
  | .tick => Sys2Proof.Machine.execTick s

end Sys2Proof.Machine
end

