-- ==== Sys2Proof/Machine/Cycle.lean ====
section
/-!
DEFINITION. Machine/Cycle.lean: what one step does with what the host issued (00_scope.md R12; 70_reset_and_hazards.md R270,
R272). Step.lean only calls these.
-/

namespace Sys2Proof.Machine

/-- An operation word: the pre-step, the decode, the operation's rule (R12). An illegal word raises ILLEGAL_OP (R82, R84). -/
def runWord (w : Word) (s : State) : Result :=
  match decode w with
  | .ok i => exec i s.beginStep
  | .error _ => s.beginStep.raiseOp .illegalOp

/-- The reset input (R270, R271): every field takes its reset value at once and no event is emitted. The configuration stays
(R274), the arrays are new free draws, and what the host issues next is not the engine's. -/
def resetInput (s : State) : State :=
  { State.resetWith s.cfg with inputs := s.inputs, draws := s.draws + 1 }

/-- The host has issued nothing: the engine holds its state (R260), and this step's output list is empty. -/
def holdStep (s : State) : State := { s with events := [] }

/-- Take one input from the host (R12: a step consumes exactly one word). -/
def takeInput (s : State) : Result :=
  match s.inputs with
  | [] => (holdStep s).done
  | .op w :: rest => runWord w { s with inputs := rest }
  | .reset :: rest => (resetInput { s with inputs := rest }).done

/-- A configuration outside the bounds of R6 and R34 is refused. -/
def runStep (s : State) : Result := if s.cfg.valid then takeInput s else .refused .badConfiguration

/-- The host issues this word next. The bits of the table's number from `nbits` on are 0. -/
def State.issueFirst (s : State) (nbits w : Nat) : State :=
  { s with inputs := .op (BitVec.ofNat 16 (w % 2 ^ nbits)) :: s.inputs }

end Sys2Proof.Machine
end

