-- ==== Sys2Proof/Machine/Step.lean ====
section
/-!
DEFINITION. Machine/Step.lean: one step of the frame engine (00_scope.md R12), and where it takes its next operation from.
The engine has no program counter (10_state.md R21): the host's next input is the head of State.inputs.
-/

namespace Sys2Proof.Machine

/-- One step (R12). -/
def step (s : State) : Host.Outcome State Fault Refusal := runStep s

/-- The state in which the very next step runs the instruction whose table bits are `w`: the host issues it first. -/
def State.withFetchWord (s : State) (nbits w : Nat) : State := s.issueFirst nbits w

end Sys2Proof.Machine
end

