-- ==== Sys2Proof/Machine/Assembler.lean ====
section
/-!
DEFINITION. Machine/Assembler.lean: the assembler's notation (30_encoding.md R86) and its pseudo-operations (R87).
Text is a list of characters. The engine never sees it: a line assembles to operations, and they to words.
-/

namespace Sys2Proof.Machine.Asm

/-- `RX_BYTES b0, .., bk` (R87). -/
def rxBytes (bs : List Byte) : List Instr := bs.map .rxByte

/-- `RX_BATCH b0, .., bk` (R87): one transport callback (R152). -/
def rxBatch (bs : List Byte) : List Instr := rxBytes bs ++ [.rxEob]

/-- `CK_BYTES b0, .., bk` (R87). -/
def ckBytes (bs : List Byte) : List Instr := bs.map .ckAcc

/-- `C16_BYTES b0, .., bk` (R87). -/
def c16Bytes (bs : List Byte) : List Instr := bs.map .c16Acc

/-- `TX_FRAME t, c, p0, .., pm` (R87): a command frame (R94) with a placeholder checksum, then TX_SEAL. -/
def txFrame (t : Byte) (c : Word) (ps : List Byte) : List Instr :=
  let len := BitVec.ofNat 16 ps.length
  .txClr :: ([t, hiByte c, loByte c, hiByte len, loByte len] ++ ps ++ [0x00]).map .txByte ++ [.txSeal]

/-- `TICKS k` (R87). -/
def ticks (k : Nat) : List Instr := List.replicate k .tick

/-- A space or a tab. -/
def isBlank (c : Char) : Bool := c.toNat == 32 || c.toNat == 9

/-- A character of a mnemonic: a capital, a digit or an underscore. -/
def isNameChar (c : Char) : Bool :=
  (decide (65 ≤ c.toNat) && decide (c.toNat ≤ 90)) || (decide (48 ≤ c.toNat) && decide (c.toNat ≤ 57)) || c.toNat == 95

/-- The value of a decimal digit. -/
def decDigit? (c : Char) : Option Nat :=
  if 48 ≤ c.toNat ∧ c.toNat ≤ 57 then some (c.toNat - 48) else none

/-- The value of a hexadecimal digit, in either case. -/
def hexDigit? (c : Char) : Option Nat :=
  if 48 ≤ c.toNat ∧ c.toNat ≤ 57 then some (c.toNat - 48)
  else if 65 ≤ c.toNat ∧ c.toNat ≤ 70 then some (c.toNat - 55)
  else if 97 ≤ c.toNat ∧ c.toNat ≤ 102 then some (c.toNat - 87)
  else none

/-- Drop leading blanks. -/
def skip (cs : List Char) : List Char := cs.dropWhile isBlank

/-- The line ends here, or a comment starts (R86). -/
def atEnd : List Char → Bool
  | [] => true
  | c :: _ => c == ';'

/-- Read a number: `0x` and exactly `hexDigits` hexadecimal digits, or a character in single quotes meaning its ASCII code,
or a decimal below `limit` (R86). -/
def number? (hexDigits limit : Nat) (cs : List Char) : Option (Nat × List Char) :=
  match cs with
  | '0' :: 'x' :: rest =>
    let ds := rest.takeWhile fun c => (hexDigit? c).isSome
    if ds.length = hexDigits then
      some (ds.foldl (fun v c => 16 * v + (hexDigit? c).getD 0) 0, rest.dropWhile fun c => (hexDigit? c).isSome)
    else none
  | c :: rest =>
    if c.toNat = 39 then
      match rest with
      | q :: e :: rest' => if q.toNat < 128 ∧ e.toNat = 39 then some (q.toNat, rest') else none
      | _ => none
    else
      let ds := cs.takeWhile fun c => (decDigit? c).isSome
      let v := ds.foldl (fun v c => 10 * v + (decDigit? c).getD 0) 0
      if ds ≠ [] ∧ v < limit then some (v, cs.dropWhile fun c => (decDigit? c).isSome) else none
  | [] => none

/-- A byte operand (R86). -/
def byte? (cs : List Char) : Option (Byte × List Char) :=
  (number? 2 256 cs).map fun (v, rest) => (BitVec.ofNat 8 v, rest)

/-- The bytes of a list that has begun, each after a comma (R87). `fuel` bounds their number. -/
def moreBytes? : Nat → List Char → Option (List Byte × List Char)
  | 0, _ => none
  | fuel + 1, cs =>
    match skip cs with
    | ',' :: rest =>
      match byte? (skip rest) with
      | some (b, rest') => (moreBytes? fuel rest').map fun (bs, r) => (b :: bs, r)
      | none => none
    | rest => some ([], rest)

/-- A list of one or more bytes, separated by commas (R87). -/
def byteList? (cs : List Char) : Option (List Byte × List Char) :=
  match byte? (skip cs) with
  | some (b, rest) => (moreBytes? (cs.length + 1) rest).map fun (bs, r) => (b :: bs, r)
  | none => none

/-- Nothing but blanks or a comment follows. -/
def finish (is : List Instr) (rest : List Char) : Option (List Instr) := if atEnd (skip rest) then some is else none

/-- A mnemonic with a byte operand. -/
def withByte (f : Byte → Instr) (rest : List Char) : Option (List Instr) :=
  match byte? (skip rest) with
  | some (b, r) => finish [f b] r
  | none => none

/-- A pseudo-operation with a byte list. -/
def withBytes (f : List Byte → List Instr) (rest : List Char) : Option (List Instr) :=
  match byteList? rest with
  | some (bs, r) => finish (f bs) r
  | none => none

/-- `TICKS k`. -/
def ticksLine (rest : List Char) : Option (List Instr) :=
  match number? 8 4294967296 (skip rest) with
  | some (k, r) => finish (ticks k) r
  | none => none

/-- `TX_FRAME t, c, p0, .., pm`: `c` is a 16-bit number. -/
def txFrameLine (rest : List Char) : Option (List Instr) :=
  match byte? (skip rest) with
  | some (t, r) =>
    match skip r with
    | ',' :: r' =>
      match number? 4 65536 (skip r') with
      | some (c, r'') =>
        match moreBytes? (r''.length + 1) r'' with
        | some (ps, r3) => if ps.length < 65536 then finish (txFrame t (BitVec.ofNat 16 c) ps) r3 else none
        | none => none
      | none => none
    | _ => none
  | none => none

/-- The mnemonic of an operation (R83). -/
def mnemonic : Instr → List Char
  | .nop => ['N', 'O', 'P']
  | .ckClr => ['C', 'K', '_', 'C', 'L', 'R']
  | .ckAcc _ => ['C', 'K', '_', 'A', 'C', 'C']
  | .c16Clr => ['C', '1', '6', '_', 'C', 'L', 'R']
  | .c16Acc _ => ['C', '1', '6', '_', 'A', 'C', 'C']
  | .rxByte _ => ['R', 'X', '_', 'B', 'Y', 'T', 'E']
  | .rxEob => ['R', 'X', '_', 'E', 'O', 'B']
  | .rxClassify => ['R', 'X', '_', 'C', 'L', 'A', 'S', 'S', 'I', 'F', 'Y']
  | .rxClr => ['R', 'X', '_', 'C', 'L', 'R']
  | .frameTake => ['F', 'R', 'A', 'M', 'E', '_', 'T', 'A', 'K', 'E']
  | .txClr => ['T', 'X', '_', 'C', 'L', 'R']
  | .txByte _ => ['T', 'X', '_', 'B', 'Y', 'T', 'E']
  | .txSeal => ['T', 'X', '_', 'S', 'E', 'A', 'L']
  | .btStart => ['B', 'T', '_', 'S', 'T', 'A', 'R', 'T']
  | .tick => ['T', 'I', 'C', 'K']

/-- The operations that take no operand. -/
def plainOps : List Instr :=
  [.nop, .ckClr, .c16Clr, .rxEob, .rxClassify, .rxClr, .frameTake, .txClr, .txSeal, .btStart, .tick]

/-- The operations that take a byte. -/
def byteOps : List (Byte → Instr) := [.ckAcc, .c16Acc, .rxByte, .txByte]

/-- The pseudo-operations that take a byte list. -/
def listOps : List (List Char × (List Byte → List Instr)) :=
  [(['R', 'X', '_', 'B', 'Y', 'T', 'E', 'S'], rxBytes), (['R', 'X', '_', 'B', 'A', 'T', 'C', 'H'], rxBatch),
   (['C', 'K', '_', 'B', 'Y', 'T', 'E', 'S'], ckBytes), (['C', '1', '6', '_', 'B', 'Y', 'T', 'E', 'S'], c16Bytes)]

/-- Assemble a mnemonic and the rest of its line. -/
def assembleOp (m rest : List Char) : Option (List Instr) :=
  match plainOps.find? (fun i => mnemonic i == m) with
  | some i => finish [i] rest
  | none =>
    match byteOps.find? (fun f => mnemonic (f 0) == m) with
    | some f => withByte f rest
    | none =>
      match listOps.find? (fun p => p.1 == m) with
      | some p => withBytes p.2 rest
      | none =>
        if m = ['T', 'I', 'C', 'K', 'S'] then ticksLine rest
        else if m = ['T', 'X', '_', 'F', 'R', 'A', 'M', 'E'] then txFrameLine rest
        else none

/-- Assemble one line: one operation or pseudo-operation, or nothing but a comment (R86, R87). -/
def assembleLine (line : List Char) : Option (List Instr) :=
  if atEnd (skip line) then some []
  else assembleOp ((skip line).takeWhile isNameChar) ((skip line).dropWhile isNameChar)

/-- The words of a line, in order. -/
def lineWords (line : List Char) : Option (List Word) := (assembleLine line).map (·.map encode)

/-- A hexadecimal digit as a character. -/
def hexChar (n : Nat) : Char := if n < 10 then Char.ofNat (48 + n) else Char.ofNat (55 + n)

/-- A byte as `0xHH`. -/
def hexByte (b : Byte) : List Char := ['0', 'x', hexChar (b.toNat / 16), hexChar (b.toNat % 16)]

/-- The line of an operation (R86). -/
def lineOf (i : Instr) : List Char :=
  match i with
  | .ckAcc b | .c16Acc b | .rxByte b | .txByte b => mnemonic i ++ ' ' :: hexByte b
  | .nop | .ckClr | .c16Clr | .rxEob | .rxClassify | .rxClr | .frameTake | .txClr | .txSeal | .btStart | .tick => mnemonic i

end Sys2Proof.Machine.Asm
end

