-- ==== Sys2Proof/Machine/Ports.lean ====
section
/-!
DEFINITION. Machine/Ports.lean: the read-only ports through which the host sees the state (10_state.md R33), with the numeric
codes of R25 to R29. A port is a function of the state, so reading it has no side effect (20_memory.md R66).
-/

namespace Sys2Proof.Machine

/-- The code of `rx_class` (R25). -/
def RxClass.code : RxClass → BitVec 2
  | .incomplete => 0 | .response => 1 | .notification => 2 | .malformed => 3

/-- The code of `frame_err` (R26). -/
def FrameErr.code : FrameErr → BitVec 4
  | .none => 0 | .badReturnCode => 1 | .badCommandType => 2 | .badCommandCode => 3 | .badCrc => 4
  | .malformed => 5 | .badNotifyLen => 6 | .badPendingCount => 7 | .rxOverflow => 8

/-- The code of `bt_state` (R27). -/
def BtState.code : BtState → BitVec 3
  | .idle => 0 | .waitHeader => 1 | .receivingData => 2 | .waitEot => 3 | .complete => 4

/-- The code of `bt_status` (R28). -/
def BtStatus.code : BtStatus → BitVec 4
  | .none => 0 | .active => 1 | .doneOk => 2 | .doneShort => 3 | .endOfBatch => 4 | .timeout => 5 | .crcExhausted => 6

/-- The code of `op_err` (R29). -/
def OpErr.code : OpErr → BitVec 4
  | .none => 0 | .illegalOp => 1 | .txUndersized => 2 | .txOverflow => 3 | .btBusy => 4 | .noFrame => 5

/-- The code of `frame_kind` (R22). -/
def FrameKind.code : FrameKind → BitVec 1
  | .response => 0 | .notification => 1

/-- The code of `mode` (R22). -/
def Mode.code : Mode → BitVec 1
  | .detector => 0 | .engine => 1

/-- The status ports of R33. -/
inductive StatusPort where
  | stOp | stCk | stRx | stRxLen | stFrameLen | stTxLen | stBt | stPkt | stIdle | stRem | stOff | stNameLen
  deriving DecidableEq, Repr

/-- A field whose lowest bit is bit `lo` of a port. -/
def placeAt {n : Nat} (lo : Nat) (v : BitVec n) : BitVec 64 := v.setWidth 64 <<< lo

/-- What a status port shows (R33). A bit that is not listed reads 0. -/
def State.status (s : State) : StatusPort → BitVec 64
  | .stOp => placeAt 0 s.opErr.code
  | .stCk => placeAt 0 s.ckAcc ||| placeAt 8 s.c16Acc
  | .stRx =>
    placeAt 0 s.rxClass.code ||| placeAt 2 (BitVec.ofBool s.frameValid) ||| placeAt 3 s.frameKind.code |||
      placeAt 4 (BitVec.ofBool s.overrun) ||| placeAt 5 s.mode.code ||| placeAt 8 s.frameErr.code ||| placeAt 12 s.pending
  | .stRxLen => placeAt 0 (BitVec.ofNat 17 s.rxLen)
  | .stFrameLen => placeAt 0 (BitVec.ofNat 17 s.frameLen)
  | .stTxLen => placeAt 0 (BitVec.ofNat 17 s.txLen)
  | .stBt =>
    placeAt 0 s.btState.code ||| placeAt 3 (BitVec.ofBool s.stagingOpen) ||| placeAt 4 s.btStatus.code |||
      placeAt 8 s.expectedBlk ||| placeAt 16 s.retries
  | .stPkt => placeAt 0 (BitVec.ofNat 11 s.pktLen)
  | .stIdle => placeAt 0 s.idleTicks
  | .stRem => s.remaining
  | .stOff => s.writeOffset
  | .stNameLen => placeAt 0 (BitVec.ofNat 10 s.nameLen)

/-- The byte read ports of R33: `txbuf`, `frame` and `target_name`. `rxbuf` and `pkt` have none. -/
inductive BytePort where
  | txbuf | frame | targetName
  deriving DecidableEq, Repr

/-- The array behind a byte read port. -/
def BytePort.array : BytePort → ArrayId
  | .txbuf => .txbuf
  | .frame => .frame
  | .targetName => .targetName

/-- What a byte read port returns for index `i`: the byte below the length, a free draw at or above it (R24, R33). -/
def State.readPort (s : State) (p : BytePort) (i : Nat) : Byte :=
  if i < s.len p.array then s.rd p.array i else Config.freeByte s.draws p.array i

end Sys2Proof.Machine
end

