-- ==== Sys2Proof/Machine/Wire.lean ====
section
/-!
DEFINITION. Machine/Wire.lean: the wire formats, built from their fields: the frames of 30_encoding.md R88 to R94 and the
block-transfer packets of R101 and R102. No operation runs these; statements about frames and packets are made with them.
-/

namespace Sys2Proof.Machine

/-- A frame: its bytes and then their checksum (R88). -/
def sealed (f : List Byte) : List Byte := f ++ [xor8 f]

/-- The response frame of R90. -/
def responseFrame (rc ct : Byte) (code : Word) (payload : List Byte) : List Byte :=
  let len := BitVec.ofNat 16 payload.length
  sealed ([rc, ct, hiByte code, loByte code, hiByte len, loByte len] ++ payload)

/-- The notification frame of R92. -/
def notificationFrame (count : Byte) : List Byte :=
  sealed [notifyEvents, hiByte notifyPayloadLen, loByte notifyPayloadLen, count]

/-- The command frame of R94. -/
def commandFrame (ct : Byte) (code : Word) (payload : List Byte) : List Byte :=
  let len := BitVec.ofNat 16 payload.length
  sealed ([ct, hiByte code, loByte code, hiByte len, loByte len] ++ payload)

/-- The packet of R101: start byte, block number, its complement, the data, and the CRC of the data, high byte first. -/
def packet (start blk : Byte) (data : List Byte) : List Byte :=
  [start, blk, 0xFF ^^^ blk] ++ data ++ [hiByte (crc16 data), loByte (crc16 data)]

/-- What a run of ASCII decimal digits is worth (R102). -/
def decimalValue (digits : List Byte) : Nat := digits.foldl (fun v b => 10 * v + (b.toNat - 0x30)) 0

end Sys2Proof.Machine
end

