-- ==== Sys2Proof/Safety.lean ====
section
/-!
DEFINITION. Safety.lean: the terms statements are made in: the invariants of 10_state.md R35 and the legal values of R22, what a
frame compares, what the staging port has seen (60_exceptions.md R250), and when two states agree on everything a rule may read
(10_state.md R24).
-/

namespace Sys2Proof.Machine

/-- The host issues one operation, and the engine steps. -/
def issue (i : Instr) (s : State) : Result := step (s.withFetchWord 16 (encode i).toNat)

/-- The host issues operations one after another, one per step. The output list of the answer is the last step's. -/
def issueAll : List Instr → State → Result
  | [], s => .next s
  | i :: is, s =>
    match issue i s with
    | .next t => issueAll is t
    | .fault f => .fault f
    | .refused r => .refused r

/-- The encoding of an operation: this opcode with any operand byte (R80, R81). -/
def Encodes (opc : Byte) (i : Byte → Instr) : Prop := ∀ b : Byte, decode (opc ++ b) = .ok (i b)

/-! ### Frames -/

/-- Every field but the contents of the five memories. -/
def State.regs (s : State) : State := { s with txbuf := [], rxbuf := [], frame := [], pkt := [], targetName := [] }

/-- Every byte of every memory reads as before. -/
def State.SameMemory (s t : State) : Prop := ∀ a i, t.read? a i = s.read? a i

/-- Every byte reads as before, but for the bytes of array `a` from `lo` on that `bs` was stored to. -/
def State.StoredOnly (s t : State) (a : ArrayId) (lo : Nat) (bs : List Byte) : Prop :=
  ∀ x i, t.read? x i = if x = a ∧ lo ≤ i ∧ i < lo + bs.length then bs[i - lo]? else s.read? x i

/-- The XOR checksum unit, the transmit buffer and the CRC-16 accumulator are the same. -/
structure State.SameChecksumUnits (s t : State) : Prop where
  ckAcc : t.ckAcc = s.ckAcc
  c16Acc : t.c16Acc = s.c16Acc
  txLen : t.txLen = s.txLen
  txbuf : t.txbuf = s.txbuf

/-- The frame detector's state is the same. -/
structure State.SameDetector (s t : State) : Prop where
  rxbuf : t.rxbuf = s.rxbuf
  rxLen : t.rxLen = s.rxLen
  rxClass : t.rxClass = s.rxClass
  frame : t.frame = s.frame
  frameLen : t.frameLen = s.frameLen
  frameValid : t.frameValid = s.frameValid
  frameKind : t.frameKind = s.frameKind
  overrun : t.overrun = s.overrun
  frameErr : t.frameErr = s.frameErr
  pending : t.pending = s.pending

/-- The mode flag and the block-transfer engine's state are the same. -/
structure State.SameEngine (s t : State) : Prop where
  mode : t.mode = s.mode
  btState : t.btState = s.btState
  pkt : t.pkt = s.pkt
  pktLen : t.pktLen = s.pktLen
  expectedBlk : t.expectedBlk = s.expectedBlk
  retries : t.retries = s.retries
  idleTicks : t.idleTicks = s.idleTicks
  remaining : t.remaining = s.remaining
  writeOffset : t.writeOffset = s.writeOffset
  stagingOpen : t.stagingOpen = s.stagingOpen
  targetName : t.targetName = s.targetName
  nameLen : t.nameLen = s.nameLen
  btStatus : t.btStatus = s.btStatus

/-- The byte `b` is the last of the packet `p`, whose other bytes have been collected (R205). The packet has the length its
start byte gives (R101). -/
structure State.CompletesPacket (s : State) (b : Byte) (p : List Byte) : Prop where
  mode : s.mode = .engine
  begun : 0 < s.pktLen
  bytes : s.bytes .pkt 0 s.pktLen ++ [b] = p
  length : p.length = packetDataLen (byteAt p 0) + packetOverhead

/-- The start byte of a packet with this many data bytes (R101). -/
def StartsPacket (start : Byte) (n : Nat) : Prop := (start = soh ∧ n = sohDataLen) ∨ (start = stx ∧ n = stxDataLen)

/-- The state, memories aside, after a bad packet (R211): a NAK and one more retry, or, once `MAX_RETRIES` NAKs have been sent,
the end of the transfer without a NAK (R217). -/
def State.afterBadPacket (s : State) : State :=
  if s.cfg.maxRetries = .upTo s.retries then
    { s.regs with btState := .idle, mode := .detector, pktLen := 0, idleTicks := 0, retries := 0, stagingOpen := false,
                  btStatus := .crcExhausted,
                  events := s.events ++ ((if s.stagingOpen then [.stgDiscard] else []) ++ [.btEnd .crcExhausted]) }
  else
    { s.regs with idleTicks := 0, pktLen := 0, retries := BitVec.ofNat 8 (min (s.retries.toNat + 1) 255),
                  events := s.events ++ [.serTx 0x15] }

/-- Change the next state of a result, and nothing of a stop. -/
def mapNext (f : State → State) : Result → Result
  | .next s => .next (f s)
  | .fault e => .fault e
  | .refused r => .refused r

/-! ### Invariants -/

/-- The greatest value of `retries` (R35 e): `MAX_RETRIES`, with `INF` read as 255. -/
def retryLimit : RetryBound → Nat
  | .upTo n => n.toNat
  | .inf => 255

/-- The staging destination belongs to these states (R35 c). -/
def BtState.stages (b : BtState) : Prop := b = .receivingData ∨ b = .waitEot

/-- The invariants R35 (a) to (g). -/
structure State.R35 (s : State) : Prop where
  /-- (a) -/
  mode_iff : s.mode = .engine ↔ s.btState ≠ .idle
  /-- (b) -/
  pktLen_zero : s.btState = .idle ∨ s.btState = .complete → s.pktLen = 0
  /-- (c) -/
  staging : s.stagingOpen = true → s.btState.stages
  /-- (d) -/
  overrun : s.frameValid = false → s.overrun = false
  /-- (e) -/
  retries : s.retries.toNat ≤ retryLimit s.cfg.maxRetries
  /-- (f), first half -/
  idle_active : s.btState ≠ .idle → s.idleTicks.toNat < s.cfg.tTimeout
  /-- (f), second half -/
  idle_idle : s.btState = .idle → s.idleTicks = 0
  /-- (g) -/
  pending : s.pending.toNat ≤ maxPending

/-- Every field has a legal value (R22), the arrays are within their sizes (R62) and in canonical form, and no rule can read
an unspecified byte: what lies below a length has been written (R24). -/
structure State.Legal (s : State) : Prop where
  config : s.cfg.valid = true
  len_le : ∀ a, s.len a ≤ s.size a
  inside : ∀ a i, s.read? a i ≠ none → i < s.size a
  written : ∀ a i, i < s.len a → s.read? a i ≠ none
  canonical : ∀ a, (s.mem a).wf
  remaining : -1 ≤ s.remaining.toInt
  writeOffset : s.writeOffset.toNat ≤ maxFileSize

/-- What holds of a transfer in progress. -/
structure State.Transfer (s : State) : Prop where
  /-- A packet that has begun has a start byte and is not complete (R205). -/
  packet : s.pktLen ≠ 0 → ∃ start, s.read? .pkt 0 = some start ∧ (start = soh ∨ start = stx) ∧
    s.pktLen < packetDataLen start + packetOverhead
  /-- The staging destination is open exactly while data or EOT is awaited (R209, R214, R217). -/
  staging_iff : s.stagingOpen = true ↔ s.btState.stages
  /-- WaitEot means that nothing is left to write (R200). -/
  waitEot : s.btState = .waitEot → s.remaining = 0
  /-- ReceivingData means that something is left, or no size was declared (R200). -/
  receiving : s.btState = .receivingData → s.remaining ≠ 0
  /-- What has been written and what remains make a declared size. -/
  declared : s.stagingOpen = true → 0 ≤ s.remaining.toInt → s.writeOffset.toNat + s.remaining.toNat ≤ maxFileSize

/-- The invariant every step keeps. -/
structure State.Inv (s : State) : Prop where
  r35 : s.R35
  legal : s.Legal
  transfer : s.Transfer

/-! ### The staging port -/

/-- What the staging port has seen of the current file (R250). -/
inductive StagingView where
  /-- No destination is open. -/
  | closed
  /-- A destination is open: its declared size, if any, and the offset the next write must have. -/
  | opened (size : Option Nat) (offset : Nat)
  /-- STG_CLOSE has been seen and FINALIZE must follow. -/
  | finalizing
  deriving DecidableEq, Repr

/-- One event at the staging port; none where R250 does not allow it there. Events of other ports do not concern it. -/
def StagingView.see (v : StagingView) (e : Event) : Option StagingView :=
  match e, v with
  | .stgOpen name size, .closed =>
    if 1 ≤ name.length ∧ name.length ≤ nameSize ∧ -1 ≤ size.toInt then
      some (.opened (if size.toInt < 0 then none else some size.toNat) 0)
    else none
  | .stgWrite offset data, .opened size next =>
    if offset.toNat = next ∧ 1 ≤ data.length ∧ data.length ≤ stxDataLen ∧ (∀ n ∈ size, next + data.length ≤ n) then
      some (.opened size (next + data.length))
    else none
  | .stgClose, .opened _ _ => some .finalizing
  | .finalize, .finalizing => some .closed
  | .stgDiscard, .opened _ _ => some .closed
  | .stgOpen _ _, _ | .stgWrite _ _, _ | .stgClose, _ | .finalize, _ | .stgDiscard, _ => none
  | .serTx _, .finalizing | .frame _, .finalizing | .frameErr _, .finalizing | .notify _, .finalizing | .btEnd _, .finalizing => none
  | .serTx _, v | .frame _, v | .frameErr _, v | .notify _, v | .btEnd _, v => some v

/-- A step's output list at the staging port, in order. -/
def StagingView.seeAll : StagingView → List Event → Option StagingView
  | v, [] => some v
  | v, e :: es =>
    match v.see e with
    | some v' => v'.seeAll es
    | none => none

/-- What the staging port must have seen, read off the engine's state. -/
def State.stagingView (s : State) : StagingView :=
  if s.stagingOpen then
    .opened (if s.remaining.toInt < 0 then none else some (s.writeOffset.toNat + s.remaining.toNat)) s.writeOffset.toNat
  else .closed

/-! ### What a rule may read -/

/-- Two states agree on all that a rule may read: every field, and every array below its length (R24). -/
structure State.Agree (s t : State) : Prop where
  regs : t.regs = s.regs
  bytes : ∀ a i, i < s.len a → t.rd a i = s.rd a i

/-- Two results agree: the same kind of outcome, next states that agree, the same reason to stop. -/
def ResultAgree : Result → Result → Prop
  | .next s, .next t => s.Agree t
  | .fault f, .fault g => f = g
  | .refused r, .refused q => r = q
  | .next _, .fault _ | .next _, .refused _ | .fault _, .next _ | .fault _, .refused _ | .refused _, .next _
  | .refused _, .fault _ => False

/-- The operation is an RX_BYTE. -/
def IsRxByte (i : Instr) : Prop := ∃ b, i = .rxByte b

/-- The operations that may emit an event, with the mode flag they run under: the "emitted by" column of R245. -/
def Event.EmittedBy (i : Instr) (m : Mode) : Event → Prop
  | .serTx _ => i = .btStart ∨ (IsRxByte i ∧ m = .engine)
  | .stgOpen _ _ | .stgWrite _ _ | .stgClose | .finalize => IsRxByte i ∧ m = .engine
  | .stgDiscard | .btEnd _ => i = .tick ∨ (IsRxByte i ∧ m = .engine)
  | .frame _ | .notify _ => i = .rxEob
  | .frameErr _ => i = .rxEob ∨ (IsRxByte i ∧ m = .detector)

end Sys2Proof.Machine
end

