-- ==== Sys2Proof/Certificates/Slice0/Obligations.lean ====
section
/-!
DEFINITION. Certificates/Slice0/Obligations.lean: the statements for the provers. Each docstring names the rules of spec/ it
formalises; OBLIGATIONS.json lists them. Where a statement is about `exec`, the state is the one after the pre-step (R12).
The configuration is a field of the state, so "every state" is also "every configuration".
-/

open Sys2Proof Sys2Proof.Machine

/-! ### Encoding -/

/-- R82, R83, R84: a word is an operation exactly when a row of the opcode map selects it, and at most one row does. -/
def Obligations.DecodeAcceptsExactlyTheTable : Prop :=
  ∀ w : Word,
    ((∃ i, decode w = .ok i) ↔ ∃ r ∈ opcodeTable, r.selects w = true) ∧
    (∀ r ∈ opcodeTable, ∀ r' ∈ opcodeTable, r.selects w = true → r'.selects w = true → r = r') ∧
    (∀ e, decode w = .error e → e = .illegalOpcode (w.extractLsb' 8 8))

/-- R80, R81, R83: decoding the encoding of an operation gives it back, with every operand; and the words of an operation are
exactly those that agree with its encoding in `opc` and, where it takes an operand, in `imm8`. -/
def Obligations.DecodeInvertsEncode : Prop :=
  ∀ i : Instr, i.wf = true →
    decode (encode i) = .ok i ∧ ∀ w : Word, decode w = .ok i ↔ w &&& i.wordMask = encode i

/-- R83, R84, R86: a few words written out from the opcode map. -/
def Obligations.WordsFromTheOpcodeMapDecode : Prop :=
  decode 0b0000000000000000 = .ok .nop ∧ decode 0b0000000111111111 = .ok .ckClr ∧ decode 0b0000001001011010 = .ok (.ckAcc 0x5A) ∧
  decode 0b0000100101000001 = .ok (.c16Acc 0x41) ∧ decode 0b0001000000100000 = .ok (.rxByte 0x20) ∧
  decode 0b0001000100000000 = .ok .rxEob ∧ decode 0b0010001000000000 = .ok .txSeal ∧ decode 0b0011000000000000 = .ok .btStart ∧
  decode 0b0011000100000000 = .ok .tick ∧ decode 0b0100010100000000 = .error (.illegalOpcode 0x45) ∧
  decode 0b0000001100000000 = .error (.illegalOpcode 0x03)

/-- R86: the assembler's line for an operation assembles to that operation. -/
def Obligations.AssemblerReadsBackItsLines : Prop :=
  ∀ i : Instr, Asm.assembleLine (Asm.lineOf i) = some [i] ∧ Asm.lineWords (Asm.lineOf i) = some [encode i]

/-! ### Steps, reset, configuration -/

/-- R12, R82: a step takes one word, runs the pre-step, decodes, and runs the operation's rule; an illegal word raises
ILLEGAL_OP after the pre-step. -/
def Obligations.StepRunsTheDecodedOperation : Prop :=
  ∀ (s : State) (w : Word) (rest : List HostInput), s.cfg.valid = true → s.inputs = .op w :: rest →
    (∀ i, decode w = .ok i → step s = exec i ({ s with inputs := rest } : State).beginStep) ∧
    (∀ e, decode w = .error e → step s = ({ s with inputs := rest } : State).beginStep.raiseOp .illegalOp)

/-- R84: each of the 241 illegal opcodes takes the pre-step and raises ILLEGAL_OP, whatever its `imm8`; nothing else is
written and no event is emitted. -/
def Obligations.IllegalOpcodesOnlyRaise : Prop :=
  ∀ (s : State) (opc b : Byte) (rest : List HostInput), s.cfg.valid = true → s.inputs = .op (opc ++ b) :: rest →
    ((0x03 ≤ opc.toNat ∧ opc.toNat ≤ 0x07) ∨ (0x0A ≤ opc.toNat ∧ opc.toNat ≤ 0x0F) ∨ (0x15 ≤ opc.toNat ∧ opc.toNat ≤ 0x1F) ∨
      (0x23 ≤ opc.toNat ∧ opc.toNat ≤ 0x2F) ∨ (0x32 ≤ opc.toNat ∧ opc.toNat ≤ 0xFF)) →
    ∃ t, step s = .next t ∧ t = { ({ s with inputs := rest } : State).beginStep with opErr := .illegalOp } ∧ t.events = []

/-- R272: the pre-step, as every operation word meets it. `op_err` is cleared and Complete is left for Idle; nothing else of
the engine's own state changes. So the byte after EOT goes to the frame detector. (The output list is emptied and the draw
counter advanced: the model's own fields, notes/assumptions/2.md and 3.md.) -/
def Obligations.PreStepClearsErrorAndLeavesComplete : Prop :=
  (∀ s : State, s.btState = .complete →
    s.beginStep = { s with opErr := .none, btState := .idle, mode := .detector, pktLen := 0, idleTicks := 0, retries := 0,
                           events := [], draws := s.draws + 1 }) ∧
  (∀ s : State, s.btState ≠ .complete → s.beginStep = { s with opErr := .none, events := [], draws := s.draws + 1 }) ∧
  (∀ (s : State) (b : Byte) (rest : List HostInput), s.cfg.valid = true → s.btState = .complete → s.rxLen < 65542 →
    s.inputs = .op (0x10#8 ++ b) :: rest →
    ∃ t, step s = .next t ∧ t.btState = .idle ∧ t.mode = .detector ∧ t.rxLen = s.rxLen + 1 ∧ t.read? .rxbuf s.rxLen = some b ∧
      t.pkt = s.pkt)

/-- R272, R287: Complete is seen only until the next step: whatever the host does next, the engine is then in Idle, or in
WaitHeader after a BT_START. -/
def Obligations.CompleteLastsOneStep : Prop :=
  ∀ (s t : State) (x : HostInput) (rest : List HostInput), s.btState = .complete → s.inputs = x :: rest → step s = .next t →
    t.btState = .idle ∨ (t.btState = .waitHeader ∧ ∃ b : Byte, x = .op (0x30#8 ++ b))

/-- R271: the reset state, and the reset input puts the engine in it at once. The configuration stays (R274). The pending
inputs and the draw counter are the model's own. -/
def Obligations.ResetGivesTheResetState : Prop :=
  let isReset (t : State) : Prop :=
    t.ckAcc = 0x00 ∧ t.txLen = 0 ∧ t.rxLen = 0 ∧ t.rxClass = .incomplete ∧ t.frameLen = 0 ∧ t.frameValid = false ∧
    t.frameKind = .response ∧ t.overrun = false ∧ t.frameErr = .none ∧ t.pending = 0 ∧ t.mode = .detector ∧ t.btState = .idle ∧
    t.pktLen = 0 ∧ t.expectedBlk = 0x00 ∧ t.retries = 0 ∧ t.idleTicks = 0 ∧ t.remaining = 0 ∧ t.writeOffset = 0 ∧
    t.stagingOpen = false ∧ t.nameLen = 0 ∧ t.btStatus = .none ∧ t.c16Acc = 0x0000 ∧ t.opErr = .none ∧
    ∀ a i, t.read? a i = none
  isReset State.reset ∧
  ∀ (s : State) (rest : List HostInput), s.cfg.valid = true → s.inputs = .reset :: rest →
    ∃ t, step s = .next t ∧ isReset t ∧ t.events = [] ∧ t.cfg = s.cfg ∧ t.inputs = rest

/-- R260: between operations the engine holds its state. (A step without an input is the model's: notes/assumptions/4.md.) -/
def Obligations.EngineHoldsItsStateBetweenOperations : Prop :=
  ∀ s : State, s.cfg.valid = true → s.inputs = [] → step s = .next { s with events := [] }

/-- R34: the capacities are at most 131071 and `T_TIMEOUT` is at most 2^32 - 1; a configuration outside is refused. -/
def Obligations.ConfigurationOutOfBoundsIsRefused : Prop :=
  rxbufCap ≤ 131071 ∧
  ∀ s : State, (131071 < s.cfg.txbufCap ∨ 2 ^ 32 - 1 < s.cfg.tTimeout) → step s = .refused .badConfiguration

/-- R274: the engine runs only under a configuration within the bounds, and no step changes it. -/
def Obligations.ConfigurationIsFixed : Prop :=
  ∀ s t : State, step s = .next t → s.cfg.valid = true ∧ t.cfg = s.cfg

/-! ### Invariants and whole-machine rules -/

/-- 10_state.md section 8: the reset state of every configuration meets the invariants, and so does `State.reset`. -/
def Obligations.ResetStateMeetsTheInvariants : Prop :=
  (∀ c : Config, c.valid = true → (State.resetWith c).Inv) ∧ State.reset.Inv

/-- 10_state.md section 8: every step keeps the invariants (a) to (g), the legal values of every field, and the canonical form
of every memory, from every state that meets them. -/
def Obligations.EveryStepKeepsTheInvariants : Prop :=
  ∀ s t : State, s.Inv → step s = .next t → t.Inv

/-- 92 D39, 93 I9: from a state that meets the invariants a step always completes, but for one fault: a data block of a file of
undeclared size that would carry `write_offset` past 2^63 - 1. -/
def Obligations.StepStopsOnlyAtTheFileSizeLimit : Prop :=
  ∀ s : State, s.Inv →
    (∃ t, step s = .next t) ∨
    (step s = .fault .writeOffsetOverflow ∧ s.btState = .receivingData ∧ s.remaining = -1 ∧
      2 ^ 63 - 1 < s.writeOffset.toNat + 1024 ∧ ∃ (b : Byte) (rest : List HostInput), s.inputs = .op (encode (.rxByte b)) :: rest)

/-- 60_exceptions.md section 3: what the staging port sees. In every step but a reset, the events fit the protocol of the port
(one STG_OPEN; contiguous STG_WRITEs from offset 0, never past the declared size; then STG_CLOSE and FINALIZE, or STG_DISCARD),
and they leave the port where the engine's own fields say it is. A file may be closed or discarded below its declared size (R214,
D27, R217). -/
def Obligations.StagingPortSeesFilesInProtocolOrder : Prop :=
  ∀ s t : State, s.Inv → (∀ rest, s.inputs ≠ .reset :: rest) → step s = .next t →
    s.stagingView.seeAll t.events = some t.stagingView

/-- 10_state.md section 2: no operation and no read port looks at a byte at or above a length: two states that agree on every
field and on every byte below a length give results that agree in the same way. -/
def Obligations.UnspecifiedBytesAreNeverObserved : Prop :=
  ∀ s t : State, s.Agree t →
    (∀ i : Instr, ResultAgree (exec i s) (exec i t)) ∧
    (∀ (p : BytePort) (k : Nat), t.readPort p k = s.readPort p k) ∧ (∀ p : StatusPort, t.status p = s.status p)

/-- R30, R150: the mode flag is set only by BT_START and cleared, outside the pre-step, only by a step of the engine that
reaches Idle. -/
def Obligations.ModeChangesOnlyAtStartAndIdle : Prop :=
  ∀ (i : Instr) (s t : State), exec i s = .next t → t.mode ≠ s.mode →
    (i = .btStart ∧ t.mode = .engine ∧ t.btState = .waitHeader) ∨
    ((i = .tick ∨ ∃ b, i = .rxByte b) ∧ t.mode = .detector ∧ t.btState = .idle)

/-- R243, R151, R31: the units do not touch each other's state. An operation of the checksum units leaves the detector and
the engine alone, one of the detector leaves the checksum units and the engine alone, and one of the engine leaves the
checksum units and the detector alone; a received byte touches only the unit that the mode flag names. -/
def Obligations.UnitsLeaveEachOtherAlone : Prop :=
  ∀ (s t : State) (b : Byte),
    (∀ i ∈ [Instr.nop, .ckClr, .ckAcc b, .c16Clr, .c16Acc b, .txClr, .txByte b, .txSeal], exec i s = .next t →
      s.SameDetector t ∧ s.SameEngine t ∧ t.events = s.events) ∧
    (∀ i ∈ [Instr.rxEob, .rxClassify, .rxClr, .frameTake], exec i s = .next t → s.SameChecksumUnits t ∧ s.SameEngine t) ∧
    (∀ i ∈ [Instr.btStart, .tick], exec i s = .next t → s.SameChecksumUnits t ∧ s.SameDetector t) ∧
    (exec (.rxByte b) s = .next t → s.mode = .detector → s.SameChecksumUnits t ∧ s.SameEngine t) ∧
    (exec (.rxByte b) s = .next t → s.mode = .engine → s.SameChecksumUnits t ∧ s.SameDetector t)

/-- R31: each accumulator is written only by its own two operations, and the engine does not use `c16_acc`: whatever it holds,
a received byte, a BT_START or a TICK does the same. Both are readable at ST_CK. -/
def Obligations.AccumulatorsAreIndependent : Prop :=
  (∀ (i : Instr) (s t : State), exec i s = .next t →
    (t.ckAcc ≠ s.ckAcc → i = .ckClr ∨ ∃ b, i = .ckAcc b) ∧ (t.c16Acc ≠ s.c16Acc → i = .c16Clr ∨ ∃ b, i = .c16Acc b)) ∧
  (∀ (i : Instr) (s : State) (x : Word), (i = .btStart ∨ i = .tick ∨ ∃ b, i = .rxByte b) →
    exec i { s with c16Acc := x } = mapNext (fun t => { t with c16Acc := x }) (exec i s)) ∧
  ∀ s : State, (s.status .stCk).toNat = s.ckAcc.toNat + 2 ^ 8 * s.c16Acc.toNat

/-- R242: an operation error sets `op_err` and has no other effect; these are its causes, and each cause raises it. -/
def Obligations.OperationErrorsHaveNoOtherEffect : Prop :=
  (∀ (i : Instr) (s t : State), s.opErr = .none → exec i s = .next t → t.opErr ≠ .none →
    t = { s with opErr := t.opErr } ∧
    ((i = .txSeal ∧ s.txLen < 6 ∧ t.opErr = .txUndersized) ∨ ((∃ b, i = .txByte b) ∧ s.txLen = s.cfg.txbufCap ∧ t.opErr = .txOverflow) ∨
      (i = .btStart ∧ s.btState ≠ .idle ∧ t.opErr = .btBusy) ∨ (i = .frameTake ∧ s.frameValid = false ∧ t.opErr = .noFrame))) ∧
  (∀ s : State, s.txLen < 6 → exec .txSeal s = .next { s with opErr := .txUndersized }) ∧
  (∀ (s : State) (b : Byte), s.txLen = s.cfg.txbufCap → exec (.txByte b) s = .next { s with opErr := .txOverflow }) ∧
  (∀ s : State, s.btState ≠ .idle → exec .btStart s = .next { s with opErr := .btBusy }) ∧
  (∀ s : State, s.frameValid = false → exec .frameTake s = .next { s with opErr := .noFrame }) ∧
  (∀ (s : State) (w : Word) (rest : List HostInput) (e : DecodeReject), s.cfg.valid = true → s.inputs = .op w :: rest →
    decode w = .error e → step s = .next { ({ s with inputs := rest } : State).beginStep with opErr := .illegalOp })

/-- 60_exceptions.md sections 2 and 3: every event comes from an operation that R245 names for its kind, in the mode that routes
to its unit; no operation both latches a frame and ends a transfer; and a step that takes no operation word, or an illegal one,
emits nothing. -/
def Obligations.EventsComeFromTheUnitThatRan : Prop :=
  (∀ (i : Instr) (s t : State), s.events = [] → exec i s = .next t →
    (∀ e ∈ t.events, e.EmittedBy i s.mode) ∧ ¬((∃ k, Event.frame k ∈ t.events) ∧ ∃ st, Event.btEnd st ∈ t.events)) ∧
  (∀ s t : State, step s = .next t → t.events ≠ [] → ∃ w rest i, s.inputs = .op w :: rest ∧ decode w = .ok i)

/-- R33: what the status ports show, bit by bit; a bit that is not listed reads 0. A byte port returns the byte below the
length, and a free draw at or above it. -/
def Obligations.PortsShowTheState : Prop :=
  ∀ s : State,
    (s.status .stOp).toNat = s.opErr.code.toNat ∧
    (s.status .stCk).toNat = s.ckAcc.toNat + 2 ^ 8 * s.c16Acc.toNat ∧
    (s.status .stRx).toNat = s.rxClass.code.toNat + 2 ^ 2 * s.frameValid.toNat + 2 ^ 3 * s.frameKind.code.toNat +
      2 ^ 4 * s.overrun.toNat + 2 ^ 5 * s.mode.code.toNat + 2 ^ 8 * s.frameErr.code.toNat + 2 ^ 12 * s.pending.toNat ∧
    (s.rxLen ≤ rxbufCap → (s.status .stRxLen).toNat = s.rxLen) ∧ (s.frameLen ≤ rxbufCap → (s.status .stFrameLen).toNat = s.frameLen) ∧
    (s.txLen ≤ 131071 → (s.status .stTxLen).toNat = s.txLen) ∧
    (s.status .stBt).toNat = s.btState.code.toNat + 2 ^ 3 * s.stagingOpen.toNat + 2 ^ 4 * s.btStatus.code.toNat +
      2 ^ 8 * s.expectedBlk.toNat + 2 ^ 16 * s.retries.toNat ∧
    (s.pktLen ≤ 1029 → (s.status .stPkt).toNat = s.pktLen) ∧ (s.status .stIdle).toNat = s.idleTicks.toNat ∧
    (s.status .stRem).toInt = s.remaining.toInt ∧ (s.status .stOff).toNat = s.writeOffset.toNat ∧
    (s.nameLen ≤ 1023 → (s.status .stNameLen).toNat = s.nameLen) ∧
    ∀ (p : BytePort) (i : Nat),
      (∀ b, i < s.len p.array → s.read? p.array i = some b → s.readPort p i = b) ∧
      (s.len p.array ≤ i → s.readPort p i = Config.freeByte s.draws p.array i)

/-! ### The XOR checksum unit and the transmit buffer -/

/-- R120: the XOR fold; it does not depend on the order of the bytes, and a byte that occurs twice cancels out. -/
def Obligations.XorFoldIgnoresOrderAndCancelsPairs : Prop :=
  xor8 [] = 0x00 ∧ (∀ (f : List Byte) (b : Byte), xor8 (f ++ [b]) = xor8 f ^^^ b) ∧
  (∀ f g : List Byte, f.Perm g → xor8 f = xor8 g) ∧
  (∀ (f g h : List Byte) (b : Byte), xor8 (f ++ [b] ++ g ++ [b] ++ h) = xor8 (f ++ g ++ h))

/-- 40_checksum.md section 1: a frame's checksum is correct exactly when the XOR of all its bytes is zero. -/
def Obligations.ChecksumIsRightIffFoldIsZero : Prop :=
  ∀ (f : List Byte) (c : Byte), (c = xor8 f ↔ xor8 (f ++ [c]) = 0x00) ∧ trailer (f ++ [c]) = c ∧ body (f ++ [c]) = f

/-- R122: NOP has no effect of its own; the pre-step still runs, so in Complete it moves the engine to Idle. -/
def Obligations.NopLeavesOnlyThePreStep : Prop :=
  Encodes 0x00 (fun _ => .nop) ∧ (∀ s : State, exec .nop s = .next s) ∧
  (∀ (s : State) (b : Byte) (rest : List HostInput), s.cfg.valid = true → s.inputs = .op (0x00#8 ++ b) :: rest →
    ∃ t, step s = .next t ∧ t.ckAcc = s.ckAcc ∧ t.opErr = .none ∧ t.events = [] ∧
      (s.btState = .complete → t.btState = .idle ∧ t.mode = .detector) ∧ (s.btState ≠ .complete → t.btState = s.btState ∧ t.mode = s.mode))

/-- R123, R124: CK_CLR clears the accumulator and CK_ACC folds a byte into it, and nothing else changes; after CK_CLR and
CK_ACC over a byte sequence it holds the sequence's fold. -/
def Obligations.XorAccumulatorFoldsBytes : Prop :=
  Encodes 0x01 (fun _ => .ckClr) ∧ Encodes 0x02 .ckAcc ∧ (∀ s : State, exec .ckClr s = .next { s with ckAcc := 0x00 }) ∧
  (∀ (s : State) (b : Byte), exec (.ckAcc b) s = .next { s with ckAcc := s.ckAcc ^^^ b }) ∧
  (∀ (s : State) (f : List Byte), s.cfg.valid = true →
    ∃ t, issueAll (.ckClr :: Asm.ckBytes f) s = .next t ∧ t.ckAcc = xor8 f ∧ t.opErr = .none ∧ s.SameDetector t ∧
      t.txLen = s.txLen ∧ s.SameMemory t)

/-- R125, R126: TX_CLR empties the buffer and keeps its bytes; TX_BYTE appends its byte, or raises TX_OVERFLOW at a full
buffer with nothing written. -/
def Obligations.TransmitBufferClearsAndAppends : Prop :=
  Encodes 0x20 (fun _ => .txClr) ∧ Encodes 0x21 .txByte ∧ (∀ s : State, exec .txClr s = .next { s with txLen := 0 }) ∧
  (∀ (s : State) (b : Byte), s.txLen = s.cfg.txbufCap → exec (.txByte b) s = .next { s with opErr := .txOverflow }) ∧
  (∀ (s : State) (b : Byte), s.txLen < s.cfg.txbufCap →
    ∃ t, exec (.txByte b) s = .next t ∧ t.regs = { s.regs with txLen := s.txLen + 1 } ∧ s.StoredOnly t .txbuf s.txLen [b])

/-- R127: TX_SEAL writes the checksum of all bytes but the last into the last byte, and changes nothing else; the old last
byte does not enter it; sealing twice is sealing once; below 6 bytes it raises TX_UNDERSIZED. Then the property of R128. -/
def Obligations.SealWritesTheChecksum : Prop :=
  Encodes 0x22 (fun _ => .txSeal) ∧
  (∀ s : State, s.txLen < 6 → exec .txSeal s = .next { s with opErr := .txUndersized }) ∧
  (∀ s : State, 6 ≤ s.txLen → s.txLen ≤ s.cfg.txbufCap →
    ∃ t, exec .txSeal s = .next t ∧ t.regs = s.regs ∧
      s.StoredOnly t .txbuf (s.txLen - 1) [xor8 (s.bytes .txbuf 0 (s.txLen - 1))] ∧
      xor8 (t.bytes .txbuf 0 (t.txLen - 1)) = t.rd .txbuf (t.txLen - 1) ∧
      ∃ u, exec .txSeal t = .next u ∧ u.regs = t.regs ∧ t.SameMemory u)

/-- R87, R94: the operations of TX_FRAME leave the sealed command frame in the transmit buffer. -/
def Obligations.TxFrameBuildsTheCommandFrame : Prop :=
  ∀ (s : State) (ct : Byte) (code : Word) (payload : List Byte), s.cfg.valid = true → payload.length < 65536 →
    6 + payload.length ≤ s.cfg.txbufCap →
    ∃ t, issueAll (Asm.txFrame ct code payload) s = .next t ∧ t.txLen = 6 + payload.length ∧
      t.bytes .txbuf 0 t.txLen = commandFrame ct code payload ∧ t.opErr = .none ∧ t.events = []

/-! ### The frame detector -/

/-- R155: classify, case by case. The declared total is counted on integers from the two length bytes, the first the more
significant (R60). -/
def Obligations.ClassifyFollowsTheLengthFields : Prop :=
  classify [] = .incomplete ∧
  (∀ f : List Byte,
    ((0x20#8 :: f).length < 5 → classify (0x20#8 :: f) = .incomplete) ∧ ((0x20#8 :: f).length = 5 → classify (0x20#8 :: f) = .notification) ∧
    (5 < (0x20#8 :: f).length → classify (0x20#8 :: f) = .malformed)) ∧
  (∀ f : List Byte, f.length < 6 → f.head? ≠ some 0x20#8 → classify f = .incomplete) ∧
  (∀ (b0 b1 b2 b3 b4 b5 : Byte) (f : List Byte), b0 ≠ 0x20#8 →
    let buf := b0 :: b1 :: b2 :: b3 :: b4 :: b5 :: f
    let total := 7 + (256 * b4.toNat + b5.toNat)
    (buf.length < total → classify buf = .incomplete) ∧ (buf.length = total → classify buf = .response) ∧
    (total < buf.length → classify buf = .malformed))

/-- R156: validate_response reports the first violation in the order return code, type, command code, checksum. -/
def Obligations.ResponseViolationsInPriorityOrder : Prop :=
  ∀ (c : Config) (rc ct hi lo len1 len0 : Byte) (rest : List Byte) (crc : Byte),
    let f := rc :: ct :: hi :: lo :: len1 :: len0 :: rest ++ [crc]
    let code : Word := BitVec.ofNat 16 (256 * hi.toNat + lo.toNat)
    (rc ∉ c.rcSet → validateResponse c f = .badReturnCode) ∧
    (rc ∈ c.rcSet → ct ∉ [0x01#8, c.ctLorawan, c.ctSidewalk] → validateResponse c f = .badCommandType) ∧
    (rc ∈ c.rcSet → ct ∈ [0x01#8, c.ctLorawan, c.ctSidewalk] → (ct, code) ∉ c.catalogue → validateResponse c f = .badCommandCode) ∧
    (rc ∈ c.rcSet → ct ∈ [0x01#8, c.ctLorawan, c.ctSidewalk] → (ct, code) ∈ c.catalogue →
      crc ≠ xor8 (rc :: ct :: hi :: lo :: len1 :: len0 :: rest) → validateResponse c f = .badCrc) ∧
    (rc ∈ c.rcSet → ct ∈ [0x01#8, c.ctLorawan, c.ctSidewalk] → (ct, code) ∈ c.catalogue →
      crc = xor8 (rc :: ct :: hi :: lo :: len1 :: len0 :: rest) → validateResponse c f = .none)

/-- R157: validate_notification reports the first violation in the order length, count, checksum. -/
def Obligations.NotificationViolationsInPriorityOrder : Prop :=
  ∀ rc hi lo count crc : Byte,
    let f := [rc, hi, lo, count, crc]
    (¬(hi = 0 ∧ lo = 1) → validateNotification f = .badNotifyLen) ∧
    (hi = 0 → lo = 1 → 10 < count.toNat → validateNotification f = .badPendingCount) ∧
    (hi = 0 → lo = 1 → count.toNat ≤ 10 → crc ≠ xor8 [rc, hi, lo, count] → validateNotification f = .badCrc) ∧
    (hi = 0 → lo = 1 → count.toNat ≤ 10 → crc = xor8 [rc, hi, lo, count] → validateNotification f = .none)

/-- 30_encoding.md section 2, 41_frame_detector.md section 2: no proper part of a frame from its start is taken for a frame,
the whole frame is recognised, and a frame with anything after it is malformed. -/
def Obligations.FrameBoundariesAreFoundExactly : Prop :=
  (∀ (rc ct : Byte) (code : Word) (payload : List Byte), rc ≠ 0x20#8 → payload.length < 65536 →
    let f := responseFrame rc ct code payload
    f.length = 7 + payload.length ∧ (∀ k < f.length, classify (f.take k) = .incomplete) ∧ classify f = .response ∧
    ∀ x ≠ [], classify (f ++ x) = .malformed) ∧
  (∀ count : Byte,
    let f := notificationFrame count
    f.length = 5 ∧ (∀ k < 5, classify (f.take k) = .incomplete) ∧ classify f = .notification ∧ ∀ x ≠ [], classify (f ++ x) = .malformed)

/-- R153, and the detector's part of R151: a byte that arrives in detector mode is appended and nothing else changes; at a
full buffer the buffer and the byte are dropped and RX_OVERFLOW is reported. A frame of any declared length fits. -/
def Obligations.DetectorByteIsAppendedOrOverflows : Prop :=
  (∀ (s : State) (b : Byte), s.mode = .detector → s.rxLen < 65542 →
    ∃ t, exec (.rxByte b) s = .next t ∧ t.regs = { s.regs with rxLen := s.rxLen + 1 } ∧ s.StoredOnly t .rxbuf s.rxLen [b]) ∧
  (∀ (s : State) (b : Byte), s.mode = .detector → s.rxLen = 65542 →
    exec (.rxByte b) s =
      .next { s with frameErr := .rxOverflow, rxClass := .malformed, rxLen := 0, events := s.events ++ [.frameErr .rxOverflow] }) ∧
  (∀ len : Word, 7 + len.toNat ≤ rxbufCap)

/-- R158, R159, R160: RX_EOB keeps an incomplete buffer, discards a malformed or invalid one with its error, and latches a valid
frame: the bytes are copied, `overrun` is set when the previous frame was not taken, and the events follow. -/
def Obligations.EndOfBatchKeepsLatchesOrDiscards : Prop :=
  Encodes 0x11 (fun _ => .rxEob) ∧
  ∀ s : State, s.rxLen ≤ 65542 →
    let f := s.bytes .rxbuf 0 s.rxLen
    let discarded (c : RxClass) (e : FrameErr) : State :=
      { s with rxClass := c, frameErr := e, rxLen := 0, events := s.events ++ [.frameErr e] }
    let latched (c : RxClass) (k : FrameKind) : State :=
      { s.regs with rxClass := c, overrun := s.overrun || s.frameValid, frameLen := s.rxLen, frameKind := k, frameValid := true,
                    frameErr := .none, rxLen := 0, events := s.events ++ [.frame k] }
    (classify f = .incomplete → exec .rxEob s = .next { s with rxClass := .incomplete }) ∧
    (classify f = .malformed → exec .rxEob s = .next (discarded .malformed .malformed)) ∧
    (classify f = .notification → validateNotification f ≠ .none →
      exec .rxEob s = .next (discarded .notification (validateNotification f))) ∧
    (classify f = .response → validateResponse s.cfg f ≠ .none →
      exec .rxEob s = .next (discarded .response (validateResponse s.cfg f))) ∧
    (classify f = .notification → validateNotification f = .none →
      ∃ t, exec .rxEob s = .next t ∧ s.StoredOnly t .frame 0 f ∧
        t.regs = { latched .notification .notification with
          pending := byteAt f 3, events := s.events ++ [.frame .notification, .notify (byteAt f 3)] }) ∧
    (classify f = .response → validateResponse s.cfg f = .none →
      ∃ t, exec .rxEob s = .next t ∧ s.StoredOnly t .frame 0 f ∧ t.regs = latched .response .response)

/-- 41_frame_detector.md section 3: a buffer is latched as a response exactly when it has a response's length, its return code,
type and command code are in the enumerations, and its last byte is the fold of the others. -/
def Obligations.ResponseIsLatchedExactlyWhenValid : Prop :=
  ∀ s : State, s.rxLen ≤ 65542 → s.frameValid = false →
    let f := s.bytes .rxbuf 0 s.rxLen
    ∃ t, exec .rxEob s = .next t ∧
      ((t.frameValid = true ∧ t.frameKind = .response) ↔
        (classify f = .response ∧ byteAt f 0 ∈ s.cfg.rcSet ∧ (byteAt f 1 = 0x01 ∨ byteAt f 1 = s.cfg.ctLorawan ∨ byteAt f 1 = s.cfg.ctSidewalk) ∧
          (byteAt f 1, u16At f 2) ∈ s.cfg.catalogue ∧ byteAt f (s.rxLen - 1) = xor8 (f.take (s.rxLen - 1))))

/-- 41_frame_detector.md section 3: a received notification frame with a count of at most 10 is latched and delivered by
`pending` and NOTIFY in the step that ends the batch; one with a greater count is discarded, and `pending` stays. -/
def Obligations.NotificationsAreDelivered : Prop :=
  ∀ (s : State) (count : Byte), s.cfg.valid = true → s.mode = .detector → s.rxLen = 0 →
    ∃ t, issueAll (Asm.rxBatch (notificationFrame count)) s = .next t ∧ t.rxClass = .notification ∧ t.rxLen = 0 ∧ t.opErr = .none ∧
      (count.toNat ≤ 10 → t.pending = count ∧ t.frameValid = true ∧ t.frameKind = .notification ∧
        t.bytes .frame 0 t.frameLen = notificationFrame count ∧ t.events = [.frame .notification, .notify count]) ∧
      (10 < count.toNat → t.pending = s.pending ∧ t.frameValid = s.frameValid ∧ t.frame = s.frame ∧
        t.frameErr = .badPendingCount ∧ t.events = [.frameErr .badPendingCount])

/-- 41_frame_detector.md sections 1 and 3: a valid response frame may arrive in two batches, cut anywhere: the first RX_EOB
keeps the fragment, the second latches the whole frame. -/
def Obligations.FragmentedResponsesAreReassembled : Prop :=
  ∀ (s : State) (rc ct : Byte) (code : Word) (payload : List Byte) (k : Nat),
    s.cfg.valid = true → s.mode = .detector → s.rxLen = 0 → payload.length < 65536 →
    rc ≠ 0x20#8 → rc ∈ s.cfg.rcSet → ct ∈ [0x01#8, s.cfg.ctLorawan, s.cfg.ctSidewalk] → (ct, code) ∈ s.cfg.catalogue →
    k < 7 + payload.length →
    let f := responseFrame rc ct code payload
    ∃ u t, issueAll (Asm.rxBatch (f.take k)) s = .next u ∧ u.rxClass = .incomplete ∧ u.rxLen = k ∧ u.frameValid = s.frameValid ∧
      issueAll (Asm.rxBatch (f.drop k)) u = .next t ∧ t.rxClass = .response ∧ t.frameValid = true ∧ t.frameKind = .response ∧
      t.bytes .frame 0 t.frameLen = f ∧ t.rxLen = 0 ∧ t.frameErr = .none ∧ t.events = [.frame .response]

/-- R170, R171, R172: RX_CLASSIFY writes only `rx_class`, and twice is once; RX_CLR empties the buffer; FRAME_TAKE clears the
latch's flags, or raises NO_FRAME. -/
def Obligations.DetectorHostOperations : Prop :=
  Encodes 0x12 (fun _ => .rxClassify) ∧ Encodes 0x13 (fun _ => .rxClr) ∧ Encodes 0x14 (fun _ => .frameTake) ∧
  (∀ s : State, s.rxLen ≤ 65542 →
    exec .rxClassify s = .next { s with rxClass := classify (s.bytes .rxbuf 0 s.rxLen) } ∧
    exec .rxClassify { s with rxClass := classify (s.bytes .rxbuf 0 s.rxLen) } =
      .next { s with rxClass := classify (s.bytes .rxbuf 0 s.rxLen) }) ∧
  (∀ s : State, exec .rxClr s = .next { s with rxLen := 0, rxClass := .incomplete }) ∧
  (∀ s : State, s.frameValid = true → exec .frameTake s = .next { s with frameValid := false, overrun := false }) ∧
  (∀ s : State, s.frameValid = false → exec .frameTake s = .next { s with opErr := .noFrame })

/-! ### The CRC-16 unit -/

/-- R190: the CRC, bit 15 tested before each shift, initial value 0, no final XOR; with the rule's check value. -/
def Obligations.CrcIsTheCcittRecurrence : Prop :=
  crc16 [] = 0x0000 ∧
  (∀ (f : List Byte) (b : Byte), crc16 (f ++ [b]) =
    (fun c : Word => if c.getLsbD 15 then (c <<< 1) ^^^ 0x1021 else c <<< 1)^[8] (crc16 f ^^^ (b.setWidth 16 <<< 8))) ∧
  crc16 [0x31, 0x32, 0x33, 0x34, 0x35, 0x36, 0x37, 0x38, 0x39] = 0x31C3

/-- 42_block_transfer.md section 1: a CRC appended to its data, high byte first, gives a zero remainder. -/
def Obligations.AppendedCrcLeavesZero : Prop :=
  ∀ d : List Byte, crc16 (d ++ [hiByte (crc16 d), loByte (crc16 d)]) = 0x0000

/-- R191, R192: C16_CLR clears the accumulator and C16_ACC folds a byte into it, and nothing else changes; the CRC of zero
bytes is 0; after C16_CLR and C16_ACC over a byte sequence the accumulator holds its CRC. -/
def Obligations.CrcAccumulatorFoldsBytes : Prop :=
  Encodes 0x08 (fun _ => .c16Clr) ∧ Encodes 0x09 .c16Acc ∧ (∀ s : State, exec .c16Clr s = .next { s with c16Acc := 0x0000 }) ∧
  (∀ (s : State) (b : Byte), exec (.c16Acc b) s = .next { s with c16Acc := crc16Step s.c16Acc b }) ∧
  (∀ n : Nat, crc16 (List.replicate n 0x00) = 0x0000) ∧
  (∀ (s : State) (f : List Byte), s.cfg.valid = true →
    ∃ t, issueAll (.c16Clr :: Asm.c16Bytes f) s = .next t ∧ t.c16Acc = crc16 f ∧ t.ckAcc = s.ckAcc ∧ t.opErr = .none ∧
      t.stagingView = s.stagingView ∧ s.SameMemory t)

/-! ### The block-transfer engine -/

/-- R195: BT_START starts a transfer from Idle and raises BT_BUSY elsewhere; right after Complete it succeeds. -/
def Obligations.StartActivatesTheEngine : Prop :=
  Encodes 0x30 (fun _ => .btStart) ∧
  (∀ s : State, s.btState = .idle →
    exec .btStart s =
      .next { s with mode := .engine, btState := .waitHeader, expectedBlk := 0x00, retries := 0, idleTicks := 0, pktLen := 0,
                     writeOffset := 0, nameLen := 0, btStatus := .active,
                     events := s.events ++ (if s.cfg.solicitOnStart then [.serTx 0x43] else []) }) ∧
  (∀ s : State, s.btState ≠ .idle → exec .btStart s = .next { s with opErr := .btBusy }) ∧
  (∀ (s : State) (b : Byte) (rest : List HostInput), s.cfg.valid = true → s.btState = .complete → s.inputs = .op (0x30#8 ++ b) :: rest →
    ∃ t, step s = .next t ∧ t.btState = .waitHeader ∧ t.mode = .engine ∧ t.opErr = .none ∧ t.btStatus = .active ∧
      t.remaining = s.remaining ∧ t.events = (if s.cfg.solicitOnStart then [.serTx 0x43] else []))

/-- R215, R217: TICK does nothing in Idle, counts below the window, and aborts when the window is reached: an open destination
is discarded, the engine goes to Idle, and what the last transfer wrote stays readable. Right after Complete it does nothing:
the pre-step has moved the engine to Idle. -/
def Obligations.TickCountsAndTimesOut : Prop :=
  Encodes 0x31 (fun _ => .tick) ∧
  (∀ s : State, s.btState = .idle → exec .tick s = .next s) ∧
  (∀ s : State, s.btState ≠ .idle → s.idleTicks.toNat + 1 < s.cfg.tTimeout →
    exec .tick s = .next { s with idleTicks := s.idleTicks + 1 }) ∧
  (∀ s : State, s.btState ≠ .idle → s.cfg.tTimeout ≤ s.idleTicks.toNat + 1 →
    exec .tick s =
      .next { s with btState := .idle, mode := .detector, pktLen := 0, idleTicks := 0, retries := 0, stagingOpen := false,
                     btStatus := .timeout,
                     events := s.events ++ ((if s.stagingOpen then [.stgDiscard] else []) ++ [.btEnd .timeout]) }) ∧
  (∀ (s : State) (b : Byte) (rest : List HostInput), s.cfg.valid = true → s.btState = .complete → s.inputs = .op (0x31#8 ++ b) :: rest →
    ∃ t, step s = .next t ∧ t.btState = .idle ∧ t.idleTicks = 0 ∧ t.events = [] ∧ t.btStatus = s.btStatus)

/-- R216: a transfer that receives no byte is aborted by exactly the TICK that completes the window of `T_TIMEOUT`
consecutive TICKs, from whatever count the window has reached; an open destination is released, and the frame detector's
state is not touched. -/
def Obligations.StalledTransferTimesOut : Prop :=
  ∀ s : State, s.Inv → s.btState ≠ .idle → s.btState ≠ .complete →
    (∀ k < s.cfg.tTimeout - s.idleTicks.toNat,
      ∃ t, issueAll (Asm.ticks k) s = .next t ∧ t.btState = s.btState ∧ t.idleTicks.toNat = s.idleTicks.toNat + k ∧
        t.stagingView = s.stagingView) ∧
    ∃ t, issueAll (Asm.ticks (s.cfg.tTimeout - s.idleTicks.toNat)) s = .next t ∧ t.btState = .idle ∧ t.mode = .detector ∧
      t.btStatus = .timeout ∧ t.stagingOpen = false ∧ t.pktLen = 0 ∧ s.SameDetector t ∧
      t.events = (if s.stagingOpen then [.stgDiscard] else []) ++ [.btEnd .timeout]

/-- R206: between packets, every byte but SOH, STX and (while data or EOT is awaited) EOT is ignored: only the idle count
changes. -/
def Obligations.StrayBytesAreIgnored : Prop :=
  (∀ (s : State) (b : Byte), s.mode = .engine → s.pktLen = 0 → s.btState = .waitHeader → b ≠ 0x01 → b ≠ 0x02 →
    exec (.rxByte b) s = .next { s with idleTicks := 0 }) ∧
  (∀ (s : State) (b : Byte), s.mode = .engine → s.pktLen = 0 → s.btState.stages → b ≠ 0x01 → b ≠ 0x02 → b ≠ 0x04 →
    exec (.rxByte b) s = .next { s with idleTicks := 0 })

/-- 42_block_transfer.md section 3: SOH or STX between packets begins a packet, and a byte in the middle of one is stored,
whatever its value, and only the idle count and the packet's length change. -/
def Obligations.PacketBytesAreCollected : Prop :=
  (∀ (s : State) (b : Byte), s.mode = .engine → s.pktLen = 0 → b = 0x01 ∨ b = 0x02 →
    ∃ t, exec (.rxByte b) s = .next t ∧ t.regs = { s.regs with idleTicks := 0, pktLen := 1 } ∧ s.StoredOnly t .pkt 0 [b]) ∧
  (∀ (s : State) (b start : Byte), s.mode = .engine → 0 < s.pktLen → s.read? .pkt 0 = some start →
    s.pktLen + 1 < (if start = 0x01 then 128 else 1024) + 5 →
    ∃ t, exec (.rxByte b) s = .next t ∧ t.regs = { s.regs with idleTicks := 0, pktLen := s.pktLen + 1 } ∧
      s.StoredOnly t .pkt s.pktLen [b])

/-- R214: EOT between packets, while data or EOT is awaited: ACK, close, finalize, and the outcome; the engine is in
Complete, which the next step's pre-step leaves. While the header is awaited EOT is ignored, and in the middle of a packet it is
packet data. -/
def Obligations.EotClosesAndFinalizes : Prop :=
  (∀ s : State, s.mode = .engine → s.pktLen = 0 → s.btState.stages →
    exec (.rxByte 0x04) s =
      .next { s with idleTicks := 0, stagingOpen := false, btState := .complete, retries := 0,
                     btStatus := if 0 < s.remaining.toInt then .doneShort else .doneOk,
                     events := s.events ++ [.serTx 0x06, .stgClose, .finalize,
                       .btEnd (if 0 < s.remaining.toInt then .doneShort else .doneOk)] }) ∧
  (∀ s : State, s.btState = .complete → s.beginStep.btState = .idle ∧ s.beginStep.mode = .detector) ∧
  (∀ s : State, s.mode = .engine → s.pktLen = 0 → s.btState = .waitHeader → exec (.rxByte 0x04) s = .next { s with idleTicks := 0 }) ∧
  (∀ (s : State) (start : Byte), s.mode = .engine → 0 < s.pktLen → s.read? .pkt 0 = some start →
    s.pktLen + 1 < (if start = 0x01 then 128 else 1024) + 5 →
    ∃ t, exec (.rxByte 0x04) s = .next t ∧ t.regs = { s.regs with idleTicks := 0, pktLen := s.pktLen + 1 } ∧
      s.StoredOnly t .pkt s.pktLen [0x04])

/-- R209, R210: an intact header packet. With a name, a NUL and after it a size of at most 2^63 - 1, or no digit at all, the name
and size are kept, the destination is opened, ACK and 'C' follow, and the engine awaits block 1, or EOT where the size is 0;
the digits end at the first byte that is none, and the rest is ignored. Without a NUL, or with a size that passes 2^63 - 1, it is
a bad packet. With an empty name it ends the session: ACK, and the engine goes to Idle; nothing is opened. -/
def Obligations.HeaderPacketIsReadAsDescribed : Prop :=
  ∀ (s : State) (b start : Byte) (n : Nat) (data : List Byte), StartsPacket start n → data.length = n →
    s.CompletesPacket b (packet start 0x00 data) → s.btState = .waitHeader →
    (∀ name digits rest : List Byte, data = name ++ 0x00 :: digits ++ rest → name ≠ [] → (∀ x ∈ name, x ≠ 0x00) →
      (∀ x ∈ digits, 0x30 ≤ x.toNat ∧ x.toNat ≤ 0x39) → (∀ x ∈ rest.head?, ¬(0x30 ≤ x.toNat ∧ x.toNat ≤ 0x39)) →
      decimalValue digits ≤ 2 ^ 63 - 1 →
      let size : BitVec 64 := if digits = [] then -1 else BitVec.ofNat 64 (decimalValue digits)
      ∃ t, exec (.rxByte b) s = .next t ∧
        t.regs = { s.regs with idleTicks := 0, pktLen := 0, nameLen := name.length, remaining := size, writeOffset := 0,
                               stagingOpen := true, expectedBlk := 0x01, retries := 0,
                               btState := if size = 0 then .waitEot else .receivingData,
                               events := s.events ++ [.stgOpen name size, .serTx 0x06, .serTx 0x43] } ∧
        ∀ x i, t.read? x i =
          if x = .pkt ∧ i = s.pktLen then some b
          else if x = .targetName ∧ i < name.length then name[i]? else s.read? x i) ∧
    (((∀ x ∈ data, x ≠ 0x00) ∨
        ∃ name digits rest : List Byte, data = name ++ 0x00 :: digits ++ rest ∧ name ≠ [] ∧ (∀ x ∈ name, x ≠ 0x00) ∧
          (∀ x ∈ digits, 0x30 ≤ x.toNat ∧ x.toNat ≤ 0x39) ∧ 2 ^ 63 - 1 < decimalValue digits) →
      ∃ t, exec (.rxByte b) s = .next t ∧ s.StoredOnly t .pkt s.pktLen [b] ∧ t.regs = s.afterBadPacket) ∧
    (data.head? = some 0x00#8 →
      ∃ t, exec (.rxByte b) s = .next t ∧ s.StoredOnly t .pkt s.pktLen [b] ∧
        t.regs = { s.regs with btState := .idle, mode := .detector, pktLen := 0, idleTicks := 0, retries := 0, btStatus := .endOfBatch,
                               events := s.events ++ [.serTx 0x06, .btEnd .endOfBatch] })

/-- R212, with the fault of D39: the expected data block is written, at most as far as the declared size goes, then
acknowledged; the block number and the offset advance, and WaitEot follows once nothing remains. Where the offset would pass
2^63 - 1 the model stops. -/
def Obligations.ExpectedBlockIsWrittenAndAcknowledged : Prop :=
  ∀ (s : State) (b start : Byte) (n : Nat) (data : List Byte), StartsPacket start n → data.length = n →
    s.CompletesPacket b (packet start s.expectedBlk data) → s.btState.stages →
    let wlen := if s.remaining.toInt < 0 then n else min n s.remaining.toInt.toNat
    let left : BitVec 64 := if s.remaining.toInt < 0 then s.remaining else s.remaining - BitVec.ofNat 64 wlen
    (wlen = 0 ∨ s.writeOffset.toNat + wlen ≤ 2 ^ 63 - 1 →
      ∃ t, exec (.rxByte b) s = .next t ∧ s.StoredOnly t .pkt s.pktLen [b] ∧
        t.regs = { s.regs with idleTicks := 0, pktLen := 0, writeOffset := s.writeOffset + BitVec.ofNat 64 wlen, remaining := left,
                               expectedBlk := s.expectedBlk + 1, retries := 0, btState := if left = 0 then .waitEot else s.btState,
                               events := s.events ++ ((if 0 < wlen then [.stgWrite s.writeOffset (data.take wlen)] else []) ++
                                 [.serTx 0x06]) }) ∧
    (0 < wlen → 2 ^ 63 - 1 < s.writeOffset.toNat + wlen → exec (.rxByte b) s = .fault .writeOffsetOverflow)

/-- R213: the previous block again is acknowledged and nothing else is done; this covers a resent header. -/
def Obligations.DuplicateBlockIsAcknowledged : Prop :=
  ∀ (s : State) (b start : Byte) (n : Nat) (data : List Byte), StartsPacket start n → data.length = n →
    s.CompletesPacket b (packet start (s.expectedBlk - 1) data) → s.btState.stages →
    ∃ t, exec (.rxByte b) s = .next t ∧ s.StoredOnly t .pkt s.pktLen [b] ∧
      t.regs = { s.regs with idleTicks := 0, pktLen := 0, retries := 0, events := s.events ++ [.serTx 0x06] }

/-- R207, R208, R211: a complete packet whose complement or CRC is wrong, or whose block number is not one of those the state
takes, is answered with one NAK and counted; once `MAX_RETRIES` NAKs have been sent it ends the transfer instead, with no NAK. -/
def Obligations.BadPacketIsRefusedOrEndsTheTransfer : Prop :=
  ∀ (s : State) (b : Byte) (p : List Byte), s.CompletesPacket b p → s.btState = .waitHeader ∨ s.btState.stages →
    let n := p.length - 5
    let blk := byteAt p 1
    (byteAt p 2 ≠ 0xFF ^^^ blk ∨ u16At p (3 + n) ≠ crc16 ((p.drop 3).take n) ∨ (s.btState = .waitHeader ∧ blk ≠ 0x00) ∨
      (s.btState.stages ∧ blk ≠ s.expectedBlk ∧ blk ≠ s.expectedBlk - 1)) →
    ∃ t, exec (.rxByte b) s = .next t ∧ s.StoredOnly t .pkt s.pktLen [b] ∧ t.regs = s.afterBadPacket

/-- 42_block_transfer.md section 3: the bytes of the expected data packet, sent one by one between packets, end in the write
of the block and its ACK, with the packet buffer empty again; no byte before the last has an answer. -/
def Obligations.DataPacketIsReceivedByteByByte : Prop :=
  ∀ (s : State) (start : Byte) (n : Nat) (data : List Byte), s.cfg.valid = true → StartsPacket start n → data.length = n →
    s.mode = .engine → s.btState.stages → s.pktLen = 0 →
    let wlen := if s.remaining.toInt < 0 then n else min n s.remaining.toInt.toNat
    s.writeOffset.toNat + wlen ≤ 2 ^ 63 - 1 →
    let p := packet start s.expectedBlk data
    (∀ k < p.length, ∃ u, issueAll (Asm.rxBytes (p.take k)) s = .next u ∧ u.pktLen = k ∧ u.btState = s.btState ∧
      (0 < k → u.events = [])) ∧
    ∃ t, issueAll (Asm.rxBytes p) s = .next t ∧ t.pktLen = 0 ∧ t.mode = .engine ∧ t.expectedBlk = s.expectedBlk + 1 ∧
      t.writeOffset = s.writeOffset + BitVec.ofNat 64 wlen ∧ t.opErr = .none ∧ t.retries = 0 ∧
      t.events = (if 0 < wlen then [.stgWrite s.writeOffset (data.take wlen)] else []) ++ [.serTx 0x06]
end

