-- ==== Sys2Proof/Laws/Config.lean ====
section
/-!
SUPPORT. Laws/Config.lean: what a valid configuration gives (00_scope.md R6, 10_state.md R34).
-/

namespace Sys2Proof

/-- The bounds a valid configuration meets. -/
theorem Config.bounds_of_valid {c : Config} (h : c.valid = true) :
    6 ≤ c.txbufCap ∧ c.txbufCap ≤ 131071 ∧ 1 ≤ c.tTimeout ∧ c.tTimeout ≤ 4294967295 := by
  simp only [Config.valid, Config.txbufCapInRange, Config.timeoutInRange, Bool.and_eq_true, decide_eq_true_eq] at h
  simp only [Machine.maxBufCap, Machine.maxTimeout, Machine.minTxbufCap] at h
  obtain ⟨⟨_, h1⟩, h2⟩ := h
  omega

end Sys2Proof
end

