-- ==== Sys2Proof/Laws/Memory.lean ====
section
/-!
SUPPORT. Laws/Memory.lean: the laws of the byte memories: a read after a write, and that every write keeps the canonical form.
-/

namespace Sys2Proof.Machine

@[simp] theorem Memory.read?_nil (i : Nat) : Memory.read? [] i = none := rfl

@[simp] theorem Memory.writeAll_nil (m : Memory) (i : Nat) : m.writeAll i [] = m := by
  cases m <;> rfl

theorem Memory.writeAll_cons (m : Memory) (i : Nat) (b : Byte) (bs : List Byte) :
    m.writeAll i (b :: bs) = (m.write i b).writeAll (i + 1) bs := by
  cases m <;> rfl

/-- A read below every listed index finds nothing. -/
theorem Memory.read?_below {m : Memory} {i : Nat} (h : ∀ p ∈ m, i < p.1) : m.read? i = none := by
  induction m with
  | nil => rfl
  | cons p m ih =>
    obtain ⟨a, c⟩ := p
    have hi : i < a := h (a, c) (by simp)
    simp only [Memory.read?, Nat.ne_of_lt hi, if_false]
    exact ih fun q hq => h q (by simp [hq])

/-- The indices after a write: those before, and the one written. -/
theorem Memory.mem_write {m : Memory} {i : Nat} {b : Byte} {p : Host.Cell} (h : p ∈ m.write i b) : p = (i, b) ∨ p ∈ m := by
  induction m with
  | nil => simpa [Memory.write] using h
  | cons q m ih =>
    obtain ⟨a, c⟩ := q
    simp only [Memory.write] at h
    split at h
    · simpa using h
    · split at h
      · rcases List.mem_cons.1 h with h | h
        · exact .inl h
        · exact .inr (by simp [h])
      · rcases List.mem_cons.1 h with h | h
        · exact .inr (by simp [h])
        · rcases ih h with h | h
          · exact .inl h
          · exact .inr (by simp [h])

/-- A write keeps the canonical form. -/
theorem Memory.wf_write {m : Memory} (h : m.wf) (i : Nat) (b : Byte) : (m.write i b).wf := by
  induction m with
  | nil => simp [Memory.write, Memory.wf]
  | cons q m ih =>
    obtain ⟨a, c⟩ := q
    have hm : Memory.wf m := by simpa [Memory.wf] using (List.pairwise_cons.1 h).2
    have ha : ∀ x ∈ m, a < x.1 := fun x hx => (List.pairwise_cons.1 h).1 x.1 (List.mem_map_of_mem hx)
    simp only [Memory.write]
    split
    · rename_i hlt
      simp only [Memory.wf, List.map_cons, List.pairwise_cons, List.mem_cons, List.mem_map] at h ⊢
      refine ⟨?_, h⟩
      rintro x (rfl | ⟨y, hy, rfl⟩)
      · exact hlt
      · exact Nat.lt_trans hlt (ha y hy)
    · split
      · subst i
        simpa [Memory.wf] using h
      · rename_i h1 h2
        simp only [Memory.wf, List.map_cons, List.pairwise_cons, List.mem_map]
        refine ⟨?_, ih hm⟩
        rintro x ⟨y, hy, rfl⟩
        rcases Memory.mem_write hy with rfl | hy
        · simp; omega
        · exact ha y hy

/-- A read after a write. -/
theorem Memory.read?_write (m : Memory) (i : Nat) (b : Byte) (j : Nat) :
    (m.write i b).read? j = if j = i then some b else m.read? j := by
  induction m with
  | nil => simp [Memory.write, Memory.read?]
  | cons q m ih =>
    obtain ⟨a, c⟩ := q
    simp only [Memory.write]
    split
    · simp [Memory.read?]
    · split
      · subst i
        by_cases hj : j = a <;> simp [Memory.read?, hj]
      · rename_i h1 h2
        by_cases hj : j = a
        · have hji : j ≠ i := by omega
          have hai : a ≠ i := by omega
          simp [Memory.read?, hj, hai]
        · simp [Memory.read?, hj, ih]

/-- Writing a sequence keeps the canonical form. -/
theorem Memory.wf_writeAll {m : Memory} (h : m.wf) (i : Nat) (bs : List Byte) : (m.writeAll i bs).wf := by
  induction bs generalizing m i with
  | nil => simpa using h
  | cons b bs ih => rw [Memory.writeAll_cons]; exact ih (Memory.wf_write h i b) (i + 1)

/-- A read after writing a sequence: the sequence where it was written, what was there elsewhere. -/
theorem Memory.read?_writeAll (m : Memory) (i : Nat) (bs : List Byte) (j : Nat) :
    (m.writeAll i bs).read? j = if i ≤ j ∧ j < i + bs.length then bs[j - i]? else m.read? j := by
  induction bs generalizing m i with
  | nil => simp
  | cons b bs ih =>
    rw [Memory.writeAll_cons, ih, Memory.read?_write]
    by_cases hj : j = i
    · subst j
      simp
    · by_cases h : i + 1 ≤ j ∧ j < i + 1 + bs.length
      · have h' : i ≤ j ∧ j < i + (b :: bs).length := by simp; omega
        rw [if_pos h, if_pos h', show j - i = (j - (i + 1)) + 1 by omega, List.getElem?_cons_succ]
      · have h' : ¬(i ≤ j ∧ j < i + (b :: bs).length) := by simp; omega
        rw [if_neg h, if_neg h', if_neg hj]

/-- Equal contents are equal data: two memories in canonical form that read the same everywhere are the same list. -/
theorem Memory.ext_of_wf {m n : Memory} (hm : m.wf) (hn : n.wf) (h : ∀ i, m.read? i = n.read? i) : m = n := by
  induction m generalizing n with
  | nil =>
    cases n with
    | nil => rfl
    | cons q n => have := h q.1; simp [Memory.read?] at this
  | cons p m ih =>
    cases n with
    | nil => have := h p.1; simp [Memory.read?] at this
    | cons q n =>
      obtain ⟨a, c⟩ := p
      obtain ⟨a', c'⟩ := q
      have ham : ∀ x ∈ m, a < x.1 := fun x hx => (List.pairwise_cons.1 hm).1 x.1 (List.mem_map_of_mem hx)
      have han : ∀ x ∈ n, a' < x.1 := fun x hx => (List.pairwise_cons.1 hn).1 x.1 (List.mem_map_of_mem hx)
      have haa : a = a' := by
        rcases Nat.lt_trichotomy a a' with hlt | heq | hlt
        · have := h a
          rw [Memory.read?_below (m := (a', c') :: n)] at this
          · simp [Memory.read?] at this
          · intro x hx
            rcases List.mem_cons.1 hx with rfl | hx
            · exact hlt
            · exact Nat.lt_trans hlt (han x hx)
        · exact heq
        · have := h a'
          rw [Memory.read?_below (m := (a, c) :: m)] at this
          · simp [Memory.read?] at this
          · intro x hx
            rcases List.mem_cons.1 hx with rfl | hx
            · exact hlt
            · exact Nat.lt_trans hlt (ham x hx)
      subst haa
      have hc : c = c' := by have := h a; simpa [Memory.read?] using this
      subst hc
      congr 1
      refine ih (List.pairwise_cons.1 hm).2 (List.pairwise_cons.1 hn).2 fun i => ?_
      by_cases hi : i = a
      · rw [hi, Memory.read?_below ham, Memory.read?_below han]
      · have := h i
        simpa [Memory.read?, hi] using this

end Sys2Proof.Machine
end

