-- ==== Sys2Proof/Laws/State.lean ====
section
/-!
SUPPORT. Laws/State.lean: one lemma per field for each named update of the state (emit, goIdle, openStep, beginStep), true by
rfl or by the one case distinction of the pre-step, so that no later proof unfolds a record update.
-/

namespace Sys2Proof.Machine

variable (s : State)

section emit
variable (es : List Event)
@[simp] theorem State.emit_ckAcc : (s.emit es).ckAcc = s.ckAcc := rfl
@[simp] theorem State.emit_txbuf : (s.emit es).txbuf = s.txbuf := rfl
@[simp] theorem State.emit_txLen : (s.emit es).txLen = s.txLen := rfl
@[simp] theorem State.emit_rxbuf : (s.emit es).rxbuf = s.rxbuf := rfl
@[simp] theorem State.emit_rxLen : (s.emit es).rxLen = s.rxLen := rfl
@[simp] theorem State.emit_rxClass : (s.emit es).rxClass = s.rxClass := rfl
@[simp] theorem State.emit_frame : (s.emit es).frame = s.frame := rfl
@[simp] theorem State.emit_frameLen : (s.emit es).frameLen = s.frameLen := rfl
@[simp] theorem State.emit_frameValid : (s.emit es).frameValid = s.frameValid := rfl
@[simp] theorem State.emit_frameKind : (s.emit es).frameKind = s.frameKind := rfl
@[simp] theorem State.emit_overrun : (s.emit es).overrun = s.overrun := rfl
@[simp] theorem State.emit_frameErr : (s.emit es).frameErr = s.frameErr := rfl
@[simp] theorem State.emit_pending : (s.emit es).pending = s.pending := rfl
@[simp] theorem State.emit_mode : (s.emit es).mode = s.mode := rfl
@[simp] theorem State.emit_btState : (s.emit es).btState = s.btState := rfl
@[simp] theorem State.emit_pkt : (s.emit es).pkt = s.pkt := rfl
@[simp] theorem State.emit_pktLen : (s.emit es).pktLen = s.pktLen := rfl
@[simp] theorem State.emit_expectedBlk : (s.emit es).expectedBlk = s.expectedBlk := rfl
@[simp] theorem State.emit_retries : (s.emit es).retries = s.retries := rfl
@[simp] theorem State.emit_idleTicks : (s.emit es).idleTicks = s.idleTicks := rfl
@[simp] theorem State.emit_remaining : (s.emit es).remaining = s.remaining := rfl
@[simp] theorem State.emit_writeOffset : (s.emit es).writeOffset = s.writeOffset := rfl
@[simp] theorem State.emit_stagingOpen : (s.emit es).stagingOpen = s.stagingOpen := rfl
@[simp] theorem State.emit_targetName : (s.emit es).targetName = s.targetName := rfl
@[simp] theorem State.emit_nameLen : (s.emit es).nameLen = s.nameLen := rfl
@[simp] theorem State.emit_btStatus : (s.emit es).btStatus = s.btStatus := rfl
@[simp] theorem State.emit_c16Acc : (s.emit es).c16Acc = s.c16Acc := rfl
@[simp] theorem State.emit_opErr : (s.emit es).opErr = s.opErr := rfl
@[simp] theorem State.emit_events : (s.emit es).events = s.events ++ es := rfl
@[simp] theorem State.emit_inputs : (s.emit es).inputs = s.inputs := rfl
@[simp] theorem State.emit_draws : (s.emit es).draws = s.draws := rfl
@[simp] theorem State.emit_cfg : (s.emit es).cfg = s.cfg := rfl
end emit

/-! ### goIdle (R217) -/

@[simp] theorem State.goIdle_ckAcc : s.goIdle.ckAcc = s.ckAcc := rfl
@[simp] theorem State.goIdle_txbuf : s.goIdle.txbuf = s.txbuf := rfl
@[simp] theorem State.goIdle_txLen : s.goIdle.txLen = s.txLen := rfl
@[simp] theorem State.goIdle_rxbuf : s.goIdle.rxbuf = s.rxbuf := rfl
@[simp] theorem State.goIdle_rxLen : s.goIdle.rxLen = s.rxLen := rfl
@[simp] theorem State.goIdle_rxClass : s.goIdle.rxClass = s.rxClass := rfl
@[simp] theorem State.goIdle_frame : s.goIdle.frame = s.frame := rfl
@[simp] theorem State.goIdle_frameLen : s.goIdle.frameLen = s.frameLen := rfl
@[simp] theorem State.goIdle_frameValid : s.goIdle.frameValid = s.frameValid := rfl
@[simp] theorem State.goIdle_frameKind : s.goIdle.frameKind = s.frameKind := rfl
@[simp] theorem State.goIdle_overrun : s.goIdle.overrun = s.overrun := rfl
@[simp] theorem State.goIdle_frameErr : s.goIdle.frameErr = s.frameErr := rfl
@[simp] theorem State.goIdle_pending : s.goIdle.pending = s.pending := rfl
@[simp] theorem State.goIdle_mode : s.goIdle.mode = .detector := rfl
@[simp] theorem State.goIdle_btState : s.goIdle.btState = .idle := rfl
@[simp] theorem State.goIdle_pkt : s.goIdle.pkt = s.pkt := rfl
@[simp] theorem State.goIdle_pktLen : s.goIdle.pktLen = 0 := rfl
@[simp] theorem State.goIdle_expectedBlk : s.goIdle.expectedBlk = s.expectedBlk := rfl
@[simp] theorem State.goIdle_retries : s.goIdle.retries = 0 := rfl
@[simp] theorem State.goIdle_idleTicks : s.goIdle.idleTicks = 0 := rfl
@[simp] theorem State.goIdle_remaining : s.goIdle.remaining = s.remaining := rfl
@[simp] theorem State.goIdle_writeOffset : s.goIdle.writeOffset = s.writeOffset := rfl
@[simp] theorem State.goIdle_stagingOpen : s.goIdle.stagingOpen = s.stagingOpen := rfl
@[simp] theorem State.goIdle_targetName : s.goIdle.targetName = s.targetName := rfl
@[simp] theorem State.goIdle_nameLen : s.goIdle.nameLen = s.nameLen := rfl
@[simp] theorem State.goIdle_btStatus : s.goIdle.btStatus = s.btStatus := rfl
@[simp] theorem State.goIdle_c16Acc : s.goIdle.c16Acc = s.c16Acc := rfl
@[simp] theorem State.goIdle_opErr : s.goIdle.opErr = s.opErr := rfl
@[simp] theorem State.goIdle_events : s.goIdle.events = s.events := rfl
@[simp] theorem State.goIdle_inputs : s.goIdle.inputs = s.inputs := rfl
@[simp] theorem State.goIdle_draws : s.goIdle.draws = s.draws := rfl
@[simp] theorem State.goIdle_cfg : s.goIdle.cfg = s.cfg := rfl

/-! ### openStep (R12) -/

@[simp] theorem State.openStep_ckAcc : s.openStep.ckAcc = s.ckAcc := rfl
@[simp] theorem State.openStep_txbuf : s.openStep.txbuf = s.txbuf := rfl
@[simp] theorem State.openStep_txLen : s.openStep.txLen = s.txLen := rfl
@[simp] theorem State.openStep_rxbuf : s.openStep.rxbuf = s.rxbuf := rfl
@[simp] theorem State.openStep_rxLen : s.openStep.rxLen = s.rxLen := rfl
@[simp] theorem State.openStep_rxClass : s.openStep.rxClass = s.rxClass := rfl
@[simp] theorem State.openStep_frame : s.openStep.frame = s.frame := rfl
@[simp] theorem State.openStep_frameLen : s.openStep.frameLen = s.frameLen := rfl
@[simp] theorem State.openStep_frameValid : s.openStep.frameValid = s.frameValid := rfl
@[simp] theorem State.openStep_frameKind : s.openStep.frameKind = s.frameKind := rfl
@[simp] theorem State.openStep_overrun : s.openStep.overrun = s.overrun := rfl
@[simp] theorem State.openStep_frameErr : s.openStep.frameErr = s.frameErr := rfl
@[simp] theorem State.openStep_pending : s.openStep.pending = s.pending := rfl
@[simp] theorem State.openStep_mode : s.openStep.mode = s.mode := rfl
@[simp] theorem State.openStep_btState : s.openStep.btState = s.btState := rfl
@[simp] theorem State.openStep_pkt : s.openStep.pkt = s.pkt := rfl
@[simp] theorem State.openStep_pktLen : s.openStep.pktLen = s.pktLen := rfl
@[simp] theorem State.openStep_expectedBlk : s.openStep.expectedBlk = s.expectedBlk := rfl
@[simp] theorem State.openStep_retries : s.openStep.retries = s.retries := rfl
@[simp] theorem State.openStep_idleTicks : s.openStep.idleTicks = s.idleTicks := rfl
@[simp] theorem State.openStep_remaining : s.openStep.remaining = s.remaining := rfl
@[simp] theorem State.openStep_writeOffset : s.openStep.writeOffset = s.writeOffset := rfl
@[simp] theorem State.openStep_stagingOpen : s.openStep.stagingOpen = s.stagingOpen := rfl
@[simp] theorem State.openStep_targetName : s.openStep.targetName = s.targetName := rfl
@[simp] theorem State.openStep_nameLen : s.openStep.nameLen = s.nameLen := rfl
@[simp] theorem State.openStep_btStatus : s.openStep.btStatus = s.btStatus := rfl
@[simp] theorem State.openStep_c16Acc : s.openStep.c16Acc = s.c16Acc := rfl
@[simp] theorem State.openStep_opErr : s.openStep.opErr = s.opErr := rfl
@[simp] theorem State.openStep_events : s.openStep.events = [] := rfl
@[simp] theorem State.openStep_inputs : s.openStep.inputs = s.inputs := rfl
@[simp] theorem State.openStep_draws : s.openStep.draws = s.draws + 1 := rfl
@[simp] theorem State.openStep_cfg : s.openStep.cfg = s.cfg := rfl

/-! ### beginStep (R272) -/

/-- The pre-step in Complete: the engine goes to Idle. -/
theorem State.beginStep_of_complete (h : s.btState = .complete) : s.beginStep = { s.openStep.goIdle with opErr := .none } := by
  simp [State.beginStep, State.preStep, h]

/-- The pre-step elsewhere: `op_err` is cleared. -/
theorem State.beginStep_of_ne (h : s.btState ≠ .complete) : s.beginStep = { s.openStep with opErr := .none } := by
  simp [State.beginStep, State.preStep, h]

@[simp] theorem State.beginStep_ckAcc : s.beginStep.ckAcc = s.ckAcc := by
  simp only [State.beginStep, State.preStep]; split <;> rfl
@[simp] theorem State.beginStep_txbuf : s.beginStep.txbuf = s.txbuf := by
  simp only [State.beginStep, State.preStep]; split <;> rfl
@[simp] theorem State.beginStep_txLen : s.beginStep.txLen = s.txLen := by
  simp only [State.beginStep, State.preStep]; split <;> rfl
@[simp] theorem State.beginStep_rxbuf : s.beginStep.rxbuf = s.rxbuf := by
  simp only [State.beginStep, State.preStep]; split <;> rfl
@[simp] theorem State.beginStep_rxLen : s.beginStep.rxLen = s.rxLen := by
  simp only [State.beginStep, State.preStep]; split <;> rfl
@[simp] theorem State.beginStep_rxClass : s.beginStep.rxClass = s.rxClass := by
  simp only [State.beginStep, State.preStep]; split <;> rfl
@[simp] theorem State.beginStep_frame : s.beginStep.frame = s.frame := by
  simp only [State.beginStep, State.preStep]; split <;> rfl
@[simp] theorem State.beginStep_frameLen : s.beginStep.frameLen = s.frameLen := by
  simp only [State.beginStep, State.preStep]; split <;> rfl
@[simp] theorem State.beginStep_frameValid : s.beginStep.frameValid = s.frameValid := by
  simp only [State.beginStep, State.preStep]; split <;> rfl
@[simp] theorem State.beginStep_frameKind : s.beginStep.frameKind = s.frameKind := by
  simp only [State.beginStep, State.preStep]; split <;> rfl
@[simp] theorem State.beginStep_overrun : s.beginStep.overrun = s.overrun := by
  simp only [State.beginStep, State.preStep]; split <;> rfl
@[simp] theorem State.beginStep_frameErr : s.beginStep.frameErr = s.frameErr := by
  simp only [State.beginStep, State.preStep]; split <;> rfl
@[simp] theorem State.beginStep_pending : s.beginStep.pending = s.pending := by
  simp only [State.beginStep, State.preStep]; split <;> rfl
theorem State.beginStep_mode : s.beginStep.mode = if s.btState = .complete then .detector else s.mode := by
  by_cases h : s.btState = .complete <;> simp [State.beginStep_of_complete, State.beginStep_of_ne, h]
theorem State.beginStep_btState : s.beginStep.btState = if s.btState = .complete then .idle else s.btState := by
  by_cases h : s.btState = .complete <;> simp [State.beginStep_of_complete, State.beginStep_of_ne, h]
@[simp] theorem State.beginStep_pkt : s.beginStep.pkt = s.pkt := by
  simp only [State.beginStep, State.preStep]; split <;> rfl
theorem State.beginStep_pktLen : s.beginStep.pktLen = if s.btState = .complete then 0 else s.pktLen := by
  by_cases h : s.btState = .complete <;> simp [State.beginStep_of_complete, State.beginStep_of_ne, h]
@[simp] theorem State.beginStep_expectedBlk : s.beginStep.expectedBlk = s.expectedBlk := by
  simp only [State.beginStep, State.preStep]; split <;> rfl
theorem State.beginStep_retries : s.beginStep.retries = if s.btState = .complete then 0 else s.retries := by
  by_cases h : s.btState = .complete <;> simp [State.beginStep_of_complete, State.beginStep_of_ne, h]
theorem State.beginStep_idleTicks : s.beginStep.idleTicks = if s.btState = .complete then 0 else s.idleTicks := by
  by_cases h : s.btState = .complete <;> simp [State.beginStep_of_complete, State.beginStep_of_ne, h]
@[simp] theorem State.beginStep_remaining : s.beginStep.remaining = s.remaining := by
  simp only [State.beginStep, State.preStep]; split <;> rfl
@[simp] theorem State.beginStep_writeOffset : s.beginStep.writeOffset = s.writeOffset := by
  simp only [State.beginStep, State.preStep]; split <;> rfl
@[simp] theorem State.beginStep_stagingOpen : s.beginStep.stagingOpen = s.stagingOpen := by
  simp only [State.beginStep, State.preStep]; split <;> rfl
@[simp] theorem State.beginStep_targetName : s.beginStep.targetName = s.targetName := by
  simp only [State.beginStep, State.preStep]; split <;> rfl
@[simp] theorem State.beginStep_nameLen : s.beginStep.nameLen = s.nameLen := by
  simp only [State.beginStep, State.preStep]; split <;> rfl
@[simp] theorem State.beginStep_btStatus : s.beginStep.btStatus = s.btStatus := by
  simp only [State.beginStep, State.preStep]; split <;> rfl
@[simp] theorem State.beginStep_c16Acc : s.beginStep.c16Acc = s.c16Acc := by
  simp only [State.beginStep, State.preStep]; split <;> rfl
@[simp] theorem State.beginStep_opErr : s.beginStep.opErr = .none := by
  simp only [State.beginStep, State.preStep]; split <;> rfl
@[simp] theorem State.beginStep_events : s.beginStep.events = [] := by
  simp only [State.beginStep, State.preStep]; split <;> rfl
@[simp] theorem State.beginStep_inputs : s.beginStep.inputs = s.inputs := by
  simp only [State.beginStep, State.preStep]; split <;> rfl
@[simp] theorem State.beginStep_draws : s.beginStep.draws = s.draws + 1 := by
  simp only [State.beginStep, State.preStep]; split <;> rfl
@[simp] theorem State.beginStep_cfg : s.beginStep.cfg = s.cfg := by
  simp only [State.beginStep, State.preStep]; split <;> rfl

/-! ### Memories -/

@[simp] theorem State.beginStep_mem (a : ArrayId) : s.beginStep.mem a = s.mem a := by
  cases a <;> simp [State.mem]

@[simp] theorem State.beginStep_read? (a : ArrayId) (i : Nat) : s.beginStep.read? a i = s.read? a i := by
  simp [State.read?]

@[simp] theorem State.beginStep_size (a : ArrayId) : s.beginStep.size a = s.size a := by
  cases a <;> simp [State.size]

/-- Reading a byte that has been written is no free draw. -/
theorem State.rd_of_read? {a : ArrayId} {i : Nat} {b : Byte} (h : s.read? a i = some b) : s.rd a i = b := by
  simp [State.rd, h]

@[simp] theorem State.length_bytes (a : ArrayId) (lo n : Nat) : (s.bytes a lo n).length = n := by
  simp [State.bytes]

theorem State.getElem?_bytes (a : ArrayId) (lo n k : Nat) :
    (s.bytes a lo n)[k]? = if k < n then some (s.rd a (lo + k)) else none := by
  by_cases h : k < n <;> simp [State.bytes, h]

/-- A sequence read from an array depends only on the bytes read. -/
theorem State.bytes_congr {s t : State} {a b : ArrayId} {lo lo' n : Nat} (h : ∀ k < n, t.rd a (lo + k) = s.rd b (lo' + k)) :
    t.bytes a lo n = s.bytes b lo' n := by
  simp only [State.bytes]
  exact List.map_congr_left fun k hk => h k (List.mem_range.1 hk)

end Sys2Proof.Machine
end

