-- ==== Sys2Proof/Laws/Arrays.lean ====
section
/-!
SUPPORT. Laws/Arrays.lean: a byte memory with its length and its size (20_memory.md R62), and how each kind of store keeps it
legal: appending a byte, overwriting one below the length, shortening the length, and replacing the contents from index 0.
With a Bool test for the invariant of one given state.
-/

namespace Sys2Proof.Machine

/-- A memory in canonical form, within its size, written everywhere below its length. -/
structure ArrayLegal (m : Memory) (len size : Nat) : Prop where
  wf : m.wf
  le : len ≤ size
  inside : ∀ i, m.read? i ≠ none → i < size
  written : ∀ i, i < len → m.read? i ≠ none

namespace ArrayLegal

variable {m : Memory} {len size i : Nat} {b : Byte}

/-- Nothing written, length 0. -/
theorem empty (size : Nat) : ArrayLegal [] 0 size := ⟨by simp [Memory.wf], by omega, by simp, by omega⟩

/-- A byte stored at the length, and the length one greater. -/
theorem append (h : ArrayLegal m len size) (hn : len < size) (b : Byte) : ArrayLegal (m.write len b) (len + 1) size := by
  refine ⟨Memory.wf_write h.wf _ _, hn, fun i => ?_, fun i hi => ?_⟩ <;> rw [Memory.read?_write] <;> split
  · intro _; omega
  · exact h.inside i
  · simp
  · exact h.written i (by omega)

/-- A byte stored below the length. -/
theorem overwrite (h : ArrayLegal m len size) (hn : i < len) (b : Byte) : ArrayLegal (m.write i b) len size := by
  have := h.le
  refine ⟨Memory.wf_write h.wf _ _, h.le, fun j => ?_, fun j hj => ?_⟩ <;> rw [Memory.read?_write] <;> split
  · intro _; omega
  · exact h.inside j
  · simp
  · exact h.written j (by omega)

/-- A smaller length; the bytes stay. -/
theorem shrink {k : Nat} (h : ArrayLegal m len size) (hk : k ≤ len) : ArrayLegal m k size :=
  ⟨h.wf, Nat.le_trans hk h.le, h.inside, fun i hi => h.written i (by omega)⟩

/-- Length 0; the bytes stay. -/
theorem clear (h : ArrayLegal m len size) : ArrayLegal m 0 size := h.shrink (Nat.zero_le _)

/-- New contents from index 0 on. -/
theorem replace {bs : List Byte} (h : ArrayLegal m len size) (hk : bs.length ≤ size) :
    ArrayLegal (m.writeAll 0 bs) bs.length size := by
  refine ⟨Memory.wf_writeAll h.wf _ _, hk, fun i => ?_, fun i hi => ?_⟩ <;> rw [Memory.read?_writeAll]
  · split
    · intro _; omega
    · exact h.inside i
  · rw [if_pos (by omega)]; simp [hi]

end ArrayLegal

/-- The legal values of a state, array by array. -/
theorem State.legal_iff (s : State) :
    s.Legal ↔ s.cfg.valid = true ∧ ArrayLegal s.txbuf s.txLen s.cfg.txbufCap ∧ ArrayLegal s.rxbuf s.rxLen rxbufCap ∧
      ArrayLegal s.frame s.frameLen rxbufCap ∧ ArrayLegal s.pkt s.pktLen pktSize ∧ ArrayLegal s.targetName s.nameLen nameSize ∧
      -1 ≤ s.remaining.toInt ∧ s.writeOffset.toNat ≤ maxFileSize := by
  constructor
  · intro h
    have k : ∀ a, ArrayLegal (s.mem a) (s.len a) (s.size a) := fun a => ⟨h.canonical a, h.len_le a, h.inside a, h.written a⟩
    exact ⟨h.config, k .txbuf, k .rxbuf, k .frame, k .pkt, k .targetName, h.remaining, h.writeOffset⟩
  · rintro ⟨h0, h1, h2, h3, h4, h5, h6, h7⟩
    have k : ∀ a, ArrayLegal (s.mem a) (s.len a) (s.size a) := by intro a; cases a <;> assumption
    exact ⟨h0, fun a => (k a).le, fun a => (k a).inside, fun a => (k a).written, fun a => (k a).wf, h6, h7⟩

/-- An array whose contents were just written from index 0 reads back as written. -/
theorem State.bytes_of_writeAll {s : State} {a : ArrayId} {m : Memory} {bs : List Byte} (h : s.mem a = m.writeAll 0 bs) :
    s.bytes a 0 bs.length = bs := by
  apply List.ext_getElem?
  intro k
  rw [State.getElem?_bytes]
  split
  · rename_i hk
    have hr : s.read? a (0 + k) = some bs[k] := by
      simp only [State.read?, h, Memory.read?_writeAll]
      simp [hk]
    rw [State.rd_of_read? s hr, List.getElem?_eq_getElem hk]
  · rw [List.getElem?_eq_none (by omega)]

/-- An index a memory has an entry for. -/
theorem Memory.mem_of_read? {m : Memory} {i : Nat} (h : m.read? i ≠ none) : ∃ p ∈ m, p.1 = i := by
  induction m with
  | nil => simp at h
  | cons q m ih =>
    obtain ⟨a, c⟩ := q
    by_cases hi : i = a
    · exact ⟨(a, c), by simp, hi.symm⟩
    · obtain ⟨p, hp, he⟩ := ih (by simpa [Memory.read?, hi] using h)
      exact ⟨p, by simp [hp], he⟩

/-! ### Testing the invariant on a given state -/

/-- `ArrayLegal` as a test. -/
def arrayCheck (m : Memory) (len size : Nat) : Bool :=
  decide m.wf && decide (len ≤ size) && m.all (fun p => decide (p.1 < size)) && (List.range len).all fun i => (m.read? i).isSome

theorem arrayLegal_of_check {m : Memory} {len size : Nat} (h : arrayCheck m len size = true) : ArrayLegal m len size := by
  simp only [arrayCheck, Bool.and_eq_true, decide_eq_true_eq, List.all_eq_true, List.mem_range] at h
  obtain ⟨⟨⟨h1, h2⟩, h3⟩, h4⟩ := h
  refine ⟨h1, h2, fun i hi => ?_, fun i hi hn => ?_⟩
  · obtain ⟨p, hp, rfl⟩ := Memory.mem_of_read? hi
    exact h3 p hp
  · have := h4 i hi
    simp [hn] at this

/-- What the invariant says of a packet in progress, as a test. -/
def packetCheck (s : State) : Bool :=
  match s.read? .pkt 0 with
  | some start => decide (start = soh ∨ start = stx) && decide (s.pktLen < packetDataLen start + packetOverhead)
  | none => s.pktLen == 0

/-- The invariant as a test. -/
def State.invCheck (s : State) : Bool :=
  decide (s.mode = .engine ↔ s.btState ≠ .idle) && decide (s.btState = .idle ∨ s.btState = .complete → s.pktLen = 0) &&
  decide (s.stagingOpen = true ↔ (s.btState = .receivingData ∨ s.btState = .waitEot)) &&
  decide (s.frameValid = false → s.overrun = false) && decide (s.retries.toNat ≤ retryLimit s.cfg.maxRetries) &&
  decide (s.btState ≠ .idle → s.idleTicks.toNat < s.cfg.tTimeout) && decide (s.btState = .idle → s.idleTicks = 0) &&
  decide (s.pending.toNat ≤ maxPending) && s.cfg.valid &&
  arrayCheck s.txbuf s.txLen s.cfg.txbufCap && arrayCheck s.rxbuf s.rxLen rxbufCap && arrayCheck s.frame s.frameLen rxbufCap &&
  arrayCheck s.pkt s.pktLen pktSize && arrayCheck s.targetName s.nameLen nameSize && decide (-1 ≤ s.remaining.toInt) &&
  decide (s.writeOffset.toNat ≤ maxFileSize) && (s.pktLen == 0 || packetCheck s) &&
  decide (s.btState = .waitEot → s.remaining = 0) && decide (s.btState = .receivingData → s.remaining ≠ 0) &&
  decide (s.stagingOpen = true → 0 ≤ s.remaining.toInt → s.writeOffset.toNat + s.remaining.toNat ≤ maxFileSize)

/-- A state that passes the test meets the invariant. -/
theorem State.inv_of_check {s : State} (h : s.invCheck = true) : s.Inv := by
  simp only [State.invCheck, Bool.and_eq_true, decide_eq_true_eq] at h
  obtain ⟨⟨⟨⟨⟨⟨⟨⟨⟨⟨⟨⟨⟨⟨⟨⟨⟨⟨⟨h1, h2⟩, h3⟩, h4⟩, h5⟩, h6⟩, h7⟩, h8⟩, hc⟩, a1⟩, a2⟩, a3⟩, a4⟩, a5⟩, h9⟩, h10⟩, hp⟩, h11⟩, h12⟩, h13⟩ := h
  refine ⟨⟨h1, h2, h3.1, h4, h5, h6, h7, h8⟩, ?_, ⟨fun hn => ?_, h3, h11, h12, h13⟩⟩
  · exact (State.legal_iff s).2 ⟨hc, arrayLegal_of_check a1, arrayLegal_of_check a2, arrayLegal_of_check a3,
      arrayLegal_of_check a4, arrayLegal_of_check a5, h9, h10⟩
  · have hq : packetCheck s = true := by simpa [hn] using hp
    unfold packetCheck at hq
    split at hq
    · rename_i start hs
      simp only [Bool.and_eq_true, decide_eq_true_eq] at hq
      exact ⟨start, hs, hq.1, hq.2⟩
    · simp [hn] at hq

end Sys2Proof.Machine
end

