-- ==== Sys2Proof/Laws/Bits.lean ====
section
/-!
SUPPORT. Laws/Bits.lean: bytes and 16-bit values: taking a word apart and putting it together.
-/

namespace Sys2Proof

/-- The opcode of a word made of two bytes. -/
@[simp] theorem opcOf_append (a b : Byte) : opcOf (a ++ b) = a := by
  ext i h
  rw [opcOf, BitVec.getElem_extractLsb', BitVec.getLsbD_append]
  have : ¬ 8 + i < 8 := by omega
  simp [this, h]

/-- The operand of a word made of two bytes. -/
@[simp] theorem immOf_append (a b : Byte) : immOf (a ++ b) = b := by
  ext i h
  rw [immOf, BitVec.getElem_extractLsb', BitVec.getLsbD_append]
  simp [h]

/-- A word is its opcode followed by its operand. -/
theorem opcOf_append_immOf (w : Word) : (opcOf w ++ immOf w : Word) = w := by
  ext i h
  rw [BitVec.getElem_append]
  by_cases hi : i < 8
  · simp [immOf, hi, BitVec.getLsbD_eq_getElem h]
  · have : 8 + (i - 8) = i := by omega
    simp [opcOf, hi, this, BitVec.getLsbD_eq_getElem h]

/-- Every word is made of two bytes. -/
theorem exists_append (w : Word) : ∃ a b : Byte, w = a ++ b := ⟨_, _, (opcOf_append_immOf w).symm⟩

/-- Two words are equal only byte by byte. -/
theorem append_inj {a b c d : Byte} (h : (a ++ b : Word) = c ++ d) : a = c ∧ b = d :=
  ⟨by rw [← opcOf_append a b, h, opcOf_append], by rw [← immOf_append a b, h, immOf_append]⟩

namespace Machine

@[simp] theorem hiByte_append (a b : Byte) : hiByte (a ++ b) = a := opcOf_append a b
@[simp] theorem loByte_append (a b : Byte) : loByte (a ++ b) = b := immOf_append a b
@[simp] theorem hiByte_u16 (a b : Byte) : hiByte (u16 a b) = a := opcOf_append a b
@[simp] theorem loByte_u16 (a b : Byte) : loByte (u16 a b) = b := immOf_append a b

/-- A 16-bit value is made of its two bytes (R8). -/
@[simp] theorem u16_hiByte_loByte (v : Word) : u16 (hiByte v) (loByte v) = v := opcOf_append_immOf v

/-- `{hi, lo}` is `hi * 256 + lo` (R8). -/
theorem toNat_u16 (hi lo : Byte) : (u16 hi lo).toNat = 256 * hi.toNat + lo.toNat := by
  have := hi.isLt
  have := lo.isLt
  rw [u16, BitVec.toNat_append, ← Nat.shiftLeft_add_eq_or_of_lt lo.isLt, Nat.shiftLeft_eq]
  omega

end Machine

end Sys2Proof
end

