-- ==== Sys2Proof/Laws/Inversion.lean ====
section
/-!
SUPPORT. Laws/Inversion.lean: one lemma per meaning or shared operation that says once everything it can answer: if it
answers a next state, then that state is one of those listed, under the conditions listed. Proofs cite these and do not unfold
the meanings.
-/

namespace Sys2Proof.Machine

variable {s t : State} {b : Byte}

@[simp] theorem State.done_eq (s : State) : s.done = .next s := rfl
@[simp] theorem State.raiseOp_eq (s : State) (e : OpErr) : s.raiseOp e = .next { s with opErr := e } := rfl

/-! ### The checksum unit -/

theorem execTxByte_next (h : execTxByte b s = .next t) :
    (s.txLen = s.cfg.txbufCap ∧ t = { s with opErr := .txOverflow }) ∨
    (s.txLen < s.cfg.txbufCap ∧ t = { s with txbuf := s.txbuf.write s.txLen b, txLen := s.txLen + 1 }) := by
  unfold execTxByte at h
  split at h
  · exact .inl ⟨‹_›, by simpa using h.symm⟩
  · split at h
    · exact .inr ⟨‹_›, by simpa using h.symm⟩
    · cases h

theorem execTxSeal_next (h : execTxSeal s = .next t) :
    (s.txLen < minTxLen ∧ t = { s with opErr := .txUndersized }) ∨
    (minTxLen ≤ s.txLen ∧ s.txLen ≤ s.cfg.txbufCap ∧
      t = { s with txbuf := s.txbuf.write (s.txLen - 1) (xor8 (s.bytes .txbuf 0 (s.txLen - 1))) }) := by
  unfold execTxSeal at h
  split at h
  · exact .inl ⟨‹_›, by simpa using h.symm⟩
  · split at h
    · exact .inr ⟨by omega, ‹_›, by simpa using h.symm⟩
    · cases h

/-! ### The frame detector -/

/-- What RX_EOB does to the state, by what the buffer is (R158). -/
theorem State.endBatch_cases (s : State) (c : RxClass) :
    s.endBatch c = s ∨ (∃ e, e ≠ .none ∧ s.endBatch c = s.discard e) ∨
    (c = .response ∧ s.endBatch c = s.latch .response) ∨
    (c = .notification ∧ (byteAt s.rxBytes 3).toNat ≤ maxPending ∧
      s.endBatch c = { (s.latch .notification).emit [.notify (byteAt s.rxBytes 3)] with pending := byteAt s.rxBytes 3 }) := by
  cases c with
  | incomplete => exact .inl rfl
  | malformed => exact .inr (.inl ⟨.malformed, by simp, rfl⟩)
  | notification =>
    simp only [State.endBatch, State.endNotification]
    split
    · exact .inr (.inl ⟨_, ‹_›, rfl⟩)
    · rename_i h
      refine .inr (.inr (.inr ⟨trivial, ?_, rfl⟩))
      simp only [validateNotification, ne_eq, Decidable.not_not] at h
      split at h
      · cases h
      · split at h
        · cases h
        · omega
  | response =>
    simp only [State.endBatch, State.endResponse]
    split
    · exact .inr (.inl ⟨_, ‹_›, rfl⟩)
    · exact .inr (.inr (.inl ⟨trivial, rfl⟩))

theorem execRxEob_next (h : execRxEob s = .next t) :
    s.rxLen ≤ rxbufCap ∧ t = ({ s with rxClass := classify s.rxBytes } : State).endBatch (classify s.rxBytes) := by
  unfold execRxEob at h
  split at h
  · exact ⟨‹_›, by simpa using h.symm⟩
  · cases h

theorem execRxClassify_next (h : execRxClassify s = .next t) :
    s.rxLen ≤ rxbufCap ∧ t = { s with rxClass := classify s.rxBytes } := by
  unfold execRxClassify at h
  split at h
  · exact ⟨‹_›, by simpa using h.symm⟩
  · cases h

theorem execFrameTake_next (h : execFrameTake s = .next t) :
    (s.frameValid = true ∧ t = { s with frameValid := false, overrun := false }) ∨
    (s.frameValid = false ∧ t = { s with opErr := .noFrame }) := by
  unfold execFrameTake at h
  split at h
  · exact .inl ⟨‹_›, by simpa using h.symm⟩
  · rename_i hn
    exact .inr ⟨by simpa using hn, by simpa using h.symm⟩

theorem detectorRx_next (h : detectorRx b s = .next t) :
    (s.rxLen = rxbufCap ∧ t = s.rxOverflow) ∨
    (s.rxLen < rxbufCap ∧ t = { s with rxbuf := s.rxbuf.write s.rxLen b, rxLen := s.rxLen + 1 }) := by
  unfold detectorRx at h
  split at h
  · exact .inl ⟨‹_›, by simpa using h.symm⟩
  · split at h
    · exact .inr ⟨‹_›, by simpa using h.symm⟩
    · cases h

/-! ### The block-transfer engine -/

theorem execBtStart_next (h : execBtStart s = .next t) :
    (s.btState = .idle ∧ t = s.startTransfer) ∨ (s.btState ≠ .idle ∧ t = { s with opErr := .btBusy }) := by
  unfold execBtStart at h
  split at h
  · exact .inr ⟨‹_›, by simpa using h.symm⟩
  · rename_i hn
    exact .inl ⟨by simpa using hn, by simpa using h.symm⟩

theorem execTick_next (h : execTick s = .next t) :
    (s.btState = .idle ∧ t = s) ∨
    (s.btState ≠ .idle ∧ s.cfg.tTimeout ≤ s.idleTicks.toNat + 1 ∧ t = s.abort .timeout) ∨
    (s.btState ≠ .idle ∧ s.idleTicks.toNat + 1 < s.cfg.tTimeout ∧ t = { s with idleTicks := s.idleTicks + 1 }) := by
  unfold execTick at h
  split at h
  · exact .inl ⟨‹_›, by simpa using h.symm⟩
  · split at h
    · rename_i h1 h2
      exact .inr (.inl ⟨h1, by simpa [idleExpires] using h2, by simpa using h.symm⟩)
    · rename_i h1 h2
      exact .inr (.inr ⟨h1, by simpa [idleExpires] using h2, by simpa using h.symm⟩)

/-- A bad packet aborts or is answered with NAK (R211). -/
theorem State.badPacket_cases (s : State) :
    (retriesReached s.cfg.maxRetries s.retries = true ∧ s.badPacket = s.abort .crcExhausted) ∨
    (retriesReached s.cfg.maxRetries s.retries = false ∧
      s.badPacket = { s with retries := bumpRetries s.retries, events := s.events ++ [.serTx nak] }) := by
  unfold State.badPacket
  split
  · exact .inl ⟨‹_›, rfl⟩
  · rename_i hn
    exact .inr ⟨by simpa using hn, rfl⟩

/-- A header's name is shorter than the packet's data (R209). -/
theorem headerName?_some {data name : List Byte} (h : headerName? data = some name) : name.length < data.length := by
  simp only [headerName?] at h
  split at h
  · cases h; assumption
  · cases h

/-- A declared size fits an i64 (R209). -/
theorem sizeFrom_le {v n : Nat} {digits : Bool} {bs : List Byte} (hv : v ≤ maxFileSize) (h : sizeFrom v digits bs = .declared n) :
    n ≤ maxFileSize := by
  induction bs generalizing v digits with
  | nil => simp only [sizeFrom] at h; split at h <;> cases h; exact hv
  | cons b bs ih =>
    simp only [sizeFrom] at h
    split at h
    · split at h
      · cases h
      · exact ih (by omega) h
    · split at h <;> cases h
      exact hv

/-- What the header packet can do (R209, R210). -/
theorem State.onHeader_cases (s : State) (data : List Byte) :
    s.onHeader data = s.badPacket ∨ s.onHeader data = s.onEndOfBatch ∨
    ∃ name size, name ≠ [] ∧ name.length < data.length ∧ (size = -1 ∨ ∃ n, n ≤ maxFileSize ∧ size = BitVec.ofNat 64 n) ∧
      s.onHeader data = s.acceptHeader name size := by
  unfold State.onHeader
  split
  · exact .inl rfl
  · exact .inr (.inl rfl)
  · rename_i b bs hn
    have hlt := headerName?_some hn
    split
    · exact .inl rfl
    · exact .inr (.inr ⟨b :: bs, -1, by simp, hlt, .inl rfl, rfl⟩)
    · rename_i v hv
      exact .inr (.inr ⟨b :: bs, _, by simp, hlt, .inr ⟨v, sizeFrom_le (by decide) hv, rfl⟩, rfl⟩)

/-- A data block is accepted, or the offset would pass the limit (R212, D39). -/
theorem onData_cases (data : List Byte) (s : State) :
    (onData data s = .fault .writeOffsetOverflow ∧ 0 < writeLen s data.length ∧
      maxFileSize < s.writeOffset.toNat + writeLen s data.length) ∨
    (onData data s = .next (s.acceptData data (writeLen s data.length)) ∧
      (writeLen s data.length = 0 ∨ s.writeOffset.toNat + writeLen s data.length ≤ maxFileSize)) := by
  unfold onData
  split
  · rename_i h; exact .inl ⟨rfl, h.1, h.2⟩
  · rename_i h; exact .inr ⟨rfl, by omega⟩

/-- Everything a complete packet can do (R207). -/
theorem onPacket_cases (n : Nat) (s : State) :
    (onPacket n s = .fault .packetOutsideTransfer ∧ (s.btState = .idle ∨ s.btState = .complete)) ∨
    onPacket n s = .next s.badPacket ∨
    (onPacket n s = .next s.onEndOfBatch ∧ s.btState = .waitHeader) ∨
    (∃ name size, name ≠ [] ∧ name.length < n ∧ (size = -1 ∨ ∃ n, n ≤ maxFileSize ∧ size = BitVec.ofNat 64 n) ∧
      onPacket n s = .next (s.acceptHeader name size) ∧ s.btState = .waitHeader) ∨
    (onPacket n s = onData (s.bytes .pkt 3 n) s ∧ (s.btState = .receivingData ∨ s.btState = .waitEot)) ∨
    (onPacket n s = .next s.onDuplicate ∧ (s.btState = .receivingData ∨ s.btState = .waitEot)) := by
  unfold onPacket
  split
  · unfold dispatchPacket
    cases hst : s.btState with
    | idle => exact .inl ⟨rfl, .inl rfl⟩
    | complete => exact .inl ⟨rfl, .inr rfl⟩
    | waitHeader =>
      dsimp only
      split
      · exact .inr (.inl rfl)
      · rcases s.onHeader_cases (s.bytes .pkt 3 n) with h | h | ⟨name, size, h1, h2, h3, h⟩
        · exact .inr (.inl (by rw [h]; rfl))
        · exact .inr (.inr (.inl ⟨by rw [h]; rfl, rfl⟩))
        · exact .inr (.inr (.inr (.inl ⟨name, size, h1, by simpa using h2, h3, by rw [h]; rfl, rfl⟩)))
    | receivingData =>
      dsimp only
      split
      · exact .inr (.inr (.inr (.inr (.inl ⟨rfl, .inl rfl⟩))))
      · split
        · exact .inr (.inr (.inr (.inr (.inr ⟨rfl, .inl rfl⟩))))
        · exact .inr (.inl rfl)
    | waitEot =>
      dsimp only
      split
      · exact .inr (.inr (.inr (.inr (.inl ⟨rfl, .inr rfl⟩))))
      · split
        · exact .inr (.inr (.inr (.inr (.inr ⟨rfl, .inr rfl⟩))))
        · exact .inr (.inl rfl)
  · exact .inr (.inl rfl)

/-- Everything a byte for the engine can do (R205), up to a complete packet. -/
theorem engineRx_cases (b : Byte) (s : State) :
    (s.pktLen = 0 ∧ (b = soh ∨ b = stx) ∧
      engineRx b s = .next { s with idleTicks := 0, pkt := s.pkt.write 0 b, pktLen := 1 }) ∨
    (s.pktLen = 0 ∧ b = eot ∧ (s.btState = .receivingData ∨ s.btState = .waitEot) ∧
      engineRx b s = .next ({ s with idleTicks := 0 } : State).onEot) ∨
    (s.pktLen = 0 ∧ engineRx b s = .next { s with idleTicks := 0 }) ∨
    (s.pktLen ≠ 0 ∧ pktSize ≤ s.pktLen ∧ engineRx b s = .fault (.outsideArray .pkt)) ∨
    (s.pktLen ≠ 0 ∧ s.pktLen < pktSize ∧ s.pktLen + 1 ≠ packetDataLen ((s.appendPkt b).rd .pkt 0) + packetOverhead ∧
      engineRx b s = .next { s.appendPkt b with idleTicks := 0 }) ∨
    (s.pktLen ≠ 0 ∧ s.pktLen < pktSize ∧ s.pktLen + 1 = packetDataLen ((s.appendPkt b).rd .pkt 0) + packetOverhead ∧
      engineRx b s =
        onPacket (packetDataLen ((s.appendPkt b).rd .pkt 0)) { s.appendPkt b with idleTicks := 0, pktLen := 0 }) := by
  unfold engineRx
  split
  · rename_i h0
    unfold betweenPackets
    split
    · exact .inl ⟨h0, ‹_›, rfl⟩
    · split
      · rename_i h
        refine .inr (.inl ⟨h0, h.1, ?_, rfl⟩)
        have h2 : s.btState.takesEot = true := h.2
        cases hb : s.btState <;> simp_all [BtState.takesEot]
      · exact .inr (.inr (.inl ⟨h0, rfl⟩))
  · rename_i h0
    unfold packetByte
    split
    · split
      · exact .inr (.inr (.inr (.inr (.inr ⟨h0, ‹_›, ‹_›, rfl⟩))))
      · exact .inr (.inr (.inr (.inr (.inl ⟨h0, ‹_›, ‹_›, rfl⟩))))
    · exact .inr (.inr (.inr (.inl ⟨h0, Nat.le_of_not_lt ‹_›, rfl⟩)))

/-! ### The step -/

/-- A step answers only under a valid configuration, and then takes one input. -/
theorem step_of_valid (h : s.cfg.valid = true) : step s = takeInput s := by simp [step, runStep, h]

theorem valid_of_step (h : step s = .next t) : s.cfg.valid = true := by
  by_contra hc
  simp [step, runStep, hc] at h

/-- Everything a step that answers can have done (R12). -/
theorem step_next (h : step s = .next t) :
    (s.inputs = [] ∧ t = holdStep s) ∨
    (∃ rest, s.inputs = .reset :: rest ∧ t = resetInput { s with inputs := rest }) ∨
    (∃ w rest i, s.inputs = .op w :: rest ∧ decode w = .ok i ∧ exec i ({ s with inputs := rest } : State).beginStep = .next t) ∨
    (∃ w rest e, s.inputs = .op w :: rest ∧ decode w = .error e ∧
      t = { ({ s with inputs := rest } : State).beginStep with opErr := .illegalOp }) := by
  rw [step_of_valid (valid_of_step h)] at h
  unfold takeInput at h
  split at h
  · exact .inl ⟨‹_›, by simpa using h.symm⟩
  · rename_i w rest hi
    unfold runWord at h
    split at h
    · rename_i i hd
      exact .inr (.inr (.inl ⟨w, rest, i, hi, hd, h⟩))
    · rename_i e hd
      exact .inr (.inr (.inr ⟨w, rest, e, hi, hd, by simpa using h.symm⟩))
  · rename_i rest hi
    exact .inr (.inl ⟨rest, hi, by simpa using h.symm⟩)

end Sys2Proof.Machine
end

