-- ==== Sys2Proof/Laws/Packet.lean ====
section
/-!
SUPPORT. Laws/Packet.lean: what RX_BYTE does with the last byte of a packet (42_block_transfer.md R205, R207), said once, and the
fields of a packet built from its parts (30_encoding.md R101).
-/

namespace Sys2Proof.Machine

variable {s : State} {b start blk : Byte} {p data : List Byte}

/-- The state on_packet runs in: the last byte is stored and the packet buffer is empty again. -/
def State.withPacket (s : State) (b : Byte) : State := { s.appendPkt b with idleTicks := 0, pktLen := 0 }

/-- Storing a byte at `pkt_len` changes that byte alone. -/
theorem State.read?_appendPkt (s : State) (b : Byte) (x : ArrayId) (i : Nat) :
    (s.appendPkt b).read? x i = if x = .pkt ∧ i = s.pktLen then some b else s.read? x i := by
  cases x <;> simp [State.read?, State.mem, State.appendPkt, Memory.read?_write]

/-- The bytes of a collected packet. -/
theorem State.CompletesPacket.rd (h : s.CompletesPacket b p) {i : Nat} (hi : i < p.length) : (s.withPacket b).rd .pkt i = p[i] := by
  have hl : p.length = s.pktLen + 1 := by rw [← h.bytes]; simp
  have hr : (s.withPacket b).read? .pkt i = (s.appendPkt b).read? .pkt i := rfl
  have hp : p[i] = (s.bytes .pkt 0 s.pktLen ++ [b])[i]'(by rw [h.bytes]; exact hi) := by simp only [h.bytes]
  rw [hp, State.rd, hr, State.read?_appendPkt]
  by_cases hb : i = s.pktLen
  · subst hb; simp
  · have hlt : i < s.pktLen := by omega
    rw [if_neg (by simp [hb]), List.getElem_append_left (by simpa using hlt)]
    simp [State.bytes, State.rd, State.withPacket, State.appendPkt]

/-- The last byte of a packet hands the packet to on_packet (R205, R207). -/
theorem State.CompletesPacket.exec_rxByte (h : s.CompletesPacket b p) :
    Machine.exec (.rxByte b) s =
      if packetIntact (byteAt p 1) (byteAt p 2) ((p.drop 3).take (p.length - 5)) (u16At p (3 + (p.length - 5))) then
        dispatchPacket (byteAt p 1) ((p.drop 3).take (p.length - 5)) (s.withPacket b)
      else (s.withPacket b).badPacket.done := by
  have hb : ∀ i (hi : i < p.length), byteAt p i = p[i] := fun i hi => by simp [byteAt, hi]
  have hl : p.length = s.pktLen + 1 := by rw [← h.bytes]; simp
  have hn := h.length
  have hd : packetDataLen (byteAt p 0) ≤ 1024 := by simp only [packetDataLen]; split <;> decide
  simp only [packetOverhead] at hn
  have hlt : s.pktLen < pktSize := by simp only [pktSize]; omega
  have h0 : s.pktLen ≠ 0 := by have := h.begun; omega
  have hrd : ∀ i, i < p.length → (s.withPacket b).rd .pkt i = byteAt p i := fun i hi => by rw [h.rd hi, hb i hi]
  have hr0 : (s.appendPkt b).rd .pkt 0 = byteAt p 0 := by
    rw [← hrd 0 (by omega)]; simp [State.rd, State.read?, State.mem, State.withPacket]
  have hrun : Machine.exec (.rxByte b) s = onPacket (packetDataLen (byteAt p 0)) (s.withPacket b) := by
    simp only [Machine.exec, execRxByte, h.mode]
    rcases engineRx_cases b s with ⟨hz, _⟩ | ⟨hz, _⟩ | ⟨hz, _⟩ | ⟨_, hge, _⟩ | ⟨_, _, hne, _⟩ | ⟨_, _, _, e⟩
    · exact absurd hz h0
    · exact absurd hz h0
    · exact absurd hz h0
    · omega
    · rw [hr0, packetOverhead] at hne; omega
    · rw [e, hr0]; rfl
  have hbytes : (s.withPacket b).bytes .pkt 3 (packetDataLen (byteAt p 0)) = (p.drop 3).take (p.length - 5) := by
    apply List.ext_getElem?
    intro k
    rw [State.getElem?_bytes, List.getElem?_take, List.getElem?_drop]
    by_cases hk : k < p.length - 5
    · rw [if_pos (by omega), if_pos hk, hrd _ (by omega), hb _ (by omega), List.getElem?_eq_getElem (by omega)]
    · rw [if_neg (by omega), if_neg hk]
  rw [hrun, onPacket, hbytes, hrd 1 (by omega), hrd 2 (by omega), hrd _ (by omega), hrd _ (by omega), u16At,
    show packetDataLen (byteAt p 0) = p.length - 5 by omega, show 4 + (p.length - 5) = 3 + (p.length - 5) + 1 by omega]

@[simp] theorem length_packet : (packet start blk data).length = data.length + 5 := by simp [packet]

/-- The fields of a packet built from its parts, and that it is intact. -/
theorem packet_fields (start blk : Byte) (data : List Byte) :
    byteAt (packet start blk data) 0 = start ∧ byteAt (packet start blk data) 1 = blk ∧ byteAt (packet start blk data) 2 = 0xFF ^^^ blk ∧
    ((packet start blk data).drop 3).take data.length = data ∧ u16At (packet start blk data) (3 + data.length) = crc16 data := by
  refine ⟨rfl, rfl, rfl, by simp [packet], ?_⟩
  have h : ∀ k, byteAt (packet start blk data) (3 + data.length + k) = byteAt [hiByte (crc16 data), loByte (crc16 data)] k := by
    intro k
    have e : packet start blk data = ([start, blk, 0xFF ^^^ blk] ++ data) ++ [hiByte (crc16 data), loByte (crc16 data)] := by simp [packet]
    rw [e, byteAt, byteAt, List.getD_eq_getElem?_getD, List.getD_eq_getElem?_getD, List.getElem?_append_right (by simp; omega)]
    congr 2
    simp; omega
  have h0 := h 0
  rw [Nat.add_zero] at h0
  rw [u16At, h0, h 1]
  exact u16_hiByte_loByte _

/-- A packet built from its parts is dispatched by its block number (R207). -/
theorem State.CompletesPacket.exec_packet (h : s.CompletesPacket b (packet start blk data)) :
    Machine.exec (.rxByte b) s = dispatchPacket blk data (s.withPacket b) := by
  obtain ⟨_, h1, h2, h3, h4⟩ := packet_fields start blk data
  rw [h.exec_rxByte, length_packet, Nat.add_sub_cancel, h1, h2, h3, h4, if_pos]
  simp [packetIntact]

end Sys2Proof.Machine
end

