-- ==== Sys2Proof/Laws/PerInstr.lean ====
section
/-!
SUPPORT. Laws/PerInstr.lean: what is said of every operation as syntax, one lemma per constructor.
WordMatchesRow: the operation's word is a word of the row of the opcode map (30_encoding.md R83) that carries its mnemonic.
-/

namespace Sys2Proof.Laws.WordMatchesRow

open Sys2Proof

/-- The mnemonic of an operation, as spec/opcode_table.json spells it. -/
def mnemonicOf : Instr → String
  | .nop => "NOP"
  | .ckClr => "CK_CLR"
  | .ckAcc _ => "CK_ACC"
  | .c16Clr => "C16_CLR"
  | .c16Acc _ => "C16_ACC"
  | .rxByte _ => "RX_BYTE"
  | .rxEob => "RX_EOB"
  | .rxClassify => "RX_CLASSIFY"
  | .rxClr => "RX_CLR"
  | .frameTake => "FRAME_TAKE"
  | .txClr => "TX_CLR"
  | .txByte _ => "TX_BYTE"
  | .txSeal => "TX_SEAL"
  | .btStart => "BT_START"
  | .tick => "TICK"

/-- The operation is well formed, and a row with its mnemonic selects its word. -/
def Statement (i : Instr) : Prop :=
  i.wf = true ∧ ∃ r ∈ opcodeTable, r.mnemonic = mnemonicOf i ∧ r.selects (encode i) = true

/-- A word made of an opcode and any operand byte matches a row that tests the opcode alone. -/
theorem selects_append {m : String} {o : Byte} {p : Word} (hp : p = o ++ 0x00#8) (b : Byte) :
    (OpcodeRow.mk m p 0xFF00).selects (o ++ b) = true := by
  subst hp
  have h : (o ++ b : Word) &&& 0xFF00 = o ++ 0x00#8 := by
    have hm : (0xFF00 : Word) = 0xFF#8 ++ 0x00#8 := by decide
    rw [hm]
    ext i hi
    simp only [BitVec.getElem_and, BitVec.getElem_append]
    by_cases h8 : i < 8
    · simp [h8]
    · have : ∀ j, (hj : j < 8) → (0xFF#8)[j]'hj = true := by decide
      simp [h8, this (i - 8) (by omega)]
  simpa [OpcodeRow.selects] using h

theorem nop : Statement .nop := by unfold Statement; decide
theorem ckClr : Statement .ckClr := by unfold Statement; decide
theorem ckAcc (b : Byte) : Statement (.ckAcc b) :=
  ⟨decide_eq_true b.isLt, ⟨"CK_ACC", 0x0200, 0xFF00⟩, by decide, rfl, selects_append (o := 0x02) (by decide) b⟩
theorem c16Clr : Statement .c16Clr := by unfold Statement; decide
theorem c16Acc (b : Byte) : Statement (.c16Acc b) :=
  ⟨decide_eq_true b.isLt, ⟨"C16_ACC", 0x0900, 0xFF00⟩, by decide, rfl, selects_append (o := 0x09) (by decide) b⟩
theorem rxByte (b : Byte) : Statement (.rxByte b) :=
  ⟨decide_eq_true b.isLt, ⟨"RX_BYTE", 0x1000, 0xFF00⟩, by decide, rfl, selects_append (o := 0x10) (by decide) b⟩
theorem rxEob : Statement .rxEob := by unfold Statement; decide
theorem rxClassify : Statement .rxClassify := by unfold Statement; decide
theorem rxClr : Statement .rxClr := by unfold Statement; decide
theorem frameTake : Statement .frameTake := by unfold Statement; decide
theorem txClr : Statement .txClr := by unfold Statement; decide
theorem txByte (b : Byte) : Statement (.txByte b) :=
  ⟨decide_eq_true b.isLt, ⟨"TX_BYTE", 0x2100, 0xFF00⟩, by decide, rfl, selects_append (o := 0x21) (by decide) b⟩
theorem txSeal : Statement .txSeal := by unfold Statement; decide
theorem btStart : Statement .btStart := by unfold Statement; decide
theorem tick : Statement .tick := by unfold Statement; decide

end Sys2Proof.Laws.WordMatchesRow
end

