-- ==== Sys2Proof/Tests/Slice0.lean ====
section
/-!
SUPPORT. Tests/Slice0.lean: the tests of the model. Expected values come from spec/95_test_vectors.md (the section or the vector
is named) or from the opcode map of spec/30_encoding.md. The configuration is TC (95 section 0), which `State.reset` carries.
The last part has, for every statement with hypotheses, a concrete state and operands that meet them.
-/

namespace Sys2Proof.Tests

-- The kernel evaluations below run one after another: each would otherwise hold a thread of its own.
set_option Elab.async false

open Sys2Proof Sys2Proof.Machine

/-! ### Decoding: words written out from R80 and R83 -/

theorem test_decode_nop : decode 0b0000000000000000 = .ok .nop := by decide
theorem test_decode_ckClr : decode 0b0000000111111111 = .ok .ckClr := by decide
theorem test_decode_ckAcc : decode 0b0000001001011010 = .ok (.ckAcc 0x5A) := by decide
theorem test_decode_c16Clr : decode 0b0000100000000000 = .ok .c16Clr := by decide
theorem test_decode_c16Acc : decode 0b0000100110000001 = .ok (.c16Acc 0x81) := by decide
theorem test_decode_rxByte : decode 0b0001000000100000 = .ok (.rxByte 0x20) := by decide
theorem test_decode_rxEob : decode 0b0001000100000000 = .ok .rxEob := by decide
theorem test_decode_rxClassify : decode 0b0001001000000000 = .ok .rxClassify := by decide
theorem test_decode_rxClr : decode 0b0001001100000000 = .ok .rxClr := by decide
theorem test_decode_frameTake : decode 0b0001010000000000 = .ok .frameTake := by decide
theorem test_decode_txClr : decode 0b0010000000000000 = .ok .txClr := by decide
theorem test_decode_txByte : decode 0b0010000110101010 = .ok (.txByte 0xAA) := by decide
theorem test_decode_txSeal : decode 0b0010001000000000 = .ok .txSeal := by decide
theorem test_decode_btStart : decode 0b0011000000000000 = .ok .btStart := by decide
theorem test_decode_tick : decode 0b0011000110000000 = .ok .tick := by decide
/-- 95 section 2.9. -/
theorem test_decode_illegal :
    decode 0x4500 = .error (.illegalOpcode 0x45) ∧ decode 0xFFFF = .error (.illegalOpcode 0xFF) ∧
    decode 0x0300 = .error (.illegalOpcode 0x03) := by decide
theorem test_decodeTableWord : decodeTableWord 16 0x2101 = some (.txByte 0x01) ∧ decodeTableWord 16 0x4500 = none := by decide
/-- Every row of the opcode map has a different opcode. -/
theorem test_opcodeTable_no_overlap : opcodeTable.Pairwise (fun r r' => r.pattern ≠ r'.pattern) := by decide

/-! ### Well-formedness: the reference configuration is valid, and one broken bound is refused (R6, R34) -/

theorem test_valid_reference : Config.reference.valid = true := by decide
theorem test_valid_bounds :
    { Config.reference with txbufCap := 6, tTimeout := 1 }.valid = true ∧
    { Config.reference with txbufCap := 131071, tTimeout := 4294967295 }.valid = true := by decide
theorem test_refused_types_equal :
    { Config.reference with ctSidewalk := 0x02 }.valid = false ∧ { Config.reference with ctLorawan := 0x01 }.valid = false ∧
    { Config.reference with ctSidewalk := 0x01 }.valid = false := by decide
theorem test_refused_rcSet :
    { Config.reference with rcSet := [0x01, 0x20] }.valid = false ∧ { Config.reference with rcSet := [0x00] }.valid = false := by decide
theorem test_refused_catalogue : { Config.reference with catalogue := [(0x01, 0x0001)] }.valid = false := by decide
theorem test_refused_txbufCap :
    { Config.reference with txbufCap := 5 }.valid = false ∧ { Config.reference with txbufCap := 131072 }.valid = false := by decide
theorem test_refused_timeout :
    { Config.reference with tTimeout := 0 }.valid = false ∧ { Config.reference with tTimeout := 4294967296 }.valid = false := by decide
theorem test_step_refuses_bad_configuration :
    step { State.reset with cfg := { Config.reference with tTimeout := 0 } } = .refused .badConfiguration := rfl
/-- An operand is any byte (R81): both ends are well formed. -/
theorem test_wf_operands : (Instr.ckAcc 0x00).wf = true ∧ (Instr.rxByte 0xFF).wf = true := by decide

/-! ### Small states -/

/-- Look at the next state of a result. -/
def after {α : Type} (r : Result) (f : State → α) : Option α :=
  match r with
  | .next s => some (f s)
  | .fault _ | .refused _ => none

/-- The fault a result ends in. -/
def faultOf : Result → Option Fault
  | .fault f => some f
  | .next _ | .refused _ => none

/-- The reset state with these bytes in the transmit buffer. -/
def txState (bs : List Byte) : State := { State.reset with txbuf := Memory.writeAll [] 0 bs, txLen := bs.length }

/-- The reset state with these bytes in the receive buffer. -/
def rxState (bs : List Byte) : State := { State.reset with rxbuf := Memory.writeAll [] 0 bs, rxLen := bs.length }

/-- "After BT_START" (95 section 2.8). -/
def waiting : State := { State.reset with mode := .engine, btState := .waitHeader, btStatus := .active }

/-- A transfer of a file of this size, of which nothing has been written: block 1 is expected. -/
def receiving (size : BitVec 64) : State :=
  { waiting with btState := .receivingData, expectedBlk := 0x01, remaining := size, stagingOpen := true }

/-- A transfer with nothing left to write. -/
def atEot : State := { receiving 0 with btState := .waitEot }

/-- Complete, as EOT leaves it. -/
def complete : State := { waiting with btState := .complete, btStatus := .doneOk }

/-- The host issues this word next. -/
def withOp (s : State) (w : Word) : State := { s with inputs := [.op w] }

/-- All but the last byte of a packet has been received. -/
def collected (s : State) (p : List Byte) : State :=
  { s with mode := .engine, pkt := Memory.writeAll [] 0 p.dropLast, pktLen := p.length - 1 }

/-- Data of a packet: `d`, padded to 128 bytes with zeros (`P`, 95 section 0). -/
def pad (d : List Byte) : List Byte := d ++ List.replicate (128 - d.length) 0x00

/-! ### One step of each operation -/

/-- NOP in Complete (B24). -/
theorem test_nop : after (issue .nop complete) (fun t => (t.btState, t.mode, t.btStatus, t.events)) =
    some (.idle, .detector, .doneOk, []) := by decide +kernel
/-- 95 section 2.1. -/
theorem test_ckClr : after (issue .ckClr { State.reset with ckAcc := 0x5A }) State.ckAcc = some 0x00 := by decide +kernel
/-- 95 section 2.1. -/
theorem test_ckAcc : after (issue (.ckAcc 0x01) { State.reset with ckAcc := 0x20 }) State.ckAcc = some 0x21 := by decide +kernel
theorem test_c16Clr : after (issue .c16Clr { State.reset with c16Acc := 0x31C3 }) State.c16Acc = some 0x0000 := by decide +kernel
/-- 95 section 2.7: crc16 of 12 34, from that of 12; crc16("A") from reset. -/
theorem test_c16Acc : after (issue (.c16Acc 0x41) State.reset) State.c16Acc = some 0x58E5 := by decide +kernel
theorem test_c16Acc_zero_remainder : after (issue (.c16Acc 0xC3) { State.reset with c16Acc := crc16Step 0x31C3 0x31 }) State.c16Acc =
    some 0x0000 := by decide +kernel
/-- 95 section 2.6, mode routing. -/
theorem test_rxByte_routing :
    after (issue (.rxByte 0x20) waiting) (fun t => (t.rxLen, t.rxbuf, t.events)) = some (0, [], []) ∧
    after (issue (.rxByte 0x20) State.reset) (fun t => (t.rxLen, t.read? .rxbuf 0)) = some (1, some 0x20) := by decide +kernel
/-- As B27: SOH and 132 bytes 00 is a packet with a wrong complement; here the first NAK is sent. -/
theorem test_rxByte_bad_packet :
    after (issue (.rxByte 0x00) (collected waiting (0x01 :: List.replicate 132 0x00))) (fun t => (t.btState, t.pktLen, t.retries, t.events)) =
    some (.waitHeader, 0, 1, [.serTx 0x15]) := by decide +kernel
/-- The header packet of B3, from its data on. -/
theorem test_header :
    let t := waiting.onHeader (pad [0x61, 0x00, 0x35, 0x00])
    (t.btState, t.expectedBlk, t.remaining, t.stagingOpen) = (.receivingData, 1, 5, true) ∧
    t.events = [.stgOpen [0x61] 5, .serTx 0x06, .serTx 0x43] ∧ t.bytes .targetName 0 t.nameLen = [0x61] := by decide +kernel
/-- The data packet of B14, from its data on. -/
theorem test_data :
    after (onData ([0x48, 0x45, 0x4C, 0x4C, 0x4F] ++ List.replicate 123 0x1A) (receiving 5))
      (fun t => (t.btState, t.remaining, t.writeOffset, t.events)) =
    some (.waitEot, 0, 5, [.stgWrite 0 [0x48, 0x45, 0x4C, 0x4C, 0x4F], .serTx 0x06]) := by decide +kernel
/-- 95 section 1.3. -/
theorem test_rxEob_notification :
    after (issue .rxEob (rxState [0x20, 0x00, 0x01, 0x0A, 0x2B])) (fun t => (t.rxClass, t.pending, t.frameLen, t.rxLen, t.events)) =
    some (.notification, 10, 5, 0, [.frame .notification, .notify 10]) := by decide +kernel
/-- 95 section 2.4: precedence of the type over the checksum. -/
theorem test_rxEob_bad_type :
    after (issue .rxEob (rxState [0x00, 0x09, 0x00, 0x00, 0x00, 0x00, 0x00])) (fun t => (t.frameErr, t.frameValid, t.events)) =
    some (.badCommandType, false, [.frameErr .badCommandType]) := by decide +kernel
/-- 95 section 1.5. -/
theorem test_rxClassify :
    after (issue .rxClassify (rxState [0x00, 0x01, 0x00, 0x00, 0x00, 0x01, 0x05])) (fun t => (t.rxClass, t.rxLen, t.events)) =
    some (.incomplete, 7, []) := by decide +kernel
/-- 95 section 2.6. -/
theorem test_rxClr : after (issue .rxClr { rxState [0x00, 0x01, 0x00] with frameErr := .badCrc })
    (fun t => (t.rxLen, t.rxClass, t.frameErr)) = some (0, .incomplete, .badCrc) := by decide +kernel
/-- 95 sections 2.6 and 2.9. -/
theorem test_frameTake :
    after (issue .frameTake { State.reset with frameValid := true, overrun := true }) (fun t => (t.frameValid, t.overrun, t.opErr)) =
      some (false, false, .none) ∧
    after (issue .frameTake State.reset) State.opErr = some .noFrame := by decide +kernel
/-- 95 section 2.2. -/
theorem test_txClr : after (issue .txClr (txState [1, 0, 0, 0, 0, 1])) (fun t => (t.txLen, t.read? .txbuf 5)) = some (0, some 1) := by
  decide +kernel
/-- 95 section 2.2. -/
theorem test_txByte_full :
    after (issue (.txByte 0xAA) { State.reset with txLen := 64 }) (fun t => (t.opErr, t.txLen, t.txbuf)) = some (.txOverflow, 64, []) := by
  decide +kernel
theorem test_txByte : after (issue (.txByte 0xAA) (txState [0x01])) (fun t => (t.txLen, t.bytes .txbuf 0 2)) =
    some (2, [0x01, 0xAA]) := by decide +kernel
/-- 95 section 2.2: the old last byte is not in the XOR. -/
theorem test_txSeal : after (issue .txSeal (txState [0x01, 0x00, 0x00, 0x00, 0x00, 0xFF])) (fun t => t.bytes .txbuf 0 6) =
    some [0x01, 0x00, 0x00, 0x00, 0x00, 0x01] := by decide +kernel
theorem test_txSeal_short : after (issue .txSeal (txState [0x01, 0x00, 0x00, 0x00, 0x00])) (fun t => (t.opErr, t.txLen)) =
    some (.txUndersized, 5) := by decide +kernel
/-- B1 and B2. -/
theorem test_btStart :
    after (issue .btStart State.reset) (fun t => (t.btState, t.mode, t.btStatus, t.events)) =
      some (.waitHeader, .engine, .active, [.serTx 0x43]) ∧
    after (issue .btStart waiting) (fun t => (t.opErr, t.events)) = some (.btBusy, []) := by decide +kernel
/-- 95 section 1.8: the third TICK. -/
theorem test_tick_timeout :
    after (issue .tick { waiting with idleTicks := 2 }) (fun t => (t.btState, t.mode, t.btStatus, t.events)) =
    some (.idle, .detector, .timeout, [.btEnd .timeout]) := by decide +kernel
theorem test_tick : after (issue .tick waiting) State.idleTicks = some 1 ∧ after (issue .tick State.reset) State.idleTicks = some 0 := by
  decide +kernel
/-- 95 section 2.9: the error is raised, and the next step's pre-step clears it. -/
theorem test_illegal_word :
    after (step (withOp State.reset 0x4500)) (fun t => (t.opErr, t.events)) = some (.illegalOp, []) ∧
    after (step (withOp { State.reset with opErr := .illegalOp } 0x0000)) State.opErr = some .none := by decide +kernel
/-- The fault of D39: 2^63 - 1 is passed. -/
theorem test_offset_limit :
    faultOf (onData (pad []) { receiving (-1) with writeOffset := 9223372036854775680 }) = some .writeOffsetOverflow := by decide +kernel
/-- The reset input (R271). -/
theorem test_reset_input :
    after (step { atEot with inputs := [.reset], c16Acc := 0x1234 }) (fun t => (t.btState, t.stagingOpen, t.c16Acc, t.events)) =
    some (.idle, false, 0, []) := by decide +kernel

/-! ### The codec functions and the ports -/

/-- 95 section 2.7. -/
theorem test_crc16_check : crc16 [0x31, 0x32, 0x33, 0x34, 0x35, 0x36, 0x37, 0x38, 0x39] = 0x31C3 ∧ crc16 [0xFF] = 0x1EF0 ∧
    crc16 [0x12, 0x34] = 0x13C6 := by decide +kernel
/-- 95 section 2.1. -/
theorem test_xor8 : xor8 [0x31, 0x32, 0x33, 0x34, 0x35, 0x36, 0x37, 0x38, 0x39] = 0x31 := by decide
/-- 95 section 2.3. -/
theorem test_classify_joined : classify [0x00, 0x01, 0x00, 0x00, 0x00, 0x00, 0x01, 0x20, 0x00, 0x01, 0x03, 0x22] = .malformed := by decide
theorem test_classify_sentinel : classify [0x20, 0xFF, 0xFF, 0xFF, 0xFF, 0xFF, 0xFF] = .malformed := by decide
/-- B9 and B10: the size 2^63 - 1 is declared and 2^63 is too large. -/
theorem test_headerSize :
    headerSize ([0x61, 0x00] ++ [0x39, 0x32, 0x32, 0x33, 0x33, 0x37, 0x32, 0x30, 0x33, 0x36, 0x38, 0x35, 0x34, 0x37, 0x37, 0x35] ++
      [0x38, 0x30, 0x37, 0x00]) 1 = .declared 9223372036854775807 ∧
    headerSize ([0x61, 0x00] ++ [0x39, 0x32, 0x32, 0x33, 0x33, 0x37, 0x32, 0x30, 0x33, 0x36, 0x38, 0x35, 0x34, 0x37, 0x37, 0x35] ++
      [0x38, 0x30, 0x38, 0x00]) 1 = .tooLarge := by decide +kernel
/-- 95 section 2.8, B5 and B6: no digits, and the size 0. -/
theorem test_headerSize_small : headerSize [0x6E, 0x00, 0x00] 1 = .notDeclared ∧ headerSize [0x65, 0x00, 0x30, 0x00] 1 = .declared 0 := by
  decide
/-- R33: the bit places of ST_RX, computed by hand: class 2, valid, kind 1, error 8, pending 3. -/
theorem test_status_rx :
    { State.reset with rxClass := .notification, frameValid := true, frameKind := .notification, frameErr := .rxOverflow,
                       pending := 3 }.status .stRx = 0x380E := by decide +kernel
/-- R33: ST_BT of ReceivingData, destination open, ACTIVE, block 1, 2 retries. -/
theorem test_status_bt : { receiving 5 with retries := 2 }.status .stBt = 0x2011A := by decide +kernel

/-! ### Witnesses: the hypotheses of the statements can be met -/

/-- A collected packet completes with its last byte. -/
theorem collected_completes (s : State) (p : List Byte) (h : p.length = packetDataLen (byteAt p 0) + packetOverhead) :
    (collected s p).CompletesPacket (p.getLast?.getD 0) p := by
  have h5 : 5 ≤ p.length := by rw [h, packetOverhead]; omega
  refine ⟨rfl, by simp only [collected]; omega, ?_, h⟩
  have hb : (collected s p).bytes .pkt 0 p.dropLast.length = p.dropLast := State.bytes_of_writeAll rfl
  rw [List.length_dropLast] at hb
  simp only [collected] at hb ⊢
  rw [hb]
  have hne : p ≠ [] := by intro hp; simp [hp] at h5
  rw [List.getLast?_eq_some_getLast hne]
  exact List.dropLast_append_getLast hne

theorem packetDataLen_of_starts {start : Byte} {n : Nat} (h : StartsPacket start n) : packetDataLen start = n := by
  rcases h with ⟨rfl, rfl⟩ | ⟨rfl, rfl⟩ <;> rfl

/-- A well-formed packet completes with the low byte of its CRC, in any transfer. -/
theorem packet_completes (s : State) {start : Byte} {n : Nat} (blk : Byte) {data : List Byte} (h : StartsPacket start n)
    (hd : data.length = n) :
    (collected s (packet start blk data)).CompletesPacket (loByte (crc16 data)) (packet start blk data) := by
  have hb : byteAt (packet start blk data) 0 = start := rfl
  have hl : (packet start blk data).getLast?.getD 0 = loByte (crc16 data) := by
    have e : packet start blk data = ([start, blk, 0xFF ^^^ blk] ++ data ++ [hiByte (crc16 data)]) ++ [loByte (crc16 data)] := by
      simp [packet]
    rw [e, List.getLast?_concat, Option.getD_some]
  rw [← hl]
  apply collected_completes
  rw [hb, length_packet, hd, packetDataLen_of_starts h, packetOverhead]

theorem starts_soh : StartsPacket 0x01 128 := .inl ⟨rfl, rfl⟩
theorem starts_stx : StartsPacket 0x02 1024 := .inr ⟨rfl, rfl⟩

theorem waiting_inv : waiting.Inv := State.inv_of_check (by decide +kernel)
theorem receiving_inv : (receiving 5).Inv := State.inv_of_check (by decide +kernel)
theorem receiving_unsized_inv : (receiving (-1)).Inv := State.inv_of_check (by decide +kernel)
theorem atEot_inv : atEot.Inv := State.inv_of_check (by decide +kernel)
theorem complete_inv : complete.Inv := State.inv_of_check (by decide +kernel)

theorem witness_DecodeAcceptsExactlyTheTable :
    (∃ r ∈ opcodeTable, r.selects 0x3180 = true) ∧ decode 0x4500 = .error (.illegalOpcode 0x45) := by decide
theorem witness_DecodeInvertsEncode : (Instr.rxByte 0xFF).wf = true ∧ decode 0x10FF = .ok (.rxByte 0xFF) := by decide
theorem witness_StepRunsTheDecodedOperation :
    (withOp waiting 0x3100).cfg.valid = true ∧ (withOp waiting 0x3100).inputs = .op 0x3100 :: [] ∧ decode 0x3100 = .ok .tick ∧
    decode 0x32FF = .error (.illegalOpcode 0x32) := by decide
/-- Both ends of each of the five ranges of R84. -/
theorem witness_IllegalOpcodesOnlyRaise :
    (withOp State.reset (0x03#8 ++ 0x00#8)).cfg.valid = true ∧ (withOp State.reset (0x03#8 ++ 0x00#8)).inputs = [.op (0x03#8 ++ 0x00#8)] ∧
    ∀ opc ∈ [0x03#8, 0x07, 0x0A, 0x0F, 0x15, 0x1F, 0x23, 0x2F, 0x32, 0xFF],
      ((0x03 ≤ opc.toNat ∧ opc.toNat ≤ 0x07) ∨ (0x0A ≤ opc.toNat ∧ opc.toNat ≤ 0x0F) ∨ (0x15 ≤ opc.toNat ∧ opc.toNat ≤ 0x1F) ∨
        (0x23 ≤ opc.toNat ∧ opc.toNat ≤ 0x2F) ∨ (0x32 ≤ opc.toNat ∧ opc.toNat ≤ 0xFF)) := by decide
theorem witness_PreStepClearsErrorAndLeavesComplete :
    complete.btState = .complete ∧ waiting.btState ≠ .complete ∧ (withOp { complete with rxLen := 65541 } (0x10#8 ++ 0x20#8)).cfg.valid = true ∧
    (withOp { complete with rxLen := 65541 } (0x10#8 ++ 0x20#8)).rxLen < 65542 := by decide +kernel
theorem witness_CompleteLastsOneStep :
    (withOp complete 0x3000).btState = .complete ∧
    (∃ t, step (withOp complete 0x3000) = .next t ∧ t.btState = .waitHeader) ∧
    (∃ t, step { complete with inputs := [.reset] } = .next t ∧ t.btState = .idle) :=
  ⟨rfl, ⟨_, rfl, by decide +kernel⟩, ⟨_, rfl, by decide +kernel⟩⟩
theorem witness_ResetGivesTheResetState :
    { atEot with inputs := [.reset] }.cfg.valid = true ∧ { atEot with inputs := [.reset] }.inputs = .reset :: [] := by decide
theorem witness_EngineHoldsItsStateBetweenOperations : atEot.cfg.valid = true ∧ atEot.inputs = [] := by decide
theorem witness_ConfigurationOutOfBoundsIsRefused :
    131071 < { State.reset with cfg := { Config.reference with txbufCap := 131072 } }.cfg.txbufCap ∧
    2 ^ 32 - 1 < { State.reset with cfg := { Config.reference with tTimeout := 4294967296 } }.cfg.tTimeout := by decide +kernel
theorem witness_ConfigurationIsFixed : ∃ t, step (withOp State.reset 0x3000) = .next t ∧ t.btState = .waitHeader :=
  ⟨_, rfl, by decide +kernel⟩
theorem witness_ResetStateMeetsTheInvariants : Config.reference.valid = true := by decide
theorem witness_EveryStepKeepsTheInvariants :
    (withOp (receiving 5) 0x1004).Inv ∧ ∃ t, step (withOp (receiving 5) 0x1004) = .next t ∧ t.btState = .complete :=
  ⟨State.inv_of_check (by decide +kernel), _, rfl, by decide +kernel⟩
/-- Both outcomes: a step that completes, and the last byte of a block that passes the limit. -/
theorem witness_StepStopsOnlyAtTheFileSizeLimit :
    (withOp atEot 0x3100).Inv ∧
    (withOp (collected { receiving (-1) with writeOffset := 9223372036854775680 } (packet 0x01 0x01 (pad []))) 0x1000).Inv :=
  ⟨State.inv_of_check (by decide +kernel), State.inv_of_check (by decide +kernel)⟩
theorem witness_StagingPortSeesFilesInProtocolOrder :
    (withOp (receiving 5) 0x1004).Inv ∧ (∀ rest, (withOp (receiving 5) 0x1004).inputs ≠ .reset :: rest) ∧
    ∃ t, step (withOp (receiving 5) 0x1004) = .next t ∧ t.events = [.serTx 0x06, .stgClose, .finalize, .btEnd .doneShort] :=
  ⟨State.inv_of_check (by decide +kernel), by simp [withOp], _, rfl, by decide +kernel⟩
/-- Two states that differ in a byte at the length. -/
theorem witness_UnspecifiedBytesAreNeverObserved :
    ({ txState [0x01] with txbuf := [(0, 0x01), (1, 0xAA)] } : State).Agree { txState [0x01] with txbuf := [(0, 0x01), (1, 0xBB)] } :=
  ⟨rfl, fun a i h => by
    cases a
    · have h1 : i < 1 := h
      have h0 : i = 0 := by omega
      subst h0; rfl
    all_goals exact absurd h (Nat.not_lt_zero i)⟩
theorem witness_ModeChangesOnlyAtStartAndIdle :
    (∃ t, exec .btStart State.reset = .next t ∧ t.mode ≠ State.reset.mode) ∧
    ∃ t, exec .tick { waiting with idleTicks := 2 } = .next t ∧ t.mode ≠ waiting.mode :=
  ⟨⟨_, rfl, by decide +kernel⟩, ⟨_, rfl, by decide +kernel⟩⟩
theorem witness_UnitsLeaveEachOtherAlone :
    (∃ t, exec (.ckAcc 0x01) waiting = .next t ∧ t.ckAcc = 0x01) ∧
    (∃ t, exec .rxEob (rxState [0x20, 0x00, 0x01, 0x0A, 0x2B]) = .next t ∧ t.frameValid = true) ∧
    (∃ t, exec .tick waiting = .next t ∧ t.idleTicks = 1) ∧
    (∃ t, exec (.rxByte 0x20) State.reset = .next t ∧ State.reset.mode = .detector ∧ t.rxLen = 1) ∧
    ∃ t, exec (.rxByte 0x01) waiting = .next t ∧ waiting.mode = .engine ∧ t.pktLen = 1 :=
  ⟨⟨_, rfl, by decide +kernel⟩, ⟨_, rfl, by decide +kernel⟩, ⟨_, rfl, by decide +kernel⟩, ⟨_, rfl, rfl, by decide +kernel⟩,
    ⟨_, rfl, rfl, by decide +kernel⟩⟩
theorem witness_AccumulatorsAreIndependent :
    (∃ t, exec (.ckAcc 0x01) State.reset = .next t ∧ t.ckAcc ≠ State.reset.ckAcc) ∧
    ∃ t, exec (.c16Acc 0x01) State.reset = .next t ∧ t.c16Acc ≠ State.reset.c16Acc :=
  ⟨⟨_, rfl, by decide +kernel⟩, ⟨_, rfl, by decide +kernel⟩⟩
/-- One state for each cause of an operation error. -/
theorem witness_OperationErrorsHaveNoOtherEffect :
    (∃ t, exec .txSeal (txState [1, 0, 0, 0, 0]) = .next t ∧ t.opErr = .txUndersized) ∧ (txState [1, 0, 0, 0, 0]).txLen = 5 ∧
    { State.reset with txLen := 64 }.txLen = State.reset.cfg.txbufCap ∧ complete.btState ≠ .idle ∧ State.reset.frameValid = false ∧
    (withOp State.reset 0x4500).cfg.valid = true ∧ decode 0x4500 = .error (.illegalOpcode 0x45) :=
  ⟨⟨_, rfl, by decide +kernel⟩, by decide +kernel⟩
/-- An event of each kind: at BT_START, at the end of a batch, at a full receive buffer, at EOT, and at a timeout with an open
destination. (STG_OPEN and STG_WRITE: test_header and test_data.) -/
theorem witness_EventsComeFromTheUnitThatRan :
    (∃ t, exec .btStart State.reset = .next t ∧ State.reset.events = [] ∧ t.events = [.serTx 0x43]) ∧
    (∃ t, exec .rxEob (rxState [0x20, 0x00, 0x01, 0x0A, 0x2B]) = .next t ∧ t.events = [.frame .notification, .notify 10]) ∧
    (∃ t, exec (.rxByte 0x00) { State.reset with rxLen := 65542 } = .next t ∧ t.events = [.frameErr .rxOverflow]) ∧
    (∃ t, exec (.rxByte 0x04) (receiving 5) = .next t ∧ (receiving 5).events = [] ∧ (receiving 5).mode = .engine ∧
      t.events = [.serTx 0x06, .stgClose, .finalize, .btEnd .doneShort]) ∧
    (∃ t, exec .tick { receiving 5 with idleTicks := 2 } = .next t ∧ t.events = [.stgDiscard, .btEnd .timeout]) ∧
    ∃ t, step (withOp State.reset 0x3000) = .next t ∧ t.events ≠ [] :=
  ⟨⟨_, rfl, rfl, by decide +kernel⟩, ⟨_, rfl, by decide +kernel⟩, ⟨_, rfl, by decide +kernel⟩,
    ⟨_, rfl, rfl, rfl, by decide +kernel⟩, ⟨_, rfl, by decide +kernel⟩, ⟨_, rfl, by decide +kernel⟩⟩
theorem witness_PortsShowTheState :
    { State.reset with rxLen := 65542 }.rxLen ≤ rxbufCap ∧ { State.reset with frameLen := 65542 }.frameLen ≤ rxbufCap ∧
    { State.reset with txLen := 131071 }.txLen ≤ 131071 ∧ { State.reset with pktLen := 1029 }.pktLen ≤ 1029 ∧
    { State.reset with nameLen := 1023 }.nameLen ≤ 1023 ∧
    0 < (txState [0x01]).len BytePort.txbuf.array ∧ (txState [0x01]).read? BytePort.txbuf.array 0 = some 0x01 ∧
    (txState [0x01]).len BytePort.txbuf.array ≤ 1 := by decide +kernel
theorem witness_XorFoldIgnoresOrderAndCancelsPairs : [0x01#8, 0x02].Perm [0x02, 0x01] := List.Perm.swap _ _ _
theorem witness_NopLeavesOnlyThePreStep :
    (withOp complete (0x00#8 ++ 0xFF#8)).cfg.valid = true ∧ (withOp complete (0x00#8 ++ 0xFF#8)).btState = .complete ∧
    (withOp waiting (0x00#8 ++ 0xFF#8)).cfg.valid = true ∧ (withOp waiting (0x00#8 ++ 0xFF#8)).btState ≠ .complete := by decide +kernel
theorem witness_XorAccumulatorFoldsBytes : State.reset.cfg.valid = true := by decide
theorem witness_TransmitBufferClearsAndAppends :
    { State.reset with txLen := 64 }.txLen = State.reset.cfg.txbufCap ∧ { State.reset with txLen := 63 }.txLen < State.reset.cfg.txbufCap := by
  decide +kernel
theorem witness_SealWritesTheChecksum :
    { State.reset with txLen := 5 }.txLen < 6 ∧ 6 ≤ (txState [1, 0, 0, 0, 0, 0xFF]).txLen ∧
    { State.reset with txLen := 64 }.txLen ≤ State.reset.cfg.txbufCap := by decide +kernel
theorem witness_TxFrameBuildsTheCommandFrame :
    State.reset.cfg.valid = true ∧ (List.replicate 58 0x00#8).length < 65536 ∧
    6 + (List.replicate 58 0x00#8).length ≤ State.reset.cfg.txbufCap := by decide
/-- For each case a buffer at its boundary. -/
theorem witness_ClassifyFollowsTheLengthFields :
    ([0x20#8, 0x00, 0x01, 0x03]).length < 5 ∧ ([0x20#8, 0x00, 0x01, 0x03, 0x22]).length = 5 ∧
    5 < ([0x20#8, 0x00, 0x01, 0x03, 0x22, 0x00]).length ∧ ([0x00#8, 0x01, 0x00, 0x00, 0x00]).length < 6 ∧
    ([0x00#8, 0x01, 0x00, 0x00, 0x00]).head? ≠ some 0x20#8 ∧ (0x00#8 ≠ 0x20#8) ∧
    (0x00#8 :: 0x01 :: 0x00 :: 0x00 :: 0x00 :: 0x00#8 :: []).length < 7 + (256 * 0 + 0) ∧
    (0x00#8 :: 0x01 :: 0x00 :: 0x00 :: 0x00 :: 0x00#8 :: [0x01]).length = 7 + (256 * 0 + 0) ∧
    7 + (256 * 0 + 0) < (0x00#8 :: 0x01 :: 0x00 :: 0x00 :: 0x00 :: 0x00#8 :: [0x01, 0x00]).length := by decide
/-- One instance for each violation, under TC (95 section 2.4). -/
theorem witness_ResponseViolationsInPriorityOrder :
    0x7F#8 ∉ Config.reference.rcSet ∧ 0x00#8 ∈ Config.reference.rcSet ∧
    0x09#8 ∉ [0x01#8, Config.reference.ctLorawan, Config.reference.ctSidewalk] ∧
    0x01#8 ∈ [0x01#8, Config.reference.ctLorawan, Config.reference.ctSidewalk] ∧
    (0x01#8, (BitVec.ofNat 16 (256 * 0x12 + 0x34) : Word)) ∉ Config.reference.catalogue ∧
    (0x01#8, (BitVec.ofNat 16 (256 * 0 + 0) : Word)) ∈ Config.reference.catalogue ∧
    0x55#8 ≠ xor8 [0x00, 0x01, 0x00, 0x00, 0x00, 0x00] ∧ 0x01#8 = xor8 [0x00, 0x01, 0x00, 0x00, 0x00, 0x00] := by decide
/-- The counts 10 and 11, and a good and a bad checksum. -/
theorem witness_NotificationViolationsInPriorityOrder :
    ¬(0x00#8 = 0 ∧ 0x02#8 = 1) ∧ (10 < (0x0B#8).toNat) ∧ ((0x0A#8).toNat ≤ 10) ∧ (0x2A#8 ≠ xor8 [0x20, 0x00, 0x01, 0x0A]) ∧
    0x2B#8 = xor8 [0x20, 0x00, 0x01, 0x0A] := by decide
theorem witness_FrameBoundariesAreFoundExactly :
    (0x00#8 ≠ 0x20#8) ∧ (List.replicate 65535 0x00#8).length < 65536 ∧ ([0x00#8] ≠ []) :=
  ⟨by decide, by rw [List.length_replicate]; decide, by decide⟩
theorem witness_DetectorByteIsAppendedOrOverflows :
    State.reset.mode = .detector ∧ { State.reset with rxLen := 65541 }.rxLen < 65542 ∧ { State.reset with rxLen := 65542 }.rxLen = 65542 := by
  decide +kernel
/-- A buffer for each case of RX_EOB (95 sections 1.1, 1.3, 2.4, 2.5). -/
theorem witness_EndOfBatchKeepsLatchesOrDiscards :
    { State.reset with rxLen := 65542 }.rxLen ≤ 65542 ∧
    classify ((rxState [0x20, 0x00, 0x01, 0x03]).bytes .rxbuf 0 4) = .incomplete ∧
    classify ((rxState [0x20, 0x00, 0x01, 0x03, 0x22, 0x00]).bytes .rxbuf 0 6) = .malformed ∧
    (let f := (rxState [0x20, 0x00, 0x01, 0x0B, 0x2A]).bytes .rxbuf 0 5; classify f = .notification ∧ validateNotification f ≠ .none) ∧
    (let f := (rxState [0x20, 0x00, 0x01, 0x0A, 0x2B]).bytes .rxbuf 0 5; classify f = .notification ∧ validateNotification f = .none) ∧
    (let f := (rxState [0x00, 0x01, 0x00, 0x00, 0x00, 0x00, 0x55]).bytes .rxbuf 0 7; classify f = .response ∧ validateResponse Config.reference f ≠ .none) ∧
    (let f := (rxState [0x00, 0x01, 0x00, 0x00, 0x00, 0x01, 0x05, 0x05]).bytes .rxbuf 0 8; classify f = .response ∧ validateResponse Config.reference f = .none) := by decide +kernel
theorem witness_ResponseIsLatchedExactlyWhenValid :
    (rxState [0x00, 0x01, 0x00, 0x00, 0x00, 0x00, 0x01]).rxLen ≤ 65542 ∧
    (rxState [0x00, 0x01, 0x00, 0x00, 0x00, 0x00, 0x01]).frameValid = false := by decide +kernel
theorem witness_NotificationsAreDelivered :
    State.reset.cfg.valid = true ∧ State.reset.mode = .detector ∧ State.reset.rxLen = 0 ∧ ((0x0A#8).toNat ≤ 10) ∧ (10 < (0x0B#8).toNat) := by
  decide
/-- The frame of 95 section 1.1, cut before its first and before its last byte. -/
theorem witness_FragmentedResponsesAreReassembled :
    State.reset.cfg.valid = true ∧ State.reset.mode = .detector ∧ State.reset.rxLen = 0 ∧ ([0x05#8]).length < 65536 ∧ 0x00#8 ≠ 0x20#8 ∧
    0x00#8 ∈ State.reset.cfg.rcSet ∧ 0x01#8 ∈ [0x01#8, State.reset.cfg.ctLorawan, State.reset.cfg.ctSidewalk] ∧
    (0x01#8, (0x0000 : Word)) ∈ State.reset.cfg.catalogue ∧ 0 < 7 + ([0x05#8]).length ∧ 7 < 7 + ([0x05#8]).length := by decide
theorem witness_DetectorHostOperations :
    { State.reset with rxLen := 65542 }.rxLen ≤ 65542 ∧ { State.reset with frameValid := true }.frameValid = true ∧
    State.reset.frameValid = false := by decide +kernel
theorem witness_CrcAccumulatorFoldsBytes : State.reset.cfg.valid = true := by decide
theorem witness_StartActivatesTheEngine :
    State.reset.btState = .idle ∧ complete.btState ≠ .idle ∧ (withOp complete (0x30#8 ++ 0x00#8)).cfg.valid = true ∧
    (withOp complete (0x30#8 ++ 0x00#8)).btState = .complete := by decide +kernel
/-- One below the window and at the window. -/
theorem witness_TickCountsAndTimesOut :
    State.reset.btState = .idle ∧ waiting.btState ≠ .idle ∧ { waiting with idleTicks := 1 }.idleTicks.toNat + 1 < waiting.cfg.tTimeout ∧
    waiting.cfg.tTimeout ≤ { waiting with idleTicks := 2 }.idleTicks.toNat + 1 ∧ (withOp complete (0x31#8 ++ 0xFF#8)).cfg.valid = true ∧
    (withOp complete (0x31#8 ++ 0xFF#8)).btState = .complete := by decide +kernel
theorem witness_StalledTransferTimesOut :
    (receiving 5).Inv ∧ (receiving 5).btState ≠ .idle ∧ (receiving 5).btState ≠ .complete ∧
    2 < (receiving 5).cfg.tTimeout - (receiving 5).idleTicks.toNat := ⟨receiving_inv, by decide +kernel⟩
theorem witness_StrayBytesAreIgnored :
    waiting.mode = .engine ∧ waiting.pktLen = 0 ∧ waiting.btState = .waitHeader ∧ (0x04#8 ≠ 0x01) ∧ (0x04#8 ≠ 0x02) ∧
    (receiving 5).mode = .engine ∧ (receiving 5).pktLen = 0 ∧ (receiving 5).btState.stages ∧ (0x18#8 ≠ 0x01) ∧ (0x18#8 ≠ 0x02) ∧
    (0x18#8 ≠ 0x04) := ⟨rfl, rfl, rfl, by decide, by decide, rfl, rfl, .inl rfl, by decide⟩
/-- The first byte, a second byte, and the last byte that does not complete a packet of 128. -/
theorem witness_PacketBytesAreCollected :
    waiting.mode = .engine ∧ waiting.pktLen = 0 ∧
    (let s := { waiting with pkt := [(0, 0x02)], pktLen := 1 }; 0 < s.pktLen ∧ s.read? .pkt 0 = some 0x02 ∧ s.pktLen + 1 < (if (0x02#8 = 0x01) then 128 else 1024) + 5) ∧
    (let s := { waiting with pkt := [(0, 0x01)], pktLen := 131 }; 0 < s.pktLen ∧ s.read? .pkt 0 = some 0x01 ∧ s.pktLen + 1 < (if (0x01#8 = 0x01) then 128 else 1024) + 5) := by decide +kernel
theorem witness_EotClosesAndFinalizes :
    (receiving 5).mode = .engine ∧ (receiving 5).pktLen = 0 ∧ (receiving 5).btState.stages ∧ atEot.btState.stages ∧
    complete.btState = .complete ∧ waiting.mode = .engine ∧ waiting.pktLen = 0 ∧ waiting.btState = .waitHeader ∧
    { waiting with pkt := [(0, 0x01)], pktLen := 131 }.read? .pkt 0 = some 0x01 ∧ 131 + 1 < (if (0x01#8 = 0x01) then 128 else 1024) + 5 :=
  ⟨rfl, rfl, .inl rfl, .inr rfl, rfl, rfl, rfl, rfl, rfl, by decide⟩

/-- The digits of 2^63 - 1. -/
def maxSizeDigits : List Byte :=
  [0x39, 0x32, 0x32, 0x33, 0x33, 0x37, 0x32, 0x30, 0x33, 0x36] ++ [0x38, 0x35, 0x34, 0x37, 0x37, 0x35, 0x38, 0x30, 0x37]

/-- The digits of 2^63. -/
def tooLargeDigits : List Byte :=
  [0x39, 0x32, 0x32, 0x33, 0x33, 0x37, 0x32, 0x30, 0x33, 0x36] ++ [0x38, 0x35, 0x34, 0x37, 0x37, 0x35, 0x38, 0x30, 0x38]

/-- What a header packet in WaitHeader has in common. -/
theorem header_premises {start : Byte} {n : Nat} {data : List Byte} (h : StartsPacket start n) (hd : data.length = n) :
    ∃ (s : State) (b : Byte), StartsPacket start n ∧ data.length = n ∧ s.CompletesPacket b (packet start 0x00 data) ∧
      s.btState = .waitHeader :=
  ⟨collected waiting _, _, h, hd, packet_completes _ _ h hd, rfl⟩

/-- The first clause: the greatest size, followed by a space (B10); and the longest name, with no digit and no padding. -/
theorem witness_HeaderPacketIsReadAsDescribed_opens :
    (∃ name digits rest : List Byte, (name ++ 0x00 :: digits ++ rest).length = 128 ∧ name ≠ [] ∧ (∀ x ∈ name, x ≠ 0x00) ∧
      (∀ x ∈ digits, 0x30 ≤ x.toNat ∧ x.toNat ≤ 0x39) ∧ (∀ x ∈ rest.head?, ¬(0x30 ≤ x.toNat ∧ x.toNat ≤ 0x39)) ∧
      decimalValue digits = 2 ^ 63 - 1 ∧ ∃ (s : State) (b : Byte), StartsPacket 0x01 128 ∧ (name ++ 0x00 :: digits ++ rest).length = 128 ∧
        s.CompletesPacket b (packet 0x01 0x00 (name ++ 0x00 :: digits ++ rest)) ∧ s.btState = .waitHeader) ∧
    (∃ name rest : List Byte, name.length = 1023 ∧ (∀ x ∈ name, x ≠ 0x00) ∧ (∀ x ∈ rest.head?, ¬(0x30 ≤ x.toNat ∧ x.toNat ≤ 0x39)) ∧
      ∃ (s : State) (b : Byte), StartsPacket 0x02 1024 ∧ (name ++ 0x00 :: [] ++ rest).length = 1024 ∧
        s.CompletesPacket b (packet 0x02 0x00 (name ++ 0x00 :: [] ++ rest)) ∧ s.btState = .waitHeader) :=
  ⟨⟨[0x61], maxSizeDigits, 0x20 :: List.replicate 106 0x00, by decide +kernel, by decide, by decide, by decide +kernel, by decide,
      by decide +kernel, header_premises starts_soh (by decide +kernel)⟩,
    ⟨List.replicate 1023 0x61, [], List.length_replicate, fun x hx => by rw [List.eq_of_mem_replicate hx]; decide, by decide,
      header_premises starts_stx (by rw [List.append_nil, List.length_append, List.length_replicate]; rfl)⟩⟩
/-- The other clauses: no NUL (B8), the size 2^63 (B9), and the empty name (B7). -/
theorem witness_HeaderPacketIsReadAsDescribed_others :
    (∃ data : List Byte, (∀ x ∈ data, x ≠ 0x00) ∧ ∃ (s : State) (b : Byte), StartsPacket 0x01 128 ∧ data.length = 128 ∧
      s.CompletesPacket b (packet 0x01 0x00 data) ∧ s.btState = .waitHeader) ∧
    (∃ name digits rest : List Byte, name ≠ [] ∧ (∀ x ∈ name, x ≠ 0x00) ∧ (∀ x ∈ digits, 0x30 ≤ x.toNat ∧ x.toNat ≤ 0x39) ∧
      decimalValue digits = 2 ^ 63 ∧ ∃ (s : State) (b : Byte), StartsPacket 0x01 128 ∧ (name ++ 0x00 :: digits ++ rest).length = 128 ∧
        s.CompletesPacket b (packet 0x01 0x00 (name ++ 0x00 :: digits ++ rest)) ∧ s.btState = .waitHeader) ∧
    (∃ data : List Byte, data.head? = some 0x00#8 ∧ ∃ (s : State) (b : Byte), StartsPacket 0x01 128 ∧ data.length = 128 ∧
      s.CompletesPacket b (packet 0x01 0x00 data) ∧ s.btState = .waitHeader) :=
  ⟨⟨List.replicate 128 0x61, by decide +kernel, header_premises starts_soh (by decide +kernel)⟩,
    ⟨[0x61], tooLargeDigits, List.replicate 107 0x00, by decide, by decide, by decide +kernel, by decide +kernel,
      header_premises starts_soh (by decide +kernel)⟩,
    ⟨pad [], by decide +kernel, header_premises starts_soh (by decide +kernel)⟩⟩
/-- Nothing left to write, the last bytes up to the limit, and one block past it. -/
theorem witness_ExpectedBlockIsWrittenAndAcknowledged :
    (∃ (s : State) (b : Byte) (data : List Byte), StartsPacket 0x01 128 ∧ data.length = 128 ∧
      s.CompletesPacket b (packet 0x01 s.expectedBlk data) ∧ s.btState.stages ∧ s.remaining = 0) ∧
    (∃ (s : State) (b : Byte) (data : List Byte), StartsPacket 0x02 1024 ∧ data.length = 1024 ∧
      s.CompletesPacket b (packet 0x02 s.expectedBlk data) ∧ s.btState.stages ∧ s.remaining.toInt = 5 ∧
      s.writeOffset.toNat + min 1024 s.remaining.toInt.toNat = 2 ^ 63 - 1) ∧
    (∃ (s : State) (b : Byte) (data : List Byte), StartsPacket 0x01 128 ∧ data.length = 128 ∧
      s.CompletesPacket b (packet 0x01 s.expectedBlk data) ∧ s.btState.stages ∧ s.remaining.toInt < 0 ∧
      2 ^ 63 - 1 < s.writeOffset.toNat + 128) :=
  ⟨⟨collected atEot _, _, pad [], starts_soh, by decide +kernel, packet_completes _ 0x01 starts_soh (by decide +kernel), .inr rfl, rfl⟩,
    ⟨collected { receiving 5 with writeOffset := 9223372036854775802 } _, _, List.replicate 1024 0x41, starts_stx, List.length_replicate,
      packet_completes _ 0x01 starts_stx List.length_replicate, .inl rfl, by decide +kernel⟩,
    ⟨collected { receiving (-1) with writeOffset := 9223372036854775680 } _, _, pad [], starts_soh, by decide +kernel,
      packet_completes _ 0x01 starts_soh (by decide +kernel), .inl rfl, by decide +kernel⟩⟩
/-- A resent header: block 0 while block 1 is expected. -/
theorem witness_DuplicateBlockIsAcknowledged :
    ∃ (s : State) (b start : Byte) (n : Nat) (data : List Byte), StartsPacket start n ∧ data.length = n ∧
      s.CompletesPacket b (packet start (s.expectedBlk - 1) data) ∧ s.btState.stages :=
  ⟨collected (receiving 5) _, _, 0x01, 128, pad [0x61, 0x00, 0x35, 0x00], starts_soh, by decide +kernel,
    packet_completes (data := pad [0x61, 0x00, 0x35, 0x00]) _ 0x00 starts_soh (by decide +kernel), .inl rfl⟩
/-- A wrong complement: SOH and 132 bytes 00 (B27), with one NAK still allowed and with none. -/
theorem witness_BadPacketIsRefusedOrEndsTheTransfer_complement :
    ∃ (s u : State) (b : Byte) (p : List Byte), s.CompletesPacket b p ∧ u.CompletesPacket b p ∧ s.btState = .waitHeader ∧
      u.btState = .waitHeader ∧ byteAt p 2 ≠ 0xFF ^^^ byteAt p 1 ∧ s.cfg.maxRetries ≠ .upTo s.retries ∧ u.cfg.maxRetries = .upTo u.retries :=
  ⟨collected { waiting with retries := 1 } (0x01 :: List.replicate 132 0x00), collected { waiting with retries := 2 } (0x01 :: List.replicate 132 0x00),
    _, 0x01 :: List.replicate 132 0x00, collected_completes _ _ (by decide +kernel), collected_completes _ _ (by decide +kernel), rfl, rfl,
    by decide +kernel, by decide +kernel, rfl⟩
/-- A wrong CRC: the last bit of the CRC is turned over (B15). -/
theorem witness_BadPacketIsRefusedOrEndsTheTransfer_crc :
    ∃ (s : State) (b : Byte) (p : List Byte), s.CompletesPacket b p ∧ s.btState.stages ∧
      u16At p (3 + (p.length - 5)) ≠ crc16 ((p.drop 3).take (p.length - 5)) := by
  let d := pad []
  let c := crc16 d ^^^ 0x0001
  have hd : d.length = 128 := by decide +kernel
  let p := ([0x01, 0x01, 0xFE] ++ d) ++ [hiByte c, loByte c]
  have hl : p.length = 133 := by simp [p, hd]
  have hc : u16At p (3 + 128) = c := by
    have h1 : byteAt p (3 + 128) = hiByte c := by
      simp only [byteAt, p]; rw [List.getD_append_right _ _ _ _ (by simp [hd])]; simp [hd]
    have h2 : byteAt p (3 + 128 + 1) = loByte c := by
      simp only [byteAt, p]; rw [List.getD_append_right _ _ _ _ (by simp [hd])]; simp [hd]
    rw [u16At, h1, h2, u16_hiByte_loByte]
  have ht : (p.drop 3).take 128 = d := by
    have : p.drop 3 = d ++ [hiByte c, loByte c] := rfl
    rw [this, List.take_append_of_le_length (by omega), List.take_of_length_le (by omega)]
  refine ⟨collected (receiving 5) p, _, p, collected_completes _ p (by rw [hl]; rfl), .inl rfl, ?_⟩
  rw [hl, hc, ht]
  intro h
  have h1 : crc16 d ^^^ (crc16 d ^^^ 0x0001) = crc16 d ^^^ crc16 d := congrArg (crc16 d ^^^ ·) h
  rw [← BitVec.xor_assoc, BitVec.xor_self, BitVec.zero_xor] at h1
  exact absurd h1 (by decide)
/-- A wrong block number: 1 for a header (B11); the block after the next, and, across the wrap, the one before the previous. -/
theorem witness_BadPacketIsRefusedOrEndsTheTransfer_number :
    (∃ (s : State) (b : Byte) (p : List Byte), s.CompletesPacket b p ∧ s.btState = .waitHeader ∧ byteAt p 1 ≠ 0x00) ∧
    (∃ (s : State) (b : Byte) (p : List Byte), s.CompletesPacket b p ∧ s.btState.stages ∧ byteAt p 1 = s.expectedBlk + 1 ∧
      byteAt p 1 ≠ s.expectedBlk ∧ byteAt p 1 ≠ s.expectedBlk - 1) ∧
    (∃ (s : State) (b : Byte) (p : List Byte), s.CompletesPacket b p ∧ s.btState.stages ∧ byteAt p 1 = 0xFE ∧ s.expectedBlk = 0x00 ∧
      byteAt p 1 ≠ s.expectedBlk ∧ byteAt p 1 ≠ s.expectedBlk - 1) :=
  ⟨⟨collected waiting _, _, _, packet_completes _ 0x01 starts_soh (data := pad []) (by decide +kernel), rfl, by decide +kernel⟩,
    ⟨collected (receiving 5) _, _, _, packet_completes _ 0x02 starts_soh (data := pad []) (by decide +kernel), .inl rfl, by decide +kernel⟩,
    ⟨collected { receiving 5 with expectedBlk := 0x00 } _, _, _, packet_completes _ 0xFE starts_soh (data := pad []) (by decide +kernel),
      .inl rfl, by decide +kernel⟩⟩
theorem witness_DataPacketIsReceivedByteByByte :
    (receiving 5).cfg.valid = true ∧ StartsPacket 0x02 1024 ∧ (List.replicate 1024 0x41#8).length = 1024 ∧ (receiving 5).mode = .engine ∧
    (receiving 5).btState.stages ∧ (receiving 5).pktLen = 0 ∧ (receiving 5).writeOffset.toNat + 5 ≤ 2 ^ 63 - 1 :=
  ⟨by decide, starts_stx, List.length_replicate, rfl, .inl rfl, rfl, by decide +kernel⟩

end Sys2Proof.Tests
end

section
/-!
PROOFS of the scope statements (00_scope.md R12): what a step does with an operation word, said once. A step under a valid
configuration whose next input is an operation word is `runWord` on the word, and `runWord` is decided by what the decoder says.
-/

namespace Sys2Proof.Machine

variable {s : State} {w : Word} {rest : List HostInput}

theorem runWord_of_decode_ok {i : Instr} (h : decode w = .ok i) : runWord w s = exec i s.beginStep := by
  simp [runWord, h]

theorem runWord_of_decode_error {e : DecodeReject} (h : decode w = .error e) :
    runWord w s = s.beginStep.raiseOp .illegalOp := by
  simp [runWord, h]

theorem takeInput_op (h : s.inputs = .op w :: rest) : takeInput s = runWord w { s with inputs := rest } := by
  simp [takeInput, h]

/-- R12: a step consumes exactly the one word at the head of the inputs. -/
theorem step_op (hv : s.cfg.valid = true) (h : s.inputs = .op w :: rest) : step s = runWord w { s with inputs := rest } :=
  (step_of_valid hv).trans (takeInput_op h)

/-- Settles O5: the step is `runWord` on the word at the head of the inputs, and the decoder's answer picks its branch. -/
theorem stepRunsTheDecodedOperation : Obligations.StepRunsTheDecodedOperation := by
  intro s w rest hv hin
  rw [step_op hv hin]
  exact ⟨fun _ => runWord_of_decode_ok, fun _ => runWord_of_decode_error⟩

end Sys2Proof.Machine
end

section
/-!
PROOFS of the state statements, part 1 (10_state.md R34): a step under a configuration outside the bounds is refused.
-/

namespace Sys2Proof.Machine

variable {s : State}

/-- The refusing branch of a step; `step_of_valid` is the other one. -/
theorem step_of_not_valid (h : s.cfg.valid ≠ true) : step s = .refused .badConfiguration := by
  simp [step, runStep, h]

/-- Settles O11: a valid configuration keeps both bounds (`Config.bounds_of_valid`), so one that breaks a bound is not valid. -/
theorem configurationOutOfBoundsIsRefused : Obligations.ConfigurationOutOfBoundsIsRefused := by
  refine ⟨by decide, fun s hout => step_of_not_valid fun hv => ?_⟩
  obtain ⟨_, hcap, _, htimeout⟩ := Config.bounds_of_valid hv
  omega

end Sys2Proof.Machine
end

section
/-!
PROOFS of the state statements, part 2 (10_state.md R33): what the ports show. A status port is built field by field from bit 0
up, so the argument is one step: a field placed above everything shown so far adds its value times its place.
-/

namespace Sys2Proof.Machine

variable {n lo w val : Nat}

/-- The port shows the value `val`, in its bits below `w`. -/
def ShowsBelow (w : Nat) (p : BitVec 64) (val : Nat) : Prop := p.toNat = val ∧ val < 2 ^ w

theorem toNat_placeAt (v : BitVec n) (h : lo + n ≤ 64) : (placeAt lo v).toNat = 2 ^ lo * v.toNat := by
  have hlt : 2 ^ lo * v.toNat < 2 ^ 64 :=
    calc 2 ^ lo * v.toNat < 2 ^ lo * 2 ^ n := Nat.mul_lt_mul_of_pos_left v.isLt (Nat.two_pow_pos lo)
      _ = 2 ^ (lo + n) := (Nat.pow_add 2 lo n).symm
      _ ≤ 2 ^ 64 := Nat.pow_le_pow_right (by decide) h
  rw [placeAt, BitVec.toNat_shiftLeft, BitVec.toNat_setWidth_of_le (by omega), Nat.shiftLeft_eq, Nat.mul_comm,
    Nat.mod_eq_of_lt hlt]

/-- A field at bit 0. -/
theorem showsBelow_placeAt_zero (v : BitVec n) (h : n ≤ 64) : ShowsBelow n (placeAt 0 v) v.toNat :=
  ⟨by simpa using toNat_placeAt (lo := 0) v (by omega), v.isLt⟩

/-- One more field, above the bits shown so far. -/
theorem ShowsBelow.or_placeAt {p : BitVec 64} (hp : ShowsBelow w p val) (v : BitVec n) (hw : w ≤ lo) (h : lo + n ≤ 64) :
    ShowsBelow (lo + n) (p ||| placeAt lo v) (val + 2 ^ lo * v.toNat) := by
  obtain ⟨hval, hlt⟩ := hp
  have hlo : val < 2 ^ lo := Nat.lt_of_lt_of_le hlt (Nat.pow_le_pow_right (by decide) hw)
  constructor
  · rw [BitVec.toNat_or, hval, toNat_placeAt v h, Nat.lor_comm, ← Nat.two_pow_add_eq_or_of_lt hlo, Nat.add_comm]
  · calc val + 2 ^ lo * v.toNat < 2 ^ lo * (v.toNat + 1) := by rw [Nat.mul_add_one]; omega
      _ ≤ 2 ^ lo * 2 ^ n := Nat.mul_le_mul_left _ v.isLt
      _ = 2 ^ (lo + n) := (Nat.pow_add 2 lo n).symm

/-- A length at bit 0, where its bound fits the field's width. -/
theorem toNat_placeAt_ofNat {cap : Nat} (hn : n ≤ 64) (hval : val ≤ cap) (hcap : cap < 2 ^ n) :
    (placeAt 0 (BitVec.ofNat n val)).toNat = val := by
  rw [(showsBelow_placeAt_zero _ hn).1, BitVec.toNat_ofNat, Nat.mod_eq_of_lt (Nat.lt_of_le_of_lt hval hcap)]

variable (s : State)

theorem State.toNat_status_stOp : (s.status .stOp).toNat = s.opErr.code.toNat :=
  (showsBelow_placeAt_zero s.opErr.code (by decide)).1

theorem State.toNat_status_stCk : (s.status .stCk).toNat = s.ckAcc.toNat + 2 ^ 8 * s.c16Acc.toNat :=
  ((showsBelow_placeAt_zero s.ckAcc (by decide)).or_placeAt s.c16Acc (by decide) (by decide)).1

theorem State.toNat_status_stRx :
    (s.status .stRx).toNat = s.rxClass.code.toNat + 2 ^ 2 * s.frameValid.toNat + 2 ^ 3 * s.frameKind.code.toNat +
      2 ^ 4 * s.overrun.toNat + 2 ^ 5 * s.mode.code.toNat + 2 ^ 8 * s.frameErr.code.toNat + 2 ^ 12 * s.pending.toNat := by
  have h := showsBelow_placeAt_zero s.rxClass.code (by decide)
    |>.or_placeAt (lo := 2) (.ofBool s.frameValid) (by decide) (by decide)
    |>.or_placeAt (lo := 3) s.frameKind.code (by decide) (by decide)
    |>.or_placeAt (lo := 4) (.ofBool s.overrun) (by decide) (by decide)
    |>.or_placeAt (lo := 5) s.mode.code (by decide) (by decide)
    |>.or_placeAt (lo := 8) s.frameErr.code (by decide) (by decide)
    |>.or_placeAt (lo := 12) s.pending (by decide) (by decide)
  exact h.1.trans (by simp only [BitVec.toNat_ofBool])

theorem State.toNat_status_stBt :
    (s.status .stBt).toNat = s.btState.code.toNat + 2 ^ 3 * s.stagingOpen.toNat + 2 ^ 4 * s.btStatus.code.toNat +
      2 ^ 8 * s.expectedBlk.toNat + 2 ^ 16 * s.retries.toNat := by
  have h := showsBelow_placeAt_zero s.btState.code (by decide)
    |>.or_placeAt (lo := 3) (.ofBool s.stagingOpen) (by decide) (by decide)
    |>.or_placeAt (lo := 4) s.btStatus.code (by decide) (by decide)
    |>.or_placeAt (lo := 8) s.expectedBlk (by decide) (by decide)
    |>.or_placeAt (lo := 16) s.retries (by decide) (by decide)
  exact h.1.trans (by simp only [BitVec.toNat_ofBool])

theorem State.toNat_status_stIdle : (s.status .stIdle).toNat = s.idleTicks.toNat :=
  (showsBelow_placeAt_zero s.idleTicks (by decide)).1

variable {s} {p : BytePort} {i : Nat}

theorem State.readPort_below {b : Byte} (hi : i < s.len p.array) (hb : s.read? p.array i = some b) : s.readPort p i = b := by
  rw [State.readPort, if_pos hi, State.rd_of_read? s hb]

theorem State.readPort_above (hi : s.len p.array ≤ i) : s.readPort p i = Config.freeByte s.draws p.array i := by
  rw [State.readPort, if_neg (Nat.not_lt.2 hi)]

/-- Settles O23: port by port. A length port shows its length because the bound on it fits the port's width. -/
theorem portsShowTheState : Obligations.PortsShowTheState := by
  intro s
  exact ⟨s.toNat_status_stOp, s.toNat_status_stCk, s.toNat_status_stRx,
    fun hRxLen => toNat_placeAt_ofNat (by decide) hRxLen (by decide),
    fun hFrameLen => toNat_placeAt_ofNat (by decide) hFrameLen (by decide),
    fun hTxLen => toNat_placeAt_ofNat (by decide) hTxLen (by decide), s.toNat_status_stBt,
    fun hPktLen => toNat_placeAt_ofNat (by decide) hPktLen (by decide), s.toNat_status_stIdle, rfl, rfl,
    fun hNameLen => toNat_placeAt_ofNat (by decide) hNameLen (by decide),
    fun _ _ => ⟨fun _ => State.readPort_below, State.readPort_above⟩⟩

end Sys2Proof.Machine
end

section
/-!
PROOFS of the state statements, part 3 (10_state.md R31): the operations of the frame detector and of the block-transfer engine
leave the checksum units alone, shared operation by shared operation, read off the inversion lemmas.
-/

namespace Sys2Proof.Machine

variable {s t : State} {b : Byte}

/-! ### The frame detector -/

theorem State.endBatch_sameChecksumUnits (s : State) (c : RxClass) : s.SameChecksumUnits (s.endBatch c) := by
  rcases s.endBatch_cases c with e | ⟨_, _, e⟩ | ⟨_, e⟩ | ⟨_, _, e⟩
  all_goals rw [e]; exact ⟨rfl, rfl, rfl, rfl⟩

theorem execRxEob_sameChecksumUnits (h : execRxEob s = .next t) : s.SameChecksumUnits t := by
  obtain ⟨_, rfl⟩ := execRxEob_next h
  obtain ⟨hck, hc16, hlen, hbuf⟩ := State.endBatch_sameChecksumUnits { s with rxClass := classify s.rxBytes } (classify s.rxBytes)
  exact ⟨hck, hc16, hlen, hbuf⟩

theorem execRxClassify_sameChecksumUnits (h : execRxClassify s = .next t) : s.SameChecksumUnits t := by
  obtain ⟨_, rfl⟩ := execRxClassify_next h
  exact ⟨rfl, rfl, rfl, rfl⟩

theorem execRxClr_sameChecksumUnits (h : execRxClr s = .next t) : s.SameChecksumUnits t := by
  cases h
  exact ⟨rfl, rfl, rfl, rfl⟩

theorem execFrameTake_sameChecksumUnits (h : execFrameTake s = .next t) : s.SameChecksumUnits t := by
  obtain ⟨_, rfl⟩ | ⟨_, rfl⟩ := execFrameTake_next h
  all_goals exact ⟨rfl, rfl, rfl, rfl⟩

theorem detectorRx_sameChecksumUnits (h : detectorRx b s = .next t) : s.SameChecksumUnits t := by
  obtain ⟨_, rfl⟩ | ⟨_, rfl⟩ := detectorRx_next h
  all_goals exact ⟨rfl, rfl, rfl, rfl⟩

/-! ### The block-transfer engine -/

theorem execBtStart_sameChecksumUnits (h : execBtStart s = .next t) : s.SameChecksumUnits t := by
  obtain ⟨_, rfl⟩ | ⟨_, rfl⟩ := execBtStart_next h
  all_goals exact ⟨rfl, rfl, rfl, rfl⟩

theorem execTick_sameChecksumUnits (h : execTick s = .next t) : s.SameChecksumUnits t := by
  obtain ⟨_, rfl⟩ | ⟨_, _, rfl⟩ | ⟨_, _, rfl⟩ := execTick_next h
  all_goals exact ⟨rfl, rfl, rfl, rfl⟩

theorem State.badPacket_sameChecksumUnits (s : State) : s.SameChecksumUnits s.badPacket := by
  rcases s.badPacket_cases with ⟨_, e⟩ | ⟨_, e⟩
  all_goals rw [e]; exact ⟨rfl, rfl, rfl, rfl⟩

theorem onData_sameChecksumUnits {data : List Byte} (h : onData data s = .next t) : s.SameChecksumUnits t := by
  rcases onData_cases data s with ⟨e, _⟩ | ⟨e, _⟩
  · cases e.symm.trans h
  · cases e.symm.trans h
    exact ⟨rfl, rfl, rfl, rfl⟩

theorem onPacket_sameChecksumUnits {n : Nat} (h : onPacket n s = .next t) : s.SameChecksumUnits t := by
  rcases onPacket_cases n s with ⟨e, _⟩ | e | ⟨e, _⟩ | ⟨_, _, _, _, _, e, _⟩ | ⟨e, _⟩ | ⟨e, _⟩
  · cases e.symm.trans h
  · cases e.symm.trans h; exact s.badPacket_sameChecksumUnits
  · cases e.symm.trans h; exact ⟨rfl, rfl, rfl, rfl⟩
  · cases e.symm.trans h; exact ⟨rfl, rfl, rfl, rfl⟩
  · exact onData_sameChecksumUnits (e.symm.trans h)
  · cases e.symm.trans h; exact ⟨rfl, rfl, rfl, rfl⟩

theorem engineRx_sameChecksumUnits (h : engineRx b s = .next t) : s.SameChecksumUnits t := by
  rcases engineRx_cases b s with ⟨_, _, e⟩ | ⟨_, _, _, e⟩ | ⟨_, e⟩ | ⟨_, _, e⟩ | ⟨_, _, _, e⟩ | ⟨_, _, _, e⟩
  · cases e.symm.trans h; exact ⟨rfl, rfl, rfl, rfl⟩
  · cases e.symm.trans h; exact ⟨rfl, rfl, rfl, rfl⟩
  · cases e.symm.trans h; exact ⟨rfl, rfl, rfl, rfl⟩
  · cases e.symm.trans h
  · cases e.symm.trans h; exact ⟨rfl, rfl, rfl, rfl⟩
  · obtain ⟨hck, hc16, hlen, hbuf⟩ := onPacket_sameChecksumUnits (e.symm.trans h)
    exact ⟨hck, hc16, hlen, hbuf⟩

theorem execRxByte_sameChecksumUnits (h : execRxByte b s = .next t) : s.SameChecksumUnits t := by
  unfold execRxByte at h
  split at h
  · exact engineRx_sameChecksumUnits h
  · exact detectorRx_sameChecksumUnits h

/-! ### The accumulators under every operation -/

theorem State.SameChecksumUnits.accumulators {p q : Prop} (h : s.SameChecksumUnits t) :
    (t.ckAcc = s.ckAcc ∨ p) ∧ (t.c16Acc = s.c16Acc ∨ q) :=
  ⟨.inl h.ckAcc, .inl h.c16Acc⟩

/-- An operation leaves each accumulator as it was, unless it is one of the accumulator's own two (R31). -/
theorem exec_accumulators {i : Instr} (h : exec i s = .next t) :
    (t.ckAcc = s.ckAcc ∨ i = .ckClr ∨ ∃ b, i = .ckAcc b) ∧ (t.c16Acc = s.c16Acc ∨ i = .c16Clr ∨ ∃ b, i = .c16Acc b) := by
  cases i with
  | ckClr => cases h; exact ⟨.inr (.inl rfl), .inl rfl⟩
  | ckAcc b => cases h; exact ⟨.inr (.inr ⟨b, rfl⟩), .inl rfl⟩
  | c16Clr => cases h; exact ⟨.inl rfl, .inr (.inl rfl)⟩
  | c16Acc b => cases h; exact ⟨.inl rfl, .inr (.inr ⟨b, rfl⟩)⟩
  | nop => cases h; exact ⟨.inl rfl, .inl rfl⟩
  | txClr => cases h; exact ⟨.inl rfl, .inl rfl⟩
  | txByte b =>
    obtain ⟨_, rfl⟩ | ⟨_, rfl⟩ := execTxByte_next h
    all_goals exact ⟨.inl rfl, .inl rfl⟩
  | txSeal =>
    obtain ⟨_, rfl⟩ | ⟨_, _, rfl⟩ := execTxSeal_next h
    all_goals exact ⟨.inl rfl, .inl rfl⟩
  | rxByte b => exact (execRxByte_sameChecksumUnits h).accumulators
  | rxEob => exact (execRxEob_sameChecksumUnits h).accumulators
  | rxClassify => exact (execRxClassify_sameChecksumUnits h).accumulators
  | rxClr => exact (execRxClr_sameChecksumUnits h).accumulators
  | frameTake => exact (execFrameTake_sameChecksumUnits h).accumulators
  | btStart => exact (execBtStart_sameChecksumUnits h).accumulators
  | tick => exact (execTick_sameChecksumUnits h).accumulators

end Sys2Proof.Machine
end

section
/-!
PROOFS of the state statements, part 4 (10_state.md R31): the engine and the detector do not use `c16_acc`. Every operation that
RX_BYTE, BT_START and TICK are made of commutes with setting that register. An operation that is one record update commutes by
`rfl`; a branch commutes because its condition reads other fields, so the setting can be moved into its arms (`apply_ite`).
-/

namespace Sys2Proof.Machine

/-- `c16_acc` set to `x`. -/
def State.withC16 (x : Word) (s : State) : State := { s with c16Acc := x }

variable (x : Word) (b : Byte) (s : State)

/-! ### The frame detector -/

theorem detectorRx_withC16 : detectorRx b (s.withC16 x) = mapNext (State.withC16 x) (detectorRx b s) := by
  unfold detectorRx
  rw [apply_ite (mapNext _), apply_ite (mapNext _)]
  rfl

/-! ### The block-transfer engine -/

theorem State.badPacket_withC16 : (s.withC16 x).badPacket = s.badPacket.withC16 x := by
  unfold State.badPacket
  rw [apply_ite (State.withC16 x)]
  rfl

theorem State.onHeader_withC16 (data : List Byte) : (s.withC16 x).onHeader data = (s.onHeader data).withC16 x := by
  unfold State.onHeader
  rcases headerName? data with _ | _ | ⟨c, cs⟩
  · exact s.badPacket_withC16 x
  · rfl
  · dsimp only
    cases headerSize data (c :: cs).length with
    | tooLarge => exact s.badPacket_withC16 x
    | notDeclared => rfl
    | declared v => rfl

theorem onData_withC16 (data : List Byte) : onData data (s.withC16 x) = mapNext (State.withC16 x) (onData data s) := by
  unfold onData
  rw [apply_ite (mapNext _)]
  rfl

/-- Neither the state nor the block number that decides the case is `c16_acc` (R207). -/
theorem dispatchPacket_withC16 (blk : Byte) (data : List Byte) :
    dispatchPacket blk data (s.withC16 x) = mapNext (State.withC16 x) (dispatchPacket blk data s) := by
  have hst : (s.withC16 x).btState = s.btState := rfl
  have hblk : (s.withC16 x).expectedBlk = s.expectedBlk := rfl
  unfold dispatchPacket
  rw [hst]
  cases s.btState with
  | idle => rfl
  | complete => rfl
  | waitHeader =>
    simp only [State.badPacket_withC16, State.onHeader_withC16, apply_ite (mapNext _)]
    rfl
  | receivingData | waitEot =>
    simp only [hblk, State.badPacket_withC16, onData_withC16, apply_ite (mapNext _)]
    rfl

theorem onPacket_withC16 (n : Nat) : onPacket n (s.withC16 x) = mapNext (State.withC16 x) (onPacket n s) := by
  unfold onPacket
  rw [apply_ite (mapNext _), ← dispatchPacket_withC16, State.badPacket_withC16]
  rfl

theorem packetByte_withC16 : packetByte b (s.withC16 x) = mapNext (State.withC16 x) (packetByte b s) := by
  unfold packetByte
  rw [apply_ite (mapNext _), apply_ite (mapNext _), ← onPacket_withC16]
  rfl

theorem betweenPackets_withC16 : betweenPackets b (s.withC16 x) = mapNext (State.withC16 x) (betweenPackets b s) := by
  unfold betweenPackets
  rw [apply_ite (mapNext _), apply_ite (mapNext _)]
  rfl

theorem engineRx_withC16 : engineRx b (s.withC16 x) = mapNext (State.withC16 x) (engineRx b s) := by
  unfold engineRx
  rw [apply_ite (mapNext _), ← betweenPackets_withC16, ← packetByte_withC16]
  rfl

/-! ### The three operations -/

theorem execRxByte_withC16 : execRxByte b (s.withC16 x) = mapNext (State.withC16 x) (execRxByte b s) := by
  have hm : (s.withC16 x).mode = s.mode := rfl
  unfold execRxByte
  rw [hm]
  cases s.mode with
  | engine => exact engineRx_withC16 x b s
  | detector => exact detectorRx_withC16 x b s

theorem execBtStart_withC16 : execBtStart (s.withC16 x) = mapNext (State.withC16 x) (execBtStart s) := by
  unfold execBtStart
  rw [apply_ite (mapNext _)]
  rfl

theorem execTick_withC16 : execTick (s.withC16 x) = mapNext (State.withC16 x) (execTick s) := by
  unfold execTick
  rw [apply_ite (mapNext _), apply_ite (mapNext _)]
  rfl

/-- Settles O20: the frame of the accumulators under every operation, the commutation of the engine's operations with setting
`c16_acc`, and the port ST_CK. -/
theorem accumulatorsAreIndependent : Obligations.AccumulatorsAreIndependent := by
  refine ⟨fun i s t h => ?_, fun i s x hi => ?_, State.toNat_status_stCk⟩
  · obtain ⟨hck, hc16⟩ := exec_accumulators h
    exact ⟨hck.resolve_left, hc16.resolve_left⟩
  · obtain rfl | rfl | ⟨b, rfl⟩ := hi
    · exact execBtStart_withC16 x s
    · exact execTick_withC16 x s
    · exact execRxByte_withC16 x b s

end Sys2Proof.Machine
end

section
/-!
PROOFS of the encoding statements, part 1 (30_encoding.md R80 to R83): decode and encode agree. A word is its two bytes
(`opcOf_append_immOf`), so everything is said of `decodeFields`: the opcode alone picks the operation, and the mask of the
operation says what its `imm8` has to be.
-/

namespace Sys2Proof

variable {i : Instr} {w : Word} {opc b : Byte}

/-! ### The two bytes of a word -/

@[simp] theorem decode_append (opc b : Byte) : decode (opc ++ b) = decodeFields opc b := by
  rw [decode, opcOf_append, immOf_append]

/-- Every operation depends on the whole of `opc` (R82). -/
@[simp] theorem Instr.opcOf_wordMask (i : Instr) : opcOf i.wordMask = 0xFF := by
  cases i <;> simp [Instr.wordMask, opcOf]

/-- Agreeing with an encoding under the operation's mask, byte by byte. -/
theorem append_and_wordMask_eq_encode_iff :
    (opc ++ b : Word) &&& i.wordMask = encode i ↔ opc = i.opc ∧ b &&& immOf i.wordMask = i.imm8 := by
  have hopc : opc &&& 0xFF = opc := BitVec.and_allOnes
  have hand : (opc ++ b : Word) &&& i.wordMask = opc ++ (b &&& immOf i.wordMask) := by
    rw [← opcOf_append_immOf i.wordMask, BitVec.and_append, i.opcOf_wordMask, immOf_append, hopc]
  rw [hand, encode]
  exact ⟨append_inj, fun ⟨ho, hb⟩ => by rw [ho, hb]⟩

/-! ### The opcode and the operand of a decoded operation -/

/-- Only an operation's own opcode decodes to it (R82). -/
theorem eq_opc_of_decodeFields (h : decodeFields opc b = .ok i) : opc = i.opc := by
  unfold decodeFields at h
  split at h
  case h_16 => cases h
  all_goals cases h; rfl

theorem decodeFields_opc_imm8 (i : Instr) : decodeFields i.opc i.imm8 = .ok i := by
  cases i <;> rfl

/-- Under its own opcode an operation meets its operand in `imm8`, or any byte where it takes none (R81). -/
theorem decodeFields_opc_eq_ok_iff : decodeFields i.opc b = .ok i ↔ b &&& immOf i.wordMask = i.imm8 := by
  cases i with
  | ckAcc c | c16Acc c | rxByte c | txByte c =>
    have hmask : b &&& immOf 0xFFFF#16 = b := BitVec.and_allOnes
    simp [decodeFields, Instr.opc, Instr.wordMask, Instr.imm8, hmask]
  | nop | ckClr | c16Clr | rxEob | rxClassify | rxClr | frameTake | txClr | txSeal | btStart | tick =>
    exact iff_of_true rfl BitVec.and_zero

/-- The words of an operation are those its mask selects (R81). -/
theorem decode_eq_ok_iff : decode w = .ok i ↔ w &&& i.wordMask = encode i := by
  obtain ⟨opc, b, rfl⟩ := exists_append w
  rw [decode_append, append_and_wordMask_eq_encode_iff, ← decodeFields_opc_eq_ok_iff]
  constructor
  · intro h
    obtain rfl := eq_opc_of_decodeFields h
    exact ⟨rfl, h⟩
  · rintro ⟨rfl, h⟩
    exact h

theorem decode_encode (i : Instr) : decode (encode i) = .ok i :=
  (decode_append _ _).trans (decodeFields_opc_imm8 i)

/-- Settles O2: the encoding decodes to the operation, and the operation's mask selects its words. -/
theorem decodeInvertsEncode : Obligations.DecodeInvertsEncode :=
  fun i _ => ⟨decode_encode i, fun _ => decode_eq_ok_iff⟩

end Sys2Proof
end

section
/-!
PROOFS of the encoding statements, part 2 (30_encoding.md R84): an illegal opcode takes the pre-step and raises ILLEGAL_OP. An
opcode that decodes to an operation is that operation's own, and none of the fifteen lies in the ranges of R84.
-/

namespace Sys2Proof

open Machine

/-- The opcodes R84 lists as illegal. -/
def IllegalOpcode (opc : Byte) : Prop :=
  (0x03 ≤ opc.toNat ∧ opc.toNat ≤ 0x07) ∨ (0x0A ≤ opc.toNat ∧ opc.toNat ≤ 0x0F) ∨ (0x15 ≤ opc.toNat ∧ opc.toNat ≤ 0x1F) ∨
    (0x23 ≤ opc.toNat ∧ opc.toNat ≤ 0x2F) ∨ (0x32 ≤ opc.toNat ∧ opc.toNat ≤ 0xFF)

theorem Instr.not_illegalOpcode_opc (i : Instr) : ¬ IllegalOpcode i.opc := by
  unfold IllegalOpcode
  cases i <;> simp [Instr.opc]

theorem exists_decode_error_of_illegalOpcode {opc : Byte} (h : IllegalOpcode opc) (b : Byte) :
    ∃ e, decode (opc ++ b) = .error e := by
  cases hd : decode (opc ++ b) with
  | error e => exact ⟨e, rfl⟩
  | ok i =>
    rw [decode_append] at hd
    exact absurd (eq_opc_of_decodeFields hd ▸ h) i.not_illegalOpcode_opc

/-- Settles O6: the word is rejected, so the step is the pre-step and the error, and the pre-step has emptied the event list. -/
theorem illegalOpcodesOnlyRaise : Obligations.IllegalOpcodesOnlyRaise := by
  intro s opc b rest hv hin hill
  obtain ⟨e, he⟩ := exists_decode_error_of_illegalOpcode hill b
  refine ⟨_, ?_, rfl, State.beginStep_events _⟩
  rw [step_op hv hin, runWord_of_decode_error he, State.raiseOp_eq]

end Sys2Proof
end

section
/-!
PROOFS of the checksum statements, part 1 (40_checksum.md R120): the XOR fold is a left fold of a commutative, associative
operation, and a byte next to its double vanishes from it.
-/

namespace Sys2Proof.Machine

variable (f g h : List Byte) (b : Byte)

@[simp] theorem xor8_nil : xor8 [] = 0x00 := rfl

/-- The recurrence of R120. -/
theorem xor8_append_singleton : xor8 (f ++ [b]) = xor8 f ^^^ b := by
  rw [xor8, List.foldl_append]
  rfl

theorem xor8_cons_cons_self : xor8 (b :: b :: f) = xor8 f := by
  have hb : (0x00 : Byte) ^^^ b ^^^ b = 0x00 := by rw [BitVec.xor_assoc, BitVec.xor_self, BitVec.xor_zero]
  rw [xor8, List.foldl_cons, List.foldl_cons, hb, xor8]

theorem xor8_eq_of_perm {f g : List Byte} (hp : f.Perm g) : xor8 f = xor8 g := hp.foldl_eq _

/-- Two occurrences of a byte can be brought to the front. -/
theorem perm_cons_cons_of_append : (f ++ [b] ++ g ++ [b] ++ h).Perm (b :: b :: (f ++ g ++ h)) := by
  have hfirst : (f ++ [b] ++ g).Perm (b :: (f ++ g)) := by simp
  calc f ++ [b] ++ g ++ [b] ++ h = f ++ [b] ++ g ++ b :: h := by simp
    List.Perm _ (b :: (f ++ [b] ++ g ++ h)) := List.perm_middle
    List.Perm _ (b :: b :: (f ++ g ++ h)) := (hfirst.append_right h).cons b

/-- Settles O24: the order does not matter, so the two occurrences of a byte can be moved next to each other, where they cancel. -/
theorem xorFoldIgnoresOrderAndCancelsPairs : Obligations.XorFoldIgnoresOrderAndCancelsPairs :=
  ⟨xor8_nil, xor8_append_singleton, fun _ _ => xor8_eq_of_perm,
    fun f g h b => (xor8_eq_of_perm (perm_cons_cons_of_append f g h b)).trans (xor8_cons_cons_self (f ++ g ++ h) b)⟩

end Sys2Proof.Machine
end

section
/-!
PROOFS of the checksum statements, part 2 (40_checksum.md R122 to R124): the accumulator. Issuing an operation runs its rule after
the pre-step. Where a pre-step has run, the next one has nothing left to do (`PreStepDone`), so a run of CK_ACC has a closed form:
only the accumulator and the draw counter move.
-/

namespace Sys2Proof.Machine

variable {s t : State} {i : Instr}

/-! ### Issuing operations -/

theorem encodes_of_decodeFields {opc : Byte} {i : Byte → Instr} (h : ∀ b, decodeFields opc b = .ok (i b)) : Encodes opc i :=
  fun b => (decode_append opc b).trans (h b)

theorem State.withFetchWord_encode (s : State) (i : Instr) :
    s.withFetchWord 16 (encode i).toNat = { s with inputs := .op (encode i) :: s.inputs } := by
  rw [State.withFetchWord, State.issueFirst, Nat.mod_eq_of_lt (encode i).isLt, BitVec.ofNat_toNat, BitVec.setWidth_eq]

/-- Issuing an operation runs its rule on the state after the pre-step (R12). -/
theorem issue_of_valid (hv : s.cfg.valid = true) (i : Instr) : issue i s = exec i s.beginStep := by
  have hstep : step { s with inputs := .op (encode i) :: s.inputs } = runWord (encode i) s := step_op hv rfl
  rw [issue, s.withFetchWord_encode, hstep, runWord_of_decode_ok (decode_encode i)]

theorem issueAll_cons_of_next (h : issue i s = .next t) (is : List Instr) : issueAll (i :: is) s = issueAll is t := by
  rw [issueAll, h]

/-! ### After the pre-step -/

/-- The pre-step has nothing to clear and nowhere to go (R272). -/
structure State.PreStepDone (s : State) : Prop where
  btState : s.btState ≠ .complete
  opErr : s.opErr = .none
  events : s.events = []

theorem State.preStepDone_beginStep (s : State) : s.beginStep.PreStepDone where
  btState := by
    rw [s.beginStep_btState]
    split
    · decide
    · assumption
  opErr := s.beginStep_opErr
  events := s.beginStep_events

theorem State.PreStepDone.beginStep (h : s.PreStepDone) : s.beginStep = { s with draws := s.draws + 1 } := by
  rw [s.beginStep_of_ne h.btState, State.openStep, ← h.opErr, ← h.events]

/-! ### NOP -/

/-- Settles O26: the step of a NOP word is the pre-step. -/
theorem nopLeavesOnlyThePreStep : Obligations.NopLeavesOnlyThePreStep := by
  have hdecode : Encodes 0x00 fun _ => .nop := encodes_of_decodeFields fun _ => rfl
  refine ⟨hdecode, fun _ => rfl, fun s b rest hv hin => ?_⟩
  have hstep : step s = .next ({ s with inputs := rest } : State).beginStep :=
    (step_op hv hin).trans (runWord_of_decode_ok (hdecode b))
  refine ⟨_, hstep, State.beginStep_ckAcc _, State.beginStep_opErr _, State.beginStep_events _, fun hc => ?_, fun hc => ?_⟩
  · rw [State.beginStep_btState, State.beginStep_mode, if_pos hc, if_pos hc]
    exact ⟨rfl, rfl⟩
  · rw [State.beginStep_btState, State.beginStep_mode, if_neg hc, if_neg hc]
    exact ⟨rfl, rfl⟩

/-! ### CK_CLR and CK_ACC -/

/-- CK_ACC over a sequence continues the fold from the accumulator. -/
theorem issueAll_ckBytes (f : List Byte) (hv : s.cfg.valid = true) (hd : s.PreStepDone) :
    issueAll (Asm.ckBytes f) s = .next { s with ckAcc := f.foldl (· ^^^ ·) s.ckAcc, draws := s.draws + f.length } := by
  induction f generalizing s with
  | nil => rfl
  | cons b f ih =>
    have hb : issue (.ckAcc b) s = .next { s with ckAcc := s.ckAcc ^^^ b, draws := s.draws + 1 } := by
      rw [issue_of_valid hv, hd.beginStep]
      rfl
    calc issueAll (Asm.ckBytes (b :: f)) s
        = issueAll (Asm.ckBytes f) { s with ckAcc := s.ckAcc ^^^ b, draws := s.draws + 1 } := issueAll_cons_of_next hb _
      _ = _ := ih hv ⟨hd.btState, hd.opErr, hd.events⟩
      _ = _ := by rw [List.foldl_cons, List.length_cons, Nat.add_assoc, Nat.add_comm 1]

/-- R124: CK_CLR and then CK_ACC over a sequence leave the state after the pre-step with the sequence's fold. -/
theorem issueAll_ckClr_ckBytes (f : List Byte) (hv : s.cfg.valid = true) :
    issueAll (.ckClr :: Asm.ckBytes f) s = .next { s.beginStep with ckAcc := xor8 f, draws := s.beginStep.draws + f.length } := by
  have hclr : issue .ckClr s = .next { s.beginStep with ckAcc := 0x00 } := issue_of_valid hv _
  obtain ⟨hst, herr, hev⟩ := s.preStepDone_beginStep
  have hv' : s.beginStep.cfg.valid = true := by rwa [s.beginStep_cfg]
  exact (issueAll_cons_of_next hclr _).trans (issueAll_ckBytes f hv' ⟨hst, herr, hev⟩)

/-- Settles O27: the rules of the two operations as they stand, and the closed form of a run of them. -/
theorem xorAccumulatorFoldsBytes : Obligations.XorAccumulatorFoldsBytes := by
  refine ⟨encodes_of_decodeFields fun _ => rfl, encodes_of_decodeFields fun _ => rfl, fun _ => rfl, fun _ _ => rfl,
    fun s f hv => ⟨_, issueAll_ckClr_ckBytes f hv, rfl, s.beginStep_opErr, ?_, s.beginStep_txLen, s.beginStep_read?⟩⟩
  constructor <;> simp

end Sys2Proof.Machine
end

section
/-!
PROOFS of the checksum statements, part 3 (40_checksum.md R125 to R127): the transmit buffer. TX_BYTE and TX_SEAL store one byte;
what such a store does to later reads is said of `StoredOnly`, and the properties of TX_SEAL follow from that alone.
-/

namespace Sys2Proof.Machine

variable {s t : State} {a : ArrayId} {lo : Nat} {b : Byte}

/-! ### One stored byte -/

/-- A write to one memory stores one byte. -/
theorem State.storedOnly_of_write (hmem : t.mem a = (s.mem a).write lo b) (hother : ∀ x, x ≠ a → t.mem x = s.mem x) :
    s.StoredOnly t a lo [b] := by
  intro x i
  rw [State.read?, State.read?]
  by_cases hx : x = a
  · subst hx
    rw [hmem, Memory.read?_write]
    by_cases hi : i = lo
    · simp [hi]
    · rw [if_neg hi, if_neg (by simp; omega)]
  · rw [hother x hx, if_neg fun h => hx h.1]

theorem State.StoredOnly.read?_eq (h : s.StoredOnly t a lo [b]) : t.read? a lo = some b := by
  rw [h a lo]
  simp

theorem State.StoredOnly.rd_eq (h : s.StoredOnly t a lo [b]) : t.rd a lo = b := State.rd_of_read? t h.read?_eq

/-- The bytes below the store, unwritten ones included, as long as the free draws are the same. -/
theorem State.StoredOnly.bytes_below {bs : List Byte} (h : s.StoredOnly t a lo bs) (hdraws : t.draws = s.draws) :
    t.bytes a 0 lo = s.bytes a 0 lo := by
  refine State.bytes_congr fun k hk => ?_
  rw [State.rd, State.rd, h a (0 + k), if_neg (by omega), hdraws]

/-- Storing what is already there changes no byte. -/
theorem State.StoredOnly.sameMemory (h : s.StoredOnly t a lo [b]) (hb : s.read? a lo = some b) : s.SameMemory t := by
  intro x i
  rw [h x i]
  split
  next hxi =>
    obtain ⟨rfl, hle, hlt⟩ := hxi
    obtain rfl : i = lo := by rw [List.length_singleton] at hlt; omega
    simp [hb]
  next => rfl

/-- A write to `txbuf`, whatever happens to `tx_len`. -/
theorem State.storedOnly_txbuf (s : State) (lo n : Nat) (b : Byte) :
    s.StoredOnly { s with txbuf := s.txbuf.write lo b, txLen := n } .txbuf lo [b] := by
  refine State.storedOnly_of_write rfl fun x hx => ?_
  cases x with
  | txbuf => exact absurd rfl hx
  | rxbuf | frame | pkt | targetName => rfl

/-! ### TX_CLR and TX_BYTE -/

theorem execTxByte_of_full (h : s.txLen = s.cfg.txbufCap) (b : Byte) : execTxByte b s = .next { s with opErr := .txOverflow } := by
  rw [execTxByte, if_pos h, State.raiseOp_eq]

theorem execTxByte_of_lt (h : s.txLen < s.cfg.txbufCap) (b : Byte) :
    execTxByte b s = .next { s with txbuf := s.txbuf.write s.txLen b, txLen := s.txLen + 1 } := by
  rw [execTxByte, if_neg (Nat.ne_of_lt h), if_pos h, State.done_eq]

/-- Settles O28: case by case of TX_BYTE, whose append is one stored byte. -/
theorem transmitBufferClearsAndAppends : Obligations.TransmitBufferClearsAndAppends :=
  ⟨encodes_of_decodeFields fun _ => rfl, encodes_of_decodeFields fun _ => rfl, fun _ => rfl, fun _ b h => execTxByte_of_full h b,
    fun s b h => ⟨_, execTxByte_of_lt h b, rfl, s.storedOnly_txbuf s.txLen (s.txLen + 1) b⟩⟩

/-! ### TX_SEAL -/

theorem execTxSeal_of_lt (h : s.txLen < minTxLen) : execTxSeal s = .next { s with opErr := .txUndersized } := by
  rw [execTxSeal, if_pos h, State.raiseOp_eq]

theorem execTxSeal_of_le (hmin : minTxLen ≤ s.txLen) (hcap : s.txLen ≤ s.cfg.txbufCap) :
    execTxSeal s = .next { s with txbuf := s.txbuf.write (s.txLen - 1) (xor8 (s.bytes .txbuf 0 (s.txLen - 1))) } := by
  rw [execTxSeal, if_neg (Nat.not_lt.2 hmin), if_pos hcap, State.done_eq]

/-- What TX_SEAL changes: the last byte becomes the checksum of the others (R127). -/
theorem execTxSeal_stores (hmin : minTxLen ≤ s.txLen) (hcap : s.txLen ≤ s.cfg.txbufCap) :
    ∃ t, execTxSeal s = .next t ∧ t.regs = s.regs ∧
      s.StoredOnly t .txbuf (s.txLen - 1) [xor8 (s.bytes .txbuf 0 (s.txLen - 1))] :=
  ⟨_, execTxSeal_of_le hmin hcap, rfl, s.storedOnly_txbuf (s.txLen - 1) s.txLen _⟩

/-- Settles O29: the store is above the bytes it is computed from, so it leaves them and their fold alone, and a second TX_SEAL
stores the byte that is already there. -/
theorem sealWritesTheChecksum : Obligations.SealWritesTheChecksum := by
  refine ⟨encodes_of_decodeFields fun _ => rfl, fun s h => execTxSeal_of_lt h, fun s hmin hcap => ?_⟩
  obtain ⟨t, hexec, hregs, hstore⟩ := execTxSeal_stores hmin hcap
  have hlen : t.txLen = s.txLen := (congrArg State.txLen hregs :)
  have hcfg : t.cfg = s.cfg := (congrArg State.cfg hregs :)
  have hbytes : t.bytes .txbuf 0 (s.txLen - 1) = s.bytes .txbuf 0 (s.txLen - 1) :=
    hstore.bytes_below (congrArg State.draws hregs :)
  obtain ⟨u, hexec', hregs', hstore'⟩ := execTxSeal_stores (hmin.trans_eq hlen.symm) (by rwa [hlen, hcfg])
  rw [hlen, hbytes] at hstore'
  refine ⟨t, hexec, hregs, hstore, ?_, u, hexec', hregs', hstore'.sameMemory hstore.read?_eq⟩
  rw [hlen, hbytes, hstore.rd_eq]

end Sys2Proof.Machine
end

section
/-!
PROOFS of the frame detector statements, part 1 (41_frame_detector.md R155): classify compares the buffer's length with one total,
which is 5 after the sentinel byte and is given by the length field elsewhere. `byLength` is that comparison.
-/

namespace Sys2Proof.Machine

variable {f : List Byte} {n total : Nat} {whole : RxClass}

/-- The class of a buffer of length `n`, where a frame has length `total` and is of the class `whole`. -/
def RxClass.byLength (n total : Nat) (whole : RxClass) : RxClass :=
  if n < total then .incomplete else if n = total then whole else .malformed

theorem RxClass.byLength_of_lt (h : n < total) : byLength n total whole = .incomplete := if_pos h

theorem RxClass.byLength_of_eq (h : n = total) : byLength n total whole = whole := by
  rw [byLength, if_neg (by omega), if_pos h]

theorem RxClass.byLength_of_gt (h : total < n) : byLength n total whole = .malformed := by
  rw [byLength, if_neg (by omega), if_neg (by omega)]

@[simp] theorem byteAt_cons_zero (b : Byte) (f : List Byte) : byteAt (b :: f) 0 = b := rfl

theorem classify_notifyEvents_cons (f : List Byte) :
    classify (notifyEvents :: f) = .byLength (notifyEvents :: f).length notifyLen .notification := by
  rw [classify, if_neg (by simp), if_pos (byteAt_cons_zero _ f), RxClass.byLength]

theorem byteAt_zero_ne (h0 : f.length ≠ 0) {b : Byte} (hb : f.head? ≠ some b) : byteAt f 0 ≠ b := by
  cases f with
  | nil => exact absurd rfl h0
  | cons c f => simpa using hb

theorem classify_of_short (hlen : f.length < respHdrLen) (hhead : f.head? ≠ some notifyEvents) : classify f = .incomplete := by
  by_cases h0 : f.length = 0
  · rw [classify, if_pos h0]
  · rw [classify, if_neg h0, if_neg (byteAt_zero_ne h0 hhead), if_pos hlen]

theorem classify_of_header (hlen : respHdrLen ≤ f.length) (hhead : f.head? ≠ some notifyEvents) :
    classify f = .byLength f.length (respOverhead + (u16At f 4).toNat) .response := by
  have h0 : f.length ≠ 0 := Nat.ne_of_gt (Nat.lt_of_lt_of_le (by decide) hlen)
  rw [classify, if_neg h0, if_neg (byteAt_zero_ne h0 hhead), if_neg (Nat.not_lt.2 hlen), RxClass.byLength]

/-- Settles O31: each of the two kinds of buffer has its total, and `byLength` has the three cases. -/
theorem classifyFollowsTheLengthFields : Obligations.ClassifyFollowsTheLengthFields := by
  refine ⟨rfl, fun f => ?_, fun f => classify_of_short, fun b0 b1 b2 b3 b4 b5 f hb0 => ?_⟩
  · rw [show (0x20#8 : Byte) = notifyEvents from rfl, classify_notifyEvents_cons]
    exact ⟨RxClass.byLength_of_lt, RxClass.byLength_of_eq, RxClass.byLength_of_gt⟩
  · intro buf total
    have hclass : classify buf = .byLength buf.length total .response := by
      have htotal : respOverhead + (u16At buf 4).toNat = total := congrArg (7 + ·) (toNat_u16 b4 b5)
      rw [← htotal]
      exact classify_of_header (Nat.le_add_left 6 f.length) fun h => hb0 (Option.some.inj h)
    rw [hclass]
    exact ⟨RxClass.byLength_of_lt, RxClass.byLength_of_eq, RxClass.byLength_of_gt⟩

end Sys2Proof.Machine
end

section
/-!
PROOFS of the frame detector statements, part 2 (41_frame_detector.md R156, R157): the two validations, read on a frame written out
byte by byte, with the tests as membership and equality of the frame's own bytes.
-/

namespace Sys2Proof.Machine

variable {c : Config}

/-! ### The tests -/

@[simp] theorem trailer_append_singleton (f : List Byte) (b : Byte) : trailer (f ++ [b]) = b := by
  simp [trailer, byteAt]

@[simp] theorem body_append_singleton (f : List Byte) (b : Byte) : body (f ++ [b]) = f := by
  simp [body]

theorem u16_eq_ofNat (hi lo : Byte) : u16 hi lo = BitVec.ofNat 16 (256 * hi.toNat + lo.toNat) := by
  rw [← toNat_u16, BitVec.ofNat_toNat, BitVec.setWidth_eq]

theorem u16_eq_notifyPayloadLen_iff {hi lo : Byte} : u16 hi lo = notifyPayloadLen ↔ hi = 0 ∧ lo = 1 :=
  ⟨append_inj (c := 0) (d := 1), fun ⟨hhi, hlo⟩ => by rw [hhi, hlo]; rfl⟩

theorem inRcSet_iff {rc : Byte} : inRcSet c rc = true ↔ rc ∈ c.rcSet := List.contains_iff_mem

theorem isCommandType_iff {t : Byte} : isCommandType c t = true ↔ t ∈ [0x01#8, c.ctLorawan, c.ctSidewalk] := by
  simp [isCommandType, ctGeneral, or_assoc]

theorem inCatalogue_iff {t : Byte} {code : Word} : inCatalogue c t code = true ↔ (t, code) ∈ c.catalogue :=
  List.contains_iff_mem

/-! ### The validations -/

/-- R156 on a frame of at least 7 bytes: `fields` is what stands before the checksum. -/
theorem validateResponse_fields (c : Config) (rc ct hi lo : Byte) (rest : List Byte) (crc : Byte) :
    let fields := rc :: ct :: hi :: lo :: rest
    validateResponse c (fields ++ [crc]) =
      if rc ∉ c.rcSet then .badReturnCode
      else if ct ∉ [0x01#8, c.ctLorawan, c.ctSidewalk] then .badCommandType
      else if (ct, BitVec.ofNat 16 (256 * hi.toNat + lo.toNat)) ∉ c.catalogue then .badCommandCode
      else if crc ≠ xor8 fields then .badCrc
      else .none := by
  intro fields
  have hrc : byteAt (fields ++ [crc]) 0 = rc := rfl
  have hct : byteAt (fields ++ [crc]) 1 = ct := rfl
  have hcode : u16At (fields ++ [crc]) 2 = u16 hi lo := rfl
  simp only [validateResponse, hrc, hct, hcode, trailer_append_singleton, body_append_singleton, ← u16_eq_ofNat, ← inRcSet_iff,
    ← isCommandType_iff, ← inCatalogue_iff, Bool.not_eq_true', Bool.not_eq_true]

/-- Settles O32: the premises of each clause decide the tests up to its own. -/
theorem responseViolationsInPriorityOrder : Obligations.ResponseViolationsInPriorityOrder := by
  intro c rc ct hi lo len1 len0 rest crc f code
  rw [show validateResponse c f = _ from validateResponse_fields c rc ct hi lo (len1 :: len0 :: rest) crc]
  refine ⟨fun hrc => ?_, fun hrc hct => ?_, fun hrc hct hcode => ?_, fun hrc hct hcode hcrc => ?_, fun hrc hct hcode hcrc => ?_⟩
  · rw [if_pos hrc]
  · rw [if_neg (not_not.2 hrc), if_pos hct]
  · rw [if_neg (not_not.2 hrc), if_neg (not_not.2 hct), if_pos hcode]
  · rw [if_neg (not_not.2 hrc), if_neg (not_not.2 hct), if_neg (not_not.2 hcode), if_pos hcrc]
  · rw [if_neg (not_not.2 hrc), if_neg (not_not.2 hct), if_neg (not_not.2 hcode), if_neg (not_not.2 hcrc)]

/-- R157 on a frame of five bytes. -/
theorem validateNotification_bytes (rc hi lo count crc : Byte) :
    validateNotification [rc, hi, lo, count, crc] =
      if ¬(hi = 0 ∧ lo = 1) then .badNotifyLen
      else if 10 < count.toNat then .badPendingCount
      else if crc ≠ xor8 [rc, hi, lo, count] then .badCrc
      else .none := by
  simp only [← u16_eq_notifyPayloadLen_iff]
  rfl

/-- Settles O33: the premises of each clause decide the tests up to its own. -/
theorem notificationViolationsInPriorityOrder : Obligations.NotificationViolationsInPriorityOrder := by
  intro rc hi lo count crc f
  rw [validateNotification_bytes]
  refine ⟨fun hlen => ?_, fun hhi hlo hcount => ?_, fun hhi hlo hcount hcrc => ?_, fun hhi hlo hcount hcrc => ?_⟩
  · rw [if_pos hlen]
  · rw [if_neg (not_not.2 ⟨hhi, hlo⟩), if_pos hcount]
  · rw [if_neg (not_not.2 ⟨hhi, hlo⟩), if_neg (Nat.not_lt.2 hcount), if_pos hcrc]
  · rw [if_neg (not_not.2 ⟨hhi, hlo⟩), if_neg (Nat.not_lt.2 hcount), if_neg (not_not.2 hcrc)]

end Sys2Proof.Machine
end

section
/-!
PROOFS of the frame detector statements, part 3 (41_frame_detector.md R151, R153, R158 to R160, R170 to R172): the detector's
operations, as equations for what each answers in the branch its premises pick.
-/

namespace Sys2Proof.Machine

variable {s t : State} {a : ArrayId} {lo : Nat} {b : Byte} {bs : List Byte}

/-! ### RX_BYTE in detector mode -/

theorem execRxByte_of_detector (h : s.mode = .detector) (b : Byte) : execRxByte b s = detectorRx b s := by
  simp only [execRxByte, h]

theorem detectorRx_of_full (h : s.rxLen = rxbufCap) (b : Byte) : detectorRx b s = .next s.rxOverflow := by
  rw [detectorRx, if_pos h, State.done_eq]

theorem detectorRx_of_lt (h : s.rxLen < rxbufCap) (b : Byte) :
    detectorRx b s = .next { s with rxbuf := s.rxbuf.write s.rxLen b, rxLen := s.rxLen + 1 } := by
  rw [detectorRx, if_neg (Nat.ne_of_lt h), if_pos h, State.done_eq]

/-- A write to `rxbuf`, whatever happens to `rx_len`. -/
theorem State.storedOnly_rxbuf (s : State) (lo n : Nat) (b : Byte) :
    s.StoredOnly { s with rxbuf := s.rxbuf.write lo b, rxLen := n } .rxbuf lo [b] := by
  refine State.storedOnly_of_write rfl fun x hx => ?_
  cases x with
  | rxbuf => exact absurd rfl hx
  | txbuf | frame | pkt | targetName => rfl

/-- R153: a response of any declared length fits the receive buffer. -/
theorem respOverhead_add_le_rxbufCap (len : Word) : respOverhead + len.toNat ≤ rxbufCap := by
  have hlen : len.toNat < 65536 := len.isLt
  have hcap : rxbufCap = 7 + 65535 := rfl
  rw [respOverhead, hcap]
  omega

/-- Settles O35: the two branches of the detector's part of RX_BYTE, whose append is one stored byte. -/
theorem detectorByteIsAppendedOrOverflows : Obligations.DetectorByteIsAppendedOrOverflows :=
  ⟨fun s b hmode hlt => ⟨_, (execRxByte_of_detector hmode b).trans (detectorRx_of_lt hlt b), rfl,
      s.storedOnly_rxbuf s.rxLen (s.rxLen + 1) b⟩,
    fun _ b hmode hfull => (execRxByte_of_detector hmode b).trans (detectorRx_of_full hfull b),
    respOverhead_add_le_rxbufCap⟩

/-! ### RX_EOB -/

/-- Writing a sequence to one memory stores that sequence. -/
theorem State.storedOnly_of_writeAll (hmem : t.mem a = (s.mem a).writeAll lo bs) (hother : ∀ x, x ≠ a → t.mem x = s.mem x) :
    s.StoredOnly t a lo bs := by
  intro x i
  rw [State.read?, State.read?]
  by_cases hx : x = a
  · subst hx
    simp only [hmem, Memory.read?_writeAll, true_and]
  · rw [hother x hx, if_neg fun h => hx h.1]

/-- The latch copies the receive buffer to the start of `frame` and stores nothing else (R159). -/
theorem State.storedOnly_latch (s : State) (k : FrameKind) : s.StoredOnly (s.latch k) .frame 0 s.rxBytes := by
  refine State.storedOnly_of_writeAll rfl fun x hx => ?_
  cases x with
  | frame => exact absurd rfl hx
  | txbuf | rxbuf | pkt | targetName => rfl

theorem State.endNotification_of_invalid (h : validateNotification s.rxBytes ≠ .none) :
    s.endNotification = s.discard (validateNotification s.rxBytes) := if_pos h

/-- R158, R163: the latch, `pending`, and NOTIFY after FRAME. -/
theorem State.endNotification_of_valid (h : validateNotification s.rxBytes = .none) :
    s.endNotification =
      { s.latch .notification with
        pending := byteAt s.rxBytes 3, events := s.events ++ [.frame .notification, .notify (byteAt s.rxBytes 3)] } := by
  rw [State.endNotification, if_neg (not_not.2 h), State.emit, State.latch, List.append_assoc, List.singleton_append]

theorem State.endResponse_of_invalid (h : validateResponse s.cfg s.rxBytes ≠ .none) :
    s.endResponse = s.discard (validateResponse s.cfg s.rxBytes) := if_pos h

theorem State.endResponse_of_valid (h : validateResponse s.cfg s.rxBytes = .none) : s.endResponse = s.latch .response :=
  if_neg (not_not.2 h)

/-- RX_EOB writes the class and then ends the batch by it (R158). -/
theorem execRxEob_of_classify {c : RxClass} (hlen : s.rxLen ≤ rxbufCap) (hc : classify s.rxBytes = c) :
    execRxEob s = .next (({ s with rxClass := c } : State).endBatch c) := by
  rw [execRxEob, if_pos hlen, hc, State.done_eq]

/-- Settles O36: RX_EOB ends the batch by the class, and each class that is validated has its two branches. Writing `rx_class`
does not change the received bytes. -/
theorem endOfBatchKeepsLatchesOrDiscards : Obligations.EndOfBatchKeepsLatchesOrDiscards := by
  refine ⟨encodes_of_decodeFields fun _ => rfl, fun s hlen => ?_⟩
  have hexec {c : RxClass} {u : State} (hc : classify s.rxBytes = c) (hu : ({ s with rxClass := c } : State).endBatch c = u) :
      exec .rxEob s = .next u := hu ▸ execRxEob_of_classify hlen hc
  refine ⟨fun hc => hexec hc rfl, fun hc => hexec hc rfl, fun hc hv => ?_, fun hc hv => ?_, fun hc hv => ?_, fun hc hv => ?_⟩
  · exact hexec hc (State.endNotification_of_invalid hv)
  · exact hexec hc (State.endResponse_of_invalid hv)
  · exact ⟨_, hexec hc (State.endNotification_of_valid hv),
      State.storedOnly_latch { s with rxClass := .notification } .notification, rfl⟩
  · exact ⟨_, hexec hc (State.endResponse_of_valid hv),
      State.storedOnly_latch { s with rxClass := .response } .response, rfl⟩

/-! ### RX_CLASSIFY, RX_CLR and FRAME_TAKE -/

theorem execRxClassify_of_le (h : s.rxLen ≤ rxbufCap) : execRxClassify s = .next { s with rxClass := classify s.rxBytes } := by
  rw [execRxClassify, if_pos h, State.done_eq]

theorem execFrameTake_of_valid (h : s.frameValid = true) :
    execFrameTake s = .next { s with frameValid := false, overrun := false } := by
  rw [execFrameTake, if_pos h, State.done_eq]

theorem execFrameTake_of_not_valid (h : s.frameValid = false) : execFrameTake s = .next { s with opErr := .noFrame } := by
  rw [execFrameTake, if_neg (by simp [h]), State.raiseOp_eq]

/-- Settles O40: a second RX_CLASSIFY sees the same bytes, since `rx_class` is none of what it reads. -/
theorem detectorHostOperations : Obligations.DetectorHostOperations :=
  ⟨encodes_of_decodeFields fun _ => rfl, encodes_of_decodeFields fun _ => rfl, encodes_of_decodeFields fun _ => rfl,
    fun s h =>
      ⟨execRxClassify_of_le h, execRxClassify_of_le (s := { s with rxClass := classify (s.bytes .rxbuf 0 s.rxLen) }) h⟩,
    fun _ => rfl, fun _ => execFrameTake_of_valid, fun _ => execFrameTake_of_not_valid⟩

end Sys2Proof.Machine
end

section
/-!
PROOFS of the block-transfer statements, part 1 (42_block_transfer.md R190 to R192): the CRC-16 unit. The eight shifts of a CRC
step are an iterate, a CRC is a left fold, and a run of C16_ACC has a closed form: only the accumulator and the draw counter move.
-/

namespace Sys2Proof.Machine

variable {s : State}

/-! ### The recurrence -/

/-- The bit a shift tests is bit 15 (R190). -/
theorem crcShift_eq : crcShift = fun c : Word => if c.getLsbD 15 then (c <<< 1) ^^^ 0x1021 else c <<< 1 := by
  funext c
  rw [crcShift, BitVec.msb_eq_getLsbD_last]
  rfl

theorem crcShifts_eq_iterate (n : Nat) (c : Word) : crcShifts n c = crcShift^[n] c := by
  induction n generalizing c with
  | zero => rfl
  | succ n ih => rw [crcShifts, ih, Function.iterate_succ_apply]

theorem crc16_append_singleton (f : List Byte) (b : Byte) : crc16 (f ++ [b]) = crc16Step (crc16 f) b := by
  rw [crc16, List.foldl_append]
  rfl

theorem crc16_replicate_zero (n : Nat) : crc16 (List.replicate n 0x00) = 0x0000 := by
  induction n with
  | zero => rfl
  | succ n ih =>
    rw [List.replicate_succ', crc16_append_singleton, ih]
    decide

/-- Settles O41: appending a byte is one CRC step, and a step is eight shifts. -/
theorem crcIsTheCcittRecurrence : Obligations.CrcIsTheCcittRecurrence := by
  refine ⟨rfl, fun f b => ?_, by decide +kernel⟩
  rw [crc16_append_singleton, crc16Step, crcShifts_eq_iterate, crcShift_eq]

/-! ### C16_CLR and C16_ACC -/

/-- C16_ACC over a sequence continues the fold from the accumulator. -/
theorem issueAll_c16Bytes (f : List Byte) (hv : s.cfg.valid = true) (hd : s.PreStepDone) :
    issueAll (Asm.c16Bytes f) s = .next { s with c16Acc := f.foldl crc16Step s.c16Acc, draws := s.draws + f.length } := by
  induction f generalizing s with
  | nil => rfl
  | cons b f ih =>
    have hb : issue (.c16Acc b) s = .next { s with c16Acc := crc16Step s.c16Acc b, draws := s.draws + 1 } := by
      rw [issue_of_valid hv, hd.beginStep]
      rfl
    calc issueAll (Asm.c16Bytes (b :: f)) s
        = issueAll (Asm.c16Bytes f) { s with c16Acc := crc16Step s.c16Acc b, draws := s.draws + 1 } := issueAll_cons_of_next hb _
      _ = _ := ih hv ⟨hd.btState, hd.opErr, hd.events⟩
      _ = _ := by rw [List.foldl_cons, List.length_cons, Nat.add_assoc, Nat.add_comm 1]

/-- R192: C16_CLR and then C16_ACC over a sequence leave the state after the pre-step with the sequence's CRC. -/
theorem issueAll_c16Clr_c16Bytes (f : List Byte) (hv : s.cfg.valid = true) :
    issueAll (.c16Clr :: Asm.c16Bytes f) s =
      .next { s.beginStep with c16Acc := crc16 f, draws := s.beginStep.draws + f.length } := by
  have hclr : issue .c16Clr s = .next { s.beginStep with c16Acc := 0x0000 } := issue_of_valid hv _
  obtain ⟨hst, herr, hev⟩ := s.preStepDone_beginStep
  have hv' : s.beginStep.cfg.valid = true := by rwa [s.beginStep_cfg]
  exact (issueAll_cons_of_next hclr _).trans (issueAll_c16Bytes f hv' ⟨hst, herr, hev⟩)

@[simp] theorem State.beginStep_stagingView (s : State) : s.beginStep.stagingView = s.stagingView := by
  simp [State.stagingView]

/-- Settles O43: the rules of the two operations as they stand, the CRC of zero bytes, and the closed form of a run of them. -/
theorem crcAccumulatorFoldsBytes : Obligations.CrcAccumulatorFoldsBytes :=
  ⟨encodes_of_decodeFields fun _ => rfl, encodes_of_decodeFields fun _ => rfl, fun _ => rfl, fun _ _ => rfl, crc16_replicate_zero,
    fun s f hv => ⟨_, issueAll_c16Clr_c16Bytes f hv, rfl, s.beginStep_ckAcc, s.beginStep_opErr, s.beginStep_stagingView,
      s.beginStep_read?⟩⟩

end Sys2Proof.Machine
end

section
/-!
PROOFS of the block-transfer statements, part 2 (42_block_transfer.md R195, R215, R217): BT_START and TICK, as equations for what
each answers in the branch its premises pick. Right after Complete the pre-step has put the engine in Idle (R272).
-/

namespace Sys2Proof.Machine

variable {s : State}

/-- A step whose next word is an operation's runs that operation's rule after the pre-step (R12). -/
theorem step_of_encodes {opc b : Byte} {i : Byte → Instr} {rest : List HostInput} (h : Encodes opc i)
    (hv : s.cfg.valid = true) (hin : s.inputs = .op (opc ++ b) :: rest) :
    step s = exec (i b) ({ s with inputs := rest } : State).beginStep :=
  (step_op hv hin).trans (runWord_of_decode_ok (h b))

theorem State.beginStep_btState_of_complete (h : s.btState = .complete) : s.beginStep.btState = .idle := by
  rw [s.beginStep_btState, if_pos h]

theorem State.beginStep_mode_of_complete (h : s.btState = .complete) : s.beginStep.mode = .detector := by
  rw [s.beginStep_mode, if_pos h]

/-! ### BT_START -/

theorem execBtStart_of_idle (h : s.btState = .idle) : execBtStart s = .next s.startTransfer := by
  rw [execBtStart, if_neg (not_not.2 h), State.done_eq]

theorem execBtStart_of_ne (h : s.btState ≠ .idle) : execBtStart s = .next { s with opErr := .btBusy } := by
  rw [execBtStart, if_pos h, State.raiseOp_eq]

/-- Settles O44: the two branches of BT_START; from Complete the first is taken, and the pre-step leaves what it does not write. -/
theorem startActivatesTheEngine : Obligations.StartActivatesTheEngine := by
  have hdecode : Encodes 0x30 fun _ => .btStart := encodes_of_decodeFields fun _ => rfl
  refine ⟨hdecode, fun _ => execBtStart_of_idle, fun _ => execBtStart_of_ne, fun s b rest hv hc hin => ?_⟩
  have hidle : ({ s with inputs := rest } : State).beginStep.btState = .idle := State.beginStep_btState_of_complete hc
  refine ⟨_, (step_of_encodes hdecode hv hin).trans (execBtStart_of_idle hidle), rfl, rfl, State.beginStep_opErr _, rfl,
    State.beginStep_remaining _, ?_⟩
  simp [State.startTransfer, crcRequest]

/-! ### TICK -/

theorem execTick_of_idle (h : s.btState = .idle) : execTick s = .next s := by
  rw [execTick, if_pos h, State.done_eq]

theorem execTick_of_lt (hst : s.btState ≠ .idle) (hlt : s.idleTicks.toNat + 1 < s.cfg.tTimeout) :
    execTick s = .next { s with idleTicks := s.idleTicks + 1 } := by
  rw [execTick, if_neg hst, if_neg (by simpa [idleExpires] using hlt), State.done_eq]

theorem execTick_of_ge (hst : s.btState ≠ .idle) (hge : s.cfg.tTimeout ≤ s.idleTicks.toNat + 1) :
    execTick s = .next (s.abort .timeout) := by
  rw [execTick, if_neg hst, if_pos (by simpa [idleExpires] using hge), State.done_eq]

/-- Every field an abort writes (R217). -/
theorem State.abort_eq (s : State) (reason : BtStatus) :
    s.abort reason =
      { s with btState := .idle, mode := .detector, pktLen := 0, idleTicks := 0, retries := 0, stagingOpen := false,
               btStatus := reason,
               events := s.events ++ ((if s.stagingOpen then [.stgDiscard] else []) ++ [.btEnd reason]) } := by
  rw [State.abort, State.goIdle, List.append_assoc]

/-- Settles O45: the three branches of TICK; after Complete the first is taken. -/
theorem tickCountsAndTimesOut : Obligations.TickCountsAndTimesOut := by
  have hdecode : Encodes 0x31 fun _ => .tick := encodes_of_decodeFields fun _ => rfl
  refine ⟨hdecode, fun _ => execTick_of_idle, fun _ => execTick_of_lt, fun s hst hge => ?_, fun s b rest hv hc hin => ?_⟩
  · rw [← s.abort_eq]
    exact execTick_of_ge hst hge
  · have hidle : ({ s with inputs := rest } : State).beginStep.btState = .idle := State.beginStep_btState_of_complete hc
    have hticks : ({ s with inputs := rest } : State).beginStep.idleTicks = 0 := by rw [State.beginStep_idleTicks, if_pos hc]
    exact ⟨_, (step_of_encodes hdecode hv hin).trans (execTick_of_idle hidle), hidle, hticks, State.beginStep_events _,
      State.beginStep_btStatus _⟩

end Sys2Proof.Machine
end

section
/-!
PROOFS of the block-transfer statements, part 3 (42_block_transfer.md R205, R206, R214): a byte in engine mode that does not
complete a packet. Between packets it begins one, ends the transfer, or is ignored; inside a packet it is stored.
-/

namespace Sys2Proof.Machine

variable {s : State} {b start : Byte}

theorem execRxByte_of_between (hmode : s.mode = .engine) (hlen : s.pktLen = 0) (b : Byte) :
    execRxByte b s = betweenPackets b { s with idleTicks := 0 } := by
  simp only [execRxByte, hmode, engineRx, if_pos hlen]

theorem execRxByte_of_inside (hmode : s.mode = .engine) (hlen : 0 < s.pktLen) (b : Byte) :
    execRxByte b s = packetByte b { s with idleTicks := 0 } := by
  simp only [execRxByte, hmode, engineRx, if_neg (Nat.ne_of_gt hlen)]

/-! ### Between packets -/

theorem BtState.takesEot_of_stages {st : BtState} (h : st.stages) : st.takesEot = true := by
  obtain rfl | rfl := h <;> rfl

theorem betweenPackets_of_stray (hsoh : b ≠ soh) (hstx : b ≠ stx) (heot : b = eot → s.btState.takesEot = false) :
    betweenPackets b s = .next s := by
  have hne : ¬(b = eot ∧ s.btState.takesEot = true) := fun h => Bool.eq_false_iff.1 (heot h.1) h.2
  rw [betweenPackets, if_neg (not_or.2 ⟨hsoh, hstx⟩), if_neg hne, State.done_eq]

theorem betweenPackets_eot (h : s.btState.takesEot = true) : betweenPackets eot s = .next s.onEot := by
  rw [betweenPackets, if_neg (by decide), if_pos ⟨rfl, h⟩, State.done_eq]

/-- In WaitHeader, EOT is one of the ignored bytes (R206, R214). -/
theorem execRxByte_stray_of_waitHeader (hmode : s.mode = .engine) (hlen : s.pktLen = 0) (hst : s.btState = .waitHeader)
    (hsoh : b ≠ soh) (hstx : b ≠ stx) : execRxByte b s = .next { s with idleTicks := 0 } :=
  (execRxByte_of_between hmode hlen b).trans (betweenPackets_of_stray hsoh hstx fun _ => congrArg BtState.takesEot hst)

/-- Settles O47: both clauses are the last branch of a byte between packets. -/
theorem strayBytesAreIgnored : Obligations.StrayBytesAreIgnored :=
  ⟨fun _ _ => execRxByte_stray_of_waitHeader,
    fun _ b hmode hlen _ hsoh hstx heot =>
      (execRxByte_of_between hmode hlen b).trans (betweenPackets_of_stray hsoh hstx fun h => absurd h heot)⟩

/-! ### Inside a packet -/

/-- The packet byte is the only byte stored (R205, R63). -/
theorem State.storedOnly_appendPkt (s : State) (b : Byte) : s.StoredOnly (s.appendPkt b) .pkt s.pktLen [b] := by
  refine State.storedOnly_of_write rfl fun x hx => ?_
  cases x with
  | pkt => exact absurd rfl hx
  | txbuf | rxbuf | frame | targetName => rfl

/-- Storing a later byte leaves the start byte of the packet. -/
theorem State.rd_appendPkt_zero (hbegun : 0 < s.pktLen) (hstart : s.read? .pkt 0 = some start) (b : Byte) :
    (s.appendPkt b).rd .pkt 0 = start := by
  refine State.rd_of_read? _ ?_
  rw [State.read?_appendPkt, if_neg fun h => Nat.ne_of_lt hbegun h.2, hstart]

theorem packetDataLen_add_overhead_le (start : Byte) : packetDataLen start + packetOverhead ≤ pktSize := by
  rw [packetDataLen]
  split <;> decide

/-- A byte that does not complete the packet is stored, whatever its value (R205). -/
theorem packetByte_of_lt (hbegun : 0 < s.pktLen) (hstart : s.read? .pkt 0 = some start)
    (hlt : s.pktLen + 1 < packetDataLen start + packetOverhead) (b : Byte) : packetByte b s = .next (s.appendPkt b) := by
  have hsize : s.pktLen < pktSize := by
    have := packetDataLen_add_overhead_le start
    omega
  rw [packetByte, if_pos hsize, s.rd_appendPkt_zero hbegun hstart b, if_neg (Nat.ne_of_lt hlt), State.done_eq]

/-- R205 for a byte in the middle of a packet: what it changes, at the level of RX_BYTE. -/
theorem execRxByte_stores_of_lt (hmode : s.mode = .engine) (hbegun : 0 < s.pktLen) (hstart : s.read? .pkt 0 = some start)
    (hlt : s.pktLen + 1 < packetDataLen start + packetOverhead) (b : Byte) :
    ∃ t, execRxByte b s = .next t ∧ t.regs = { s.regs with idleTicks := 0, pktLen := s.pktLen + 1 } ∧
      s.StoredOnly t .pkt s.pktLen [b] :=
  ⟨_, (execRxByte_of_inside hmode hbegun b).trans (packetByte_of_lt (s := { s with idleTicks := 0 }) hbegun hstart hlt b), rfl,
    s.storedOnly_appendPkt b⟩

/-! ### EOT -/

/-- Settles O49: EOT between packets by the state of the engine, and inside a packet like any other byte. -/
theorem eotClosesAndFinalizes : Obligations.EotClosesAndFinalizes := by
  refine ⟨fun s hmode hlen hst => ?_,
    fun s hc => ⟨State.beginStep_btState_of_complete hc, State.beginStep_mode_of_complete hc⟩,
    fun s hmode hlen hst => ?_, fun s start hmode hbegun hstart hlt => ?_⟩
  · exact (execRxByte_of_between hmode hlen eot).trans (betweenPackets_eot (BtState.takesEot_of_stages hst))
  · exact execRxByte_stray_of_waitHeader hmode hlen hst (by decide) (by decide)
  · exact execRxByte_stores_of_lt hmode hbegun hstart hlt eot

end Sys2Proof.Machine
end

section
/-!
PROOFS of the block-transfer statements, part 4 (42_block_transfer.md R207, R208, R211 to R213): the byte that completes a packet.
The packet is dispatched by the state and the block number (`exec_packet`, `exec_rxByte`), on the state `withPacket` in which the
byte is stored; a data packet's answer stores nothing more.
-/

namespace Sys2Proof.Machine

variable {s : State} {b blk : Byte} {p data : List Byte}

theorem State.storedOnly_withPacket (s : State) (b : Byte) : s.StoredOnly (s.withPacket b) .pkt s.pktLen [b] :=
  s.storedOnly_appendPkt b

/-! ### Dispatch -/

theorem dispatchPacket_of_waitHeader (h : s.btState = .waitHeader) (data : List Byte) :
    dispatchPacket 0x00 data s = .next (s.onHeader data) := by
  rw [dispatchPacket, h]
  rfl

theorem dispatchPacket_of_waitHeader_of_ne (h : s.btState = .waitHeader) (hblk : blk ≠ 0x00) (data : List Byte) :
    dispatchPacket blk data s = .next s.badPacket := by
  simp only [dispatchPacket, h, if_pos hblk, State.done_eq]

theorem dispatchPacket_of_stages (h : s.btState.stages) (blk : Byte) (data : List Byte) :
    dispatchPacket blk data s =
      if blk = s.expectedBlk then onData data s
      else if blk = s.expectedBlk - 1 then .next s.onDuplicate
      else .next s.badPacket := by
  obtain h | h := h <;> rw [dispatchPacket, h] <;> rfl

/-! ### Bad packets -/

theorem retriesReached_iff {m : RetryBound} {r : Byte} : retriesReached m r = true ↔ m = .upTo r := by
  cases m with
  | upTo n => simpa [retriesReached] using eq_comm
  | inf => simp [retriesReached]

/-- What a bad packet leaves: the stored byte, and a NAK or the end of the transfer (R211). -/
theorem State.badPacket_withPacket (s : State) (b : Byte) :
    s.StoredOnly (s.withPacket b).badPacket .pkt s.pktLen [b] ∧ (s.withPacket b).badPacket.regs = s.afterBadPacket := by
  rcases (s.withPacket b).badPacket_cases with ⟨hreached, e⟩ | ⟨hreached, e⟩
  · have hmax : s.cfg.maxRetries = .upTo s.retries := retriesReached_iff.1 hreached
    rw [e, State.abort_eq, State.afterBadPacket, if_pos hmax]
    exact ⟨s.storedOnly_withPacket b, rfl⟩
  · have hmax : s.cfg.maxRetries ≠ .upTo s.retries := fun h => Bool.eq_false_iff.1 hreached (retriesReached_iff.2 h)
    rw [e, State.afterBadPacket, if_neg hmax]
    exact ⟨s.storedOnly_withPacket b, rfl⟩

theorem packetIntact_iff {cblk : Byte} {crcRx : Word} :
    packetIntact blk cblk data crcRx = true ↔ cblk = 0xFF ^^^ blk ∧ crc16 data = crcRx := by
  simp [packetIntact]

/-- Settles O53: a packet that is not intact is bad in every state, and an intact one by the block numbers the state takes. -/
theorem badPacketIsRefusedOrEndsTheTransfer : Obligations.BadPacketIsRefusedOrEndsTheTransfer := by
  intro s b p h _ n blk hbad
  obtain ⟨hstored, hregs⟩ := s.badPacket_withPacket b
  suffices hexec : exec (.rxByte b) s = .next (s.withPacket b).badPacket from ⟨_, hexec, hstored, hregs⟩
  rw [h.exec_rxByte]
  split
  next hintact =>
    obtain ⟨hcomp, hcrc⟩ := packetIntact_iff.1 hintact
    obtain hne | hne | ⟨hst, hblk⟩ | ⟨hst, hexp, hprev⟩ := hbad
    · exact absurd hcomp hne
    · exact absurd hcrc.symm hne
    · exact dispatchPacket_of_waitHeader_of_ne (s := s.withPacket b) hst hblk _
    · exact (dispatchPacket_of_stages (s := s.withPacket b) hst _ _).trans ((if_neg hexp).trans (if_neg hprev))
  next => rfl

/-! ### Data packets -/

/-- `remaining` read as a signed or as an unsigned number: the same where a size was declared (R212). -/
theorem writeLen_eq (s : State) (n : Nat) :
    writeLen s n = if s.remaining.toInt < 0 then n else min n s.remaining.toInt.toNat := by
  rw [writeLen]
  split
  next => rfl
  next hneg =>
    have htoNat : s.remaining.toInt = s.remaining.toNat := BitVec.toInt_eq_toNat_of_lt (BitVec.toInt_pos_iff.1 (not_lt.1 hneg))
    rw [htoNat, Int.toNat_natCast]

theorem onData_of_le (h : writeLen s data.length = 0 ∨ s.writeOffset.toNat + writeLen s data.length ≤ maxFileSize) :
    onData data s = .next (s.acceptData data (writeLen s data.length)) := by
  rw [onData, if_neg (by omega), State.done_eq]

theorem onData_of_gt (hpos : 0 < writeLen s data.length) (hgt : maxFileSize < s.writeOffset.toNat + writeLen s data.length) :
    onData data s = .fault .writeOffsetOverflow := if_pos ⟨hpos, hgt⟩

/-- Settles O51: the expected block goes to on_data, whose two branches are the two clauses. -/
theorem expectedBlockIsWrittenAndAcknowledged : Obligations.ExpectedBlockIsWrittenAndAcknowledged := by
  rintro s b start n data - rfl h hst
  rw [← writeLen_eq]
  have hexec : exec (.rxByte b) s = onData data (s.withPacket b) :=
    h.exec_packet.trans ((dispatchPacket_of_stages (s := s.withPacket b) hst _ _).trans (if_pos rfl))
  refine ⟨fun hle => ⟨_, hexec.trans (onData_of_le hle), s.storedOnly_withPacket b, ?_⟩,
    fun hpos hgt => hexec.trans (onData_of_gt hpos hgt)⟩
  simp only [← List.append_assoc]
  rfl

/-- Settles O52: the previous block number is not the expected one, so the packet goes to on_duplicate. -/
theorem duplicateBlockIsAcknowledged : Obligations.DuplicateBlockIsAcknowledged := by
  rintro s b start n data - - h hst
  have hne : s.expectedBlk - 1 ≠ s.expectedBlk := by bv_omega
  have hexec : exec (.rxByte b) s = .next (s.withPacket b).onDuplicate :=
    h.exec_packet.trans ((dispatchPacket_of_stages (s := s.withPacket b) hst _ _).trans ((if_neg hne).trans (if_pos rfl)))
  exact ⟨_, hexec, s.storedOnly_withPacket b, rfl⟩

end Sys2Proof.Machine
end

section
/-!
PROOFS of the block-transfer statements, part 5 (42_block_transfer.md R209, R210): the header packet. Its name ends at the first
NUL, and the digit loop runs over exactly the digits after it, or stops where the value passes the limit.
-/

namespace Sys2Proof.Machine

variable {s : State} {data name digits rest : List Byte} {v : Nat} {seen : Bool}

/-! ### The name -/

theorem headerName?_append (h : ∀ x ∈ name, x ≠ nul) (tail : List Byte) : headerName? (name ++ nul :: tail) = some name := by
  have htake : (name ++ nul :: tail).takeWhile (· != nul) = name := by
    rw [List.takeWhile_append_of_pos fun x hx => bne_iff_ne.2 (h x hx)]
    simp
  rw [headerName?, htake, if_pos (by simp)]

theorem headerName?_eq_none (h : ∀ x ∈ data, x ≠ nul) : headerName? data = none := by
  have htake : data.takeWhile (· != nul) = data := List.takeWhile_eq_self_iff.2 fun x hx => bne_iff_ne.2 (h x hx)
  rw [headerName?, htake, if_neg (Nat.lt_irrefl _)]

/-! ### The size -/

/-- The value of a run of digits that continues the value `v` (R209). -/
def decimalFrom (v : Nat) (digits : List Byte) : Nat := digits.foldl (fun v b => 10 * v + (b.toNat - 0x30)) v

theorem decimalFrom_zero (digits : List Byte) : decimalFrom 0 digits = decimalValue digits := rfl

theorem decimalFrom_cons (v : Nat) (d : Byte) (digits : List Byte) :
    decimalFrom v (d :: digits) = decimalFrom (10 * v + (d.toNat - 0x30)) digits := by
  rw [decimalFrom, List.foldl_cons, decimalFrom]

theorem le_decimalFrom (v : Nat) (digits : List Byte) : v ≤ decimalFrom v digits := by
  induction digits generalizing v with
  | nil => exact Nat.le_refl v
  | cons d digits ih =>
    have := ih (10 * v + (d.toNat - 0x30))
    rw [decimalFrom_cons]
    omega

theorem isDigit_iff {b : Byte} : isDigit b = true ↔ 0x30 ≤ b.toNat ∧ b.toNat ≤ 0x39 := by
  simp [isDigit]

/-- The digit loop ends at the first byte that is no digit, or at the end of the data. -/
theorem sizeFrom_of_not_digit (h : ∀ x ∈ rest.head?, isDigit x ≠ true) :
    sizeFrom v seen rest = if seen then .declared v else .notDeclared := by
  cases rest with
  | nil => rfl
  | cons x rest => rw [sizeFrom, if_neg (h x rfl)]

theorem sizeFrom_cons_digit {d : Byte} (hd : isDigit d = true) (v : Nat) (seen : Bool) (bs : List Byte) :
    sizeFrom v seen (d :: bs) =
      if maxFileSize < 10 * v + (d.toNat - 0x30) then .tooLarge else sizeFrom (10 * v + (d.toNat - 0x30)) true bs := by
  rw [sizeFrom, if_pos hd]

/-- Over a run of digits that stays within the limit the loop computes its value (R209). -/
theorem sizeFrom_digits (hdigits : ∀ x ∈ digits, isDigit x = true) (hrest : ∀ x ∈ rest.head?, isDigit x ≠ true)
    (hle : decimalFrom v digits ≤ maxFileSize) :
    sizeFrom v seen (digits ++ rest) =
      if seen = false ∧ digits = [] then .notDeclared else .declared (decimalFrom v digits) := by
  induction digits generalizing v seen with
  | nil =>
    rw [List.nil_append, sizeFrom_of_not_digit hrest]
    cases seen <;> rfl
  | cons d digits ih =>
    obtain ⟨hd, hds⟩ := List.forall_mem_cons.1 hdigits
    rw [decimalFrom_cons] at hle ⊢
    have hv : ¬maxFileSize < 10 * v + (d.toNat - 0x30) := Nat.not_lt.2 ((le_decimalFrom _ digits).trans hle)
    rw [List.cons_append, sizeFrom_cons_digit hd, if_neg hv, ih hds hle]
    simp

/-- A run of digits that passes the limit is too large, whatever follows: the value never falls again (R209). -/
theorem sizeFrom_eq_tooLarge (hdigits : ∀ x ∈ digits, isDigit x = true) (hv : v ≤ maxFileSize)
    (hgt : maxFileSize < decimalFrom v digits) : sizeFrom v seen (digits ++ rest) = .tooLarge := by
  induction digits generalizing v seen with
  | nil => exact absurd hgt (Nat.not_lt.2 hv)
  | cons d digits ih =>
    obtain ⟨hd, hds⟩ := List.forall_mem_cons.1 hdigits
    rw [List.cons_append, sizeFrom_cons_digit hd]
    split
    next => rfl
    next hnext => exact ih hds (Nat.not_lt.1 hnext) hgt

theorem headerSize_append (name tail : List Byte) : headerSize (name ++ nul :: tail) name.length = sizeFrom 0 false tail := by
  rw [headerSize, ← List.drop_drop, List.drop_left, List.drop_one, List.tail_cons]

/-! ### The answer -/

theorem State.onHeader_of_no_nul (h : ∀ x ∈ data, x ≠ nul) : s.onHeader data = s.badPacket := by
  rw [State.onHeader, headerName?_eq_none h]

theorem State.onHeader_of_empty_name (tail : List Byte) : s.onHeader (nul :: tail) = s.onEndOfBatch := by
  have hname : headerName? (nul :: tail) = some [] := headerName?_append (name := []) (by simp) tail
  rw [State.onHeader, hname]

section
variable {tail : List Byte} (hne : name ≠ []) (hname : ∀ x ∈ name, x ≠ nul)
include hne hname

theorem State.onHeader_of_notDeclared (h : sizeFrom 0 false tail = .notDeclared) :
    s.onHeader (name ++ nul :: tail) = s.acceptHeader name (-1) := by
  obtain ⟨c, cs, rfl⟩ := List.exists_cons_of_ne_nil hne
  simp only [State.onHeader, headerName?_append hname, headerSize_append, h]

theorem State.onHeader_of_declared (h : sizeFrom 0 false tail = .declared v) :
    s.onHeader (name ++ nul :: tail) = s.acceptHeader name (BitVec.ofNat 64 v) := by
  obtain ⟨c, cs, rfl⟩ := List.exists_cons_of_ne_nil hne
  simp only [State.onHeader, headerName?_append hname, headerSize_append, h]

theorem State.onHeader_of_tooLarge (h : sizeFrom 0 false tail = .tooLarge) :
    s.onHeader (name ++ nul :: tail) = s.badPacket := by
  obtain ⟨c, cs, rfl⟩ := List.exists_cons_of_ne_nil hne
  simp only [State.onHeader, headerName?_append hname, headerSize_append, h]

/-- A name and then a size that fits or no digit at all open the file (R209). -/
theorem State.onHeader_opens (hdigits : ∀ x ∈ digits, isDigit x = true) (hrest : ∀ x ∈ rest.head?, isDigit x ≠ true)
    (hle : decimalValue digits ≤ maxFileSize) :
    s.onHeader (name ++ nul :: (digits ++ rest)) =
      s.acceptHeader name (if digits = [] then -1 else BitVec.ofNat 64 (decimalValue digits)) := by
  rw [← decimalFrom_zero] at hle ⊢
  have hsize := sizeFrom_digits (seen := false) hdigits hrest hle
  split
  next hnil => exact State.onHeader_of_notDeclared hne hname (hsize.trans (if_pos ⟨rfl, hnil⟩))
  next hcons => exact State.onHeader_of_declared hne hname (hsize.trans (if_neg fun h => hcons h.2))

end

theorem State.storedOnly_acceptHeader (s : State) (name : List Byte) (size : BitVec 64) :
    s.StoredOnly (s.acceptHeader name size) .targetName 0 name := by
  refine State.storedOnly_of_writeAll rfl fun x hx => ?_
  cases x with
  | targetName => exact absurd rfl hx
  | txbuf | rxbuf | frame | pkt => rfl

/-- The last packet byte and the name are all that an accepted header stores (R209). -/
theorem State.read?_acceptHeader_withPacket (s : State) (b : Byte) (name : List Byte) (size : BitVec 64) (x : ArrayId) (i : Nat) :
    ((s.withPacket b).acceptHeader name size).read? x i =
      if x = .pkt ∧ i = s.pktLen then some b
      else if x = .targetName ∧ i < name.length then name[i]? else s.read? x i := by
  have hpacket : (s.withPacket b).read? x i = if x = .pkt ∧ i = s.pktLen then some b else s.read? x i := s.read?_appendPkt b x i
  rw [State.storedOnly_acceptHeader (s.withPacket b) name size x i, hpacket]
  by_cases hx : x = .pkt <;> simp [hx]

/-- Settles O50: the header is answered by whether it has a name, a NUL and a size that fits. -/
theorem headerPacketIsReadAsDescribed : Obligations.HeaderPacketIsReadAsDescribed := by
  rintro s b start n data - - h hst
  have hexec {u : State} (hu : (s.withPacket b).onHeader data = u) : exec (.rxByte b) s = .next u :=
    hu ▸ h.exec_packet.trans (dispatchPacket_of_waitHeader (s := s.withPacket b) hst data)
  refine ⟨?_, fun hbad => ?_, fun hhead => ?_⟩
  · intro name digits rest hdata hne hname hdigits hrest hle size
    have hanswer : (s.withPacket b).onHeader data = (s.withPacket b).acceptHeader name size := by
      rw [hdata, List.append_assoc, List.cons_append]
      exact State.onHeader_opens hne hname (fun x hx => isDigit_iff.2 (hdigits x hx))
        (fun x hx => mt isDigit_iff.1 (hrest x hx)) hle
    exact ⟨_, hexec hanswer, rfl, s.read?_acceptHeader_withPacket b name size⟩
  · obtain ⟨hstored, hregs⟩ := s.badPacket_withPacket b
    suffices hanswer : (s.withPacket b).onHeader data = (s.withPacket b).badPacket from ⟨_, hexec hanswer, hstored, hregs⟩
    obtain hnul | ⟨name, digits, rest, hdata, hne, hname, hdigits, hgt⟩ := hbad
    · exact State.onHeader_of_no_nul hnul
    · rw [hdata, List.append_assoc, List.cons_append]
      exact State.onHeader_of_tooLarge hne hname
        (sizeFrom_eq_tooLarge (fun x hx => isDigit_iff.2 (hdigits x hx)) (Nat.zero_le _) hgt)
  · obtain ⟨tail, hdata⟩ := List.head?_eq_some_iff.1 hhead
    have hanswer : (s.withPacket b).onHeader data = (s.withPacket b).onEndOfBatch :=
      hdata ▸ State.onHeader_of_empty_name tail
    exact ⟨_, hexec hanswer, s.storedOnly_withPacket b, rfl⟩

end Sys2Proof.Machine
end

section
/-!
PROOFS of the exception statements, part 1 (60_exceptions.md R242): the causes of an operation error, as a relation. `exec` raises
the code of a cause that holds and does nothing else (`RaisesOpErr.exec`), and without a cause it leaves `op_err` as it was
(`exec_opErr`). RX_BYTE, RX_EOB and TICK have no cause; that is read off the inversion lemmas.
-/

namespace Sys2Proof.Machine

variable {s t : State} {b : Byte} {i : Instr} {e : OpErr}

/-- R242: the operation has a cause to raise this code in this state. -/
inductive RaisesOpErr (s : State) : Instr → OpErr → Prop where
  | txSeal (h : s.txLen < minTxLen) : RaisesOpErr s .txSeal .txUndersized
  | txByte (b : Byte) (h : s.txLen = s.cfg.txbufCap) : RaisesOpErr s (.txByte b) .txOverflow
  | btStart (h : s.btState ≠ .idle) : RaisesOpErr s .btStart .btBusy
  | frameTake (h : s.frameValid = false) : RaisesOpErr s .frameTake .noFrame

/-- Each cause raises its code, and the state is otherwise unchanged. -/
theorem RaisesOpErr.exec (h : RaisesOpErr s i e) : exec i s = .next { s with opErr := e } := by
  cases h with
  | txSeal h => exact execTxSeal_of_lt h
  | txByte b h => exact execTxByte_of_full h b
  | btStart h => exact execBtStart_of_ne h
  | frameTake h => exact execFrameTake_of_not_valid h

/-! ### The operations that raise nothing -/

theorem State.endBatch_opErr (s : State) (c : RxClass) : (s.endBatch c).opErr = s.opErr := by
  rcases s.endBatch_cases c with e | ⟨_, _, e⟩ | ⟨_, e⟩ | ⟨_, _, e⟩
  all_goals exact (congrArg State.opErr e :)

theorem execRxEob_opErr (h : execRxEob s = .next t) : t.opErr = s.opErr := by
  obtain ⟨_, rfl⟩ := execRxEob_next h
  exact State.endBatch_opErr _ _

theorem execTick_opErr (h : execTick s = .next t) : t.opErr = s.opErr := by
  obtain ⟨_, rfl⟩ | ⟨_, _, rfl⟩ | ⟨_, _, rfl⟩ := execTick_next h
  all_goals rfl

theorem detectorRx_opErr (h : detectorRx b s = .next t) : t.opErr = s.opErr := by
  obtain ⟨_, rfl⟩ | ⟨_, rfl⟩ := detectorRx_next h
  all_goals rfl

theorem State.badPacket_opErr (s : State) : s.badPacket.opErr = s.opErr := by
  rcases s.badPacket_cases with ⟨_, e⟩ | ⟨_, e⟩
  all_goals exact (congrArg State.opErr e :)

theorem onData_opErr {data : List Byte} (h : onData data s = .next t) : t.opErr = s.opErr := by
  rcases onData_cases data s with ⟨e, _⟩ | ⟨e, _⟩
  · cases e.symm.trans h
  · cases e.symm.trans h; rfl

theorem onPacket_opErr {n : Nat} (h : onPacket n s = .next t) : t.opErr = s.opErr := by
  rcases onPacket_cases n s with ⟨e, _⟩ | e | ⟨e, _⟩ | ⟨_, _, _, _, _, e, _⟩ | ⟨e, _⟩ | ⟨e, _⟩
  · cases e.symm.trans h
  · cases e.symm.trans h; exact s.badPacket_opErr
  · cases e.symm.trans h; rfl
  · cases e.symm.trans h; rfl
  · exact onData_opErr (e.symm.trans h)
  · cases e.symm.trans h; rfl

theorem engineRx_opErr (h : engineRx b s = .next t) : t.opErr = s.opErr := by
  rcases engineRx_cases b s with ⟨_, _, e⟩ | ⟨_, _, _, e⟩ | ⟨_, e⟩ | ⟨_, _, e⟩ | ⟨_, _, _, e⟩ | ⟨_, _, _, e⟩
  · cases e.symm.trans h; rfl
  · cases e.symm.trans h; rfl
  · cases e.symm.trans h; rfl
  · cases e.symm.trans h
  · cases e.symm.trans h; rfl
  · exact (onPacket_opErr (e.symm.trans h) :)

theorem execRxByte_opErr (h : execRxByte b s = .next t) : t.opErr = s.opErr := by
  unfold execRxByte at h
  split at h
  · exact engineRx_opErr h
  · exact detectorRx_opErr h

/-! ### Every operation -/

/-- An operation leaves `op_err` as it was, unless it has a cause to raise a code; then nothing else changes (R242). -/
theorem exec_opErr (h : exec i s = .next t) :
    t.opErr = s.opErr ∨ (t = { s with opErr := t.opErr } ∧ RaisesOpErr s i t.opErr) := by
  cases i with
  | txSeal =>
    obtain ⟨hlen, rfl⟩ | ⟨_, _, rfl⟩ := execTxSeal_next h
    · exact .inr ⟨rfl, .txSeal hlen⟩
    · exact .inl rfl
  | txByte b =>
    obtain ⟨hfull, rfl⟩ | ⟨_, rfl⟩ := execTxByte_next h
    · exact .inr ⟨rfl, .txByte b hfull⟩
    · exact .inl rfl
  | btStart =>
    obtain ⟨_, rfl⟩ | ⟨hbusy, rfl⟩ := execBtStart_next h
    · exact .inl rfl
    · exact .inr ⟨rfl, .btStart hbusy⟩
  | frameTake =>
    obtain ⟨_, rfl⟩ | ⟨hnone, rfl⟩ := execFrameTake_next h
    · exact .inl rfl
    · exact .inr ⟨rfl, .frameTake hnone⟩
  | rxClassify =>
    obtain ⟨_, rfl⟩ := execRxClassify_next h
    exact .inl rfl
  | rxByte b => exact .inl (execRxByte_opErr h)
  | rxEob => exact .inl (execRxEob_opErr h)
  | tick => exact .inl (execTick_opErr h)
  | nop | ckClr | ckAcc b | c16Clr | c16Acc b | rxClr | txClr =>
    cases h
    exact .inl rfl

/-- An illegal word under a valid configuration raises ILLEGAL_OP after the pre-step, and nothing else (R82, R84). -/
theorem step_of_decode_error {w : Word} {rest : List HostInput} {e : DecodeReject} (hv : s.cfg.valid = true)
    (hin : s.inputs = .op w :: rest) (hd : decode w = .error e) :
    step s = .next { ({ s with inputs := rest } : State).beginStep with opErr := .illegalOp } :=
  (step_op hv hin).trans (runWord_of_decode_error hd)

/-- Settles O21: an operation that starts with `op_err` clear and leaves it set had a cause, and each cause raises its code. -/
theorem operationErrorsHaveNoOtherEffect : Obligations.OperationErrorsHaveNoOtherEffect := by
  refine ⟨fun i s t hclear h hset => ?_, fun _ h => (RaisesOpErr.txSeal h).exec, fun _ b h => (RaisesOpErr.txByte b h).exec,
    fun _ h => (RaisesOpErr.btStart h).exec, fun _ h => (RaisesOpErr.frameTake h).exec,
    fun _ _ _ _ => step_of_decode_error⟩
  obtain ⟨hframe, hcause⟩ := (exec_opErr h).resolve_left fun hsame => hset (hsame.trans hclear)
  refine ⟨hframe, ?_⟩
  generalize t.opErr = e at hcause
  cases hcause with
  | txSeal hlen => exact .inl ⟨rfl, hlen, rfl⟩
  | txByte b hfull => exact .inr (.inl ⟨⟨b, rfl⟩, hfull, rfl⟩)
  | btStart hbusy => exact .inr (.inr (.inl ⟨rfl, hbusy, rfl⟩))
  | frameTake hnone => exact .inr (.inr (.inr ⟨rfl, hnone, rfl⟩))

end Sys2Proof.Machine
end

section
/-!
PROOFS of the reset and hazard statements, part 1 (70_reset_and_hazards.md R272): the pre-step. Its two branches are
`State.beginStep_of_complete` and `State.beginStep_of_ne`; from Complete it clears the mode flag, so an RX_BYTE runs the
detector's rule.
-/

namespace Sys2Proof.Machine

/-- Appending a byte to `rxbuf` makes it readable there (R151). -/
theorem State.read?_rxbuf_write (s : State) (lo n : Nat) (b : Byte) :
    ({ s with rxbuf := s.rxbuf.write lo b, rxLen := n } : State).read? .rxbuf lo = some b := by
  rw [s.storedOnly_rxbuf lo n b .rxbuf lo, if_pos (by simp)]
  simp

/-- RX_BYTE in detector mode with room in `rxbuf` stores the byte there and leaves the engine alone (R151). -/
theorem execRxByte_appends {s : State} (hmode : s.mode = .detector) (hlt : s.rxLen < rxbufCap) (b : Byte) :
    ∃ t, execRxByte b s = .next t ∧ t.rxLen = s.rxLen + 1 ∧ t.read? .rxbuf s.rxLen = some b ∧ s.SameEngine t :=
  ⟨_, (execRxByte_of_detector hmode b).trans (detectorRx_of_lt hlt b), rfl, s.read?_rxbuf_write s.rxLen (s.rxLen + 1) b,
    ⟨rfl, rfl, rfl, rfl, rfl, rfl, rfl, rfl, rfl, rfl, rfl, rfl, rfl⟩⟩

/-- Settles O7: the two branches of the pre-step; after the one from Complete, RX_BYTE is the detector's append. -/
theorem preStepClearsErrorAndLeavesComplete : Obligations.PreStepClearsErrorAndLeavesComplete := by
  refine ⟨fun s => s.beginStep_of_complete, fun s => s.beginStep_of_ne, fun s b rest hv hc hlt hin => ?_⟩
  have hdecode : Encodes 0x10 .rxByte := encodes_of_decodeFields fun _ => rfl
  have hidle : ({ s with inputs := rest } : State).beginStep.btState = .idle := State.beginStep_btState_of_complete hc
  have hmode : ({ s with inputs := rest } : State).beginStep.mode = .detector := State.beginStep_mode_of_complete hc
  obtain ⟨t, hexec, hlen, hread, hengine⟩ := execRxByte_appends hmode (by rwa [State.beginStep_rxLen]) b
  rw [State.beginStep_rxLen] at hlen hread
  exact ⟨t, (step_of_encodes hdecode hv hin).trans hexec, hengine.btState.trans hidle, hengine.mode.trans hmode, hlen, hread,
    hengine.pkt.trans (State.beginStep_pkt _)⟩

end Sys2Proof.Machine
end

section
/-!
PROOFS of the reset and hazard statements, part 2 (70_reset_and_hazards.md R270, R271): the reset input.
-/

namespace Sys2Proof.Machine

variable {s : State} {rest : List HostInput}

theorem takeInput_reset (h : s.inputs = .reset :: rest) : takeInput s = .next (resetInput { s with inputs := rest }) := by
  simp [takeInput, h]

/-- R270: the reset input takes the step for itself; no operation runs and there is no pre-step. -/
theorem step_reset (hv : s.cfg.valid = true) (h : s.inputs = .reset :: rest) :
    step s = .next (resetInput { s with inputs := rest }) :=
  (step_of_valid hv).trans (takeInput_reset h)

/-- R271: no array has been written after a reset, so every byte of it is a free draw. -/
theorem State.read?_resetWith (c : Config) (inputs : List HostInput) (draws : Nat) (a : ArrayId) (i : Nat) :
    ({ State.resetWith c with inputs := inputs, draws := draws } : State).read? a i = none := by
  cases a <;> rfl

/-- Settles O9: every field of R271 is the one `State.resetWith` writes, and the reset input goes to that state. -/
theorem resetGivesTheResetState : Obligations.ResetGivesTheResetState := by
  unfold Obligations.ResetGivesTheResetState
  intro isReset
  have hreset (c : Config) (inputs : List HostInput) (draws : Nat) :
      isReset { State.resetWith c with inputs := inputs, draws := draws } :=
    ⟨rfl, rfl, rfl, rfl, rfl, rfl, rfl, rfl, rfl, rfl, rfl, rfl, rfl, rfl, rfl, rfl, rfl, rfl, rfl, rfl, rfl, rfl, rfl,
      State.read?_resetWith c inputs draws⟩
  exact ⟨hreset Config.reference [] 0,
    fun s rest hv hin => ⟨_, step_reset hv hin, hreset s.cfg rest (s.draws + 1), rfl, rfl, rfl⟩⟩

end Sys2Proof.Machine
end

section
/-!
PROOFS of the reset and hazard statements, part 3 (70_reset_and_hazards.md R274): no operation writes the configuration. It is
read off the inversion lemma of each shared operation, up to `exec` and then the step.
-/

namespace Sys2Proof.Machine

variable {s t : State} {b : Byte} {i : Instr}

/-! ### The frame detector -/

theorem State.endBatch_cfg (s : State) (c : RxClass) : (s.endBatch c).cfg = s.cfg := by
  rcases s.endBatch_cases c with e | ⟨_, _, e⟩ | ⟨_, e⟩ | ⟨_, _, e⟩
  all_goals exact (congrArg State.cfg e :)

theorem execRxEob_cfg (h : execRxEob s = .next t) : t.cfg = s.cfg := by
  obtain ⟨_, rfl⟩ := execRxEob_next h
  exact State.endBatch_cfg _ _

theorem detectorRx_cfg (h : detectorRx b s = .next t) : t.cfg = s.cfg := by
  obtain ⟨_, rfl⟩ | ⟨_, rfl⟩ := detectorRx_next h
  all_goals rfl

/-! ### The block-transfer engine -/

theorem State.badPacket_cfg (s : State) : s.badPacket.cfg = s.cfg := by
  rcases s.badPacket_cases with ⟨_, e⟩ | ⟨_, e⟩
  all_goals exact (congrArg State.cfg e :)

theorem onData_cfg {data : List Byte} (h : onData data s = .next t) : t.cfg = s.cfg := by
  rcases onData_cases data s with ⟨e, _⟩ | ⟨e, _⟩
  · cases e.symm.trans h
  · cases e.symm.trans h; rfl

theorem onPacket_cfg {n : Nat} (h : onPacket n s = .next t) : t.cfg = s.cfg := by
  rcases onPacket_cases n s with ⟨e, _⟩ | e | ⟨e, _⟩ | ⟨_, _, _, _, _, e, _⟩ | ⟨e, _⟩ | ⟨e, _⟩
  · cases e.symm.trans h
  · cases e.symm.trans h; exact s.badPacket_cfg
  · cases e.symm.trans h; rfl
  · cases e.symm.trans h; rfl
  · exact onData_cfg (e.symm.trans h)
  · cases e.symm.trans h; rfl

theorem engineRx_cfg (h : engineRx b s = .next t) : t.cfg = s.cfg := by
  rcases engineRx_cases b s with ⟨_, _, e⟩ | ⟨_, _, _, e⟩ | ⟨_, e⟩ | ⟨_, _, e⟩ | ⟨_, _, _, e⟩ | ⟨_, _, _, e⟩
  · cases e.symm.trans h; rfl
  · cases e.symm.trans h; rfl
  · cases e.symm.trans h; rfl
  · cases e.symm.trans h
  · cases e.symm.trans h; rfl
  · exact (onPacket_cfg (e.symm.trans h) :)

theorem execRxByte_cfg (h : execRxByte b s = .next t) : t.cfg = s.cfg := by
  cases hm : s.mode with
  | engine =>
    have hrx : execRxByte b s = engineRx b s := by simp only [execRxByte, hm]
    exact engineRx_cfg (hrx.symm.trans h)
  | detector => exact detectorRx_cfg ((execRxByte_of_detector hm b).symm.trans h)

theorem execTick_cfg (h : execTick s = .next t) : t.cfg = s.cfg := by
  obtain ⟨_, rfl⟩ | ⟨_, _, rfl⟩ | ⟨_, _, rfl⟩ := execTick_next h
  all_goals rfl

/-! ### Every operation and every step -/

/-- No operation writes the configuration (R274). -/
theorem exec_cfg (h : exec i s = .next t) : t.cfg = s.cfg := by
  cases i with
  | rxByte b => exact execRxByte_cfg h
  | rxEob => exact execRxEob_cfg h
  | tick => exact execTick_cfg h
  | rxClassify =>
    obtain ⟨_, rfl⟩ := execRxClassify_next h
    rfl
  | frameTake =>
    obtain ⟨_, rfl⟩ | ⟨_, rfl⟩ := execFrameTake_next h
    all_goals rfl
  | txByte b =>
    obtain ⟨_, rfl⟩ | ⟨_, rfl⟩ := execTxByte_next h
    all_goals rfl
  | txSeal =>
    obtain ⟨_, rfl⟩ | ⟨_, _, rfl⟩ := execTxSeal_next h
    all_goals rfl
  | btStart =>
    obtain ⟨_, rfl⟩ | ⟨_, rfl⟩ := execBtStart_next h
    all_goals rfl
  | nop | ckClr | ckAcc b | c16Clr | c16Acc b | rxClr | txClr =>
    cases h
    rfl

/-- R274, by what a step can do (`step_next`): hold, reset, an operation after the pre-step, or an illegal word. -/
theorem step_cfg (h : step s = .next t) : t.cfg = s.cfg := by
  obtain ⟨_, rfl⟩ | ⟨_, _, rfl⟩ | ⟨_, _, _, _, _, hexec⟩ | ⟨_, _, _, _, _, rfl⟩ := step_next h
  · rfl
  · rfl
  · exact (exec_cfg hexec).trans (State.beginStep_cfg _)
  · exact State.beginStep_cfg _

/-- Settles O12: only a valid configuration answers, and the answer has the same one. -/
theorem configurationIsFixed : Obligations.ConfigurationIsFixed :=
  fun _ _ h => ⟨valid_of_step h, step_cfg h⟩

end Sys2Proof.Machine
end

section
/-!
PROOFS of the whole-machine statements, part 1 (60_exceptions.md R243): what a byte does to the block-transfer engine, said once as
a relation between the states before and after it, and the units that each operation leaves alone.
-/

namespace Sys2Proof.Machine

variable {s t u : State} {b : Byte} {i : Instr} {n : Nat}

/-! ### What an engine byte answers -/

/-- Everything a complete packet with `n` data bytes can leave (R207 to R213). -/
inductive PacketAnswer (n : Nat) (s : State) : State → Prop where
  | abort (hreached : retriesReached s.cfg.maxRetries s.retries = true) : PacketAnswer n s (s.abort .crcExhausted)
  | nak (hleft : retriesReached s.cfg.maxRetries s.retries = false) :
      PacketAnswer n s { s with retries := bumpRetries s.retries, events := s.events ++ [.serTx nak] }
  | endOfBatch (hst : s.btState = .waitHeader) : PacketAnswer n s s.onEndOfBatch
  | header (name : List Byte) (size : BitVec 64) (hne : name ≠ []) (hlen : name.length < n)
      (hsize : size = -1 ∨ ∃ k, k ≤ maxFileSize ∧ size = BitVec.ofNat 64 k) (hst : s.btState = .waitHeader) :
      PacketAnswer n s (s.acceptHeader name size)
  | data (data : List Byte) (hlen : data.length = n) (hst : s.btState.stages)
      (hle : writeLen s n = 0 ∨ s.writeOffset.toNat + writeLen s n ≤ maxFileSize) :
      PacketAnswer n s (s.acceptData data (writeLen s n))
  | duplicate (hst : s.btState.stages) : PacketAnswer n s s.onDuplicate

theorem State.packetAnswer_badPacket (n : Nat) (s : State) : PacketAnswer n s s.badPacket := by
  rcases s.badPacket_cases with ⟨hreached, e⟩ | ⟨hleft, e⟩
  · exact e ▸ .abort hreached
  · exact e ▸ .nak hleft

theorem onPacket_next (h : onPacket n s = .next t) : PacketAnswer n s t := by
  rcases onPacket_cases n s with ⟨e, _⟩ | e | ⟨e, hst⟩ | ⟨name, size, hne, hlen, hsize, e, hst⟩ | ⟨e, hst⟩ |
    ⟨e, hst⟩
  · cases e.symm.trans h
  · cases e.symm.trans h; exact s.packetAnswer_badPacket n
  · cases e.symm.trans h; exact .endOfBatch hst
  · cases e.symm.trans h; exact .header name size hne hlen hsize hst
  · have hlen : (s.bytes .pkt 3 n).length = n := s.length_bytes .pkt 3 n
    rcases onData_cases (s.bytes .pkt 3 n) s with ⟨e', _⟩ | ⟨e', hle⟩
    · cases (e.symm.trans h).symm.trans e'
    · rw [hlen] at e' hle
      cases (e.symm.trans h).symm.trans e'
      exact .data _ hlen hst hle
  · cases e.symm.trans h; exact .duplicate hst

/-- Everything a byte for the engine can leave (R205). A byte that completes a packet is stored before the packet is answered. -/
inductive ByteAnswer (b : Byte) (s : State) : State → Prop where
  | start (hlen : s.pktLen = 0) (hb : b = soh ∨ b = stx) :
      ByteAnswer b s { s with idleTicks := 0, pkt := s.pkt.write 0 b, pktLen := 1 }
  | eot (hlen : s.pktLen = 0) (hst : s.btState.stages) : ByteAnswer b s ({ s with idleTicks := 0 } : State).onEot
  | stray : ByteAnswer b s { s with idleTicks := 0 }
  | stored (hbegun : s.pktLen ≠ 0) (hsize : s.pktLen < pktSize)
      (hne : s.pktLen + 1 ≠ packetDataLen ((s.appendPkt b).rd .pkt 0) + packetOverhead) :
      ByteAnswer b s { s.appendPkt b with idleTicks := 0 }
  | packet {t : State} (hbegun : s.pktLen ≠ 0) (hsize : s.pktLen < pktSize)
      (h : PacketAnswer (packetDataLen ((s.appendPkt b).rd .pkt 0)) (s.withPacket b) t) : ByteAnswer b s t

theorem engineRx_next (h : engineRx b s = .next t) : ByteAnswer b s t := by
  rcases engineRx_cases b s with ⟨hlen, hb, e⟩ | ⟨hlen, _, hst, e⟩ | ⟨_, e⟩ | ⟨_, _, e⟩ | ⟨hbegun, hsize, hne, e⟩ |
    ⟨hbegun, hsize, _, e⟩
  · cases e.symm.trans h; exact .start hlen hb
  · cases e.symm.trans h; exact .eot hlen hst
  · cases e.symm.trans h; exact .stray
  · cases e.symm.trans h
  · cases e.symm.trans h; exact .stored hbegun hsize hne
  · exact .packet hbegun hsize (onPacket_next (e.symm.trans h))

theorem execRxByte_of_engine (h : s.mode = .engine) (b : Byte) : execRxByte b s = engineRx b s := by
  simp only [execRxByte, h]

/-! ### The engine leaves the detector alone -/

theorem State.SameDetector.trans (h : s.SameDetector t) (h' : t.SameDetector u) : s.SameDetector u where
  rxbuf := h'.rxbuf.trans h.rxbuf
  rxLen := h'.rxLen.trans h.rxLen
  rxClass := h'.rxClass.trans h.rxClass
  frame := h'.frame.trans h.frame
  frameLen := h'.frameLen.trans h.frameLen
  frameValid := h'.frameValid.trans h.frameValid
  frameKind := h'.frameKind.trans h.frameKind
  overrun := h'.overrun.trans h.overrun
  frameErr := h'.frameErr.trans h.frameErr
  pending := h'.pending.trans h.pending

theorem State.sameDetector_withPacket (s : State) (b : Byte) : s.SameDetector (s.withPacket b) :=
  ⟨rfl, rfl, rfl, rfl, rfl, rfl, rfl, rfl, rfl, rfl⟩

theorem PacketAnswer.sameDetector (h : PacketAnswer n s t) : s.SameDetector t := by
  cases h <;> exact ⟨rfl, rfl, rfl, rfl, rfl, rfl, rfl, rfl, rfl, rfl⟩

theorem ByteAnswer.sameDetector (h : ByteAnswer b s t) : s.SameDetector t := by
  cases h with
  | start | eot | stray | stored => exact ⟨rfl, rfl, rfl, rfl, rfl, rfl, rfl, rfl, rfl, rfl⟩
  | packet _ _ h => exact (s.sameDetector_withPacket b).trans h.sameDetector

theorem execBtStart_sameDetector (h : execBtStart s = .next t) : s.SameDetector t := by
  obtain ⟨_, rfl⟩ | ⟨_, rfl⟩ := execBtStart_next h
  all_goals exact ⟨rfl, rfl, rfl, rfl, rfl, rfl, rfl, rfl, rfl, rfl⟩

theorem execTick_sameDetector (h : execTick s = .next t) : s.SameDetector t := by
  obtain ⟨_, rfl⟩ | ⟨_, _, rfl⟩ | ⟨_, _, rfl⟩ := execTick_next h
  all_goals exact ⟨rfl, rfl, rfl, rfl, rfl, rfl, rfl, rfl, rfl, rfl⟩

/-! ### The detector leaves the engine alone -/

theorem State.endBatch_sameEngine (s : State) (c : RxClass) : s.SameEngine (s.endBatch c) := by
  rcases s.endBatch_cases c with e | ⟨_, _, e⟩ | ⟨_, e⟩ | ⟨_, _, e⟩
  all_goals rw [e]; exact ⟨rfl, rfl, rfl, rfl, rfl, rfl, rfl, rfl, rfl, rfl, rfl, rfl, rfl⟩

theorem execRxEob_sameEngine (h : execRxEob s = .next t) : s.SameEngine t := by
  obtain ⟨_, rfl⟩ := execRxEob_next h
  obtain ⟨h1, h2, h3, h4, h5, h6, h7, h8, h9, h10, h11, h12, h13⟩ :=
    State.endBatch_sameEngine { s with rxClass := classify s.rxBytes } (classify s.rxBytes)
  exact ⟨h1, h2, h3, h4, h5, h6, h7, h8, h9, h10, h11, h12, h13⟩

theorem execRxClassify_sameEngine (h : execRxClassify s = .next t) : s.SameEngine t := by
  obtain ⟨_, rfl⟩ := execRxClassify_next h
  exact ⟨rfl, rfl, rfl, rfl, rfl, rfl, rfl, rfl, rfl, rfl, rfl, rfl, rfl⟩

theorem execRxClr_sameEngine (h : execRxClr s = .next t) : s.SameEngine t := by
  cases h
  exact ⟨rfl, rfl, rfl, rfl, rfl, rfl, rfl, rfl, rfl, rfl, rfl, rfl, rfl⟩

theorem execFrameTake_sameEngine (h : execFrameTake s = .next t) : s.SameEngine t := by
  obtain ⟨_, rfl⟩ | ⟨_, rfl⟩ := execFrameTake_next h
  all_goals exact ⟨rfl, rfl, rfl, rfl, rfl, rfl, rfl, rfl, rfl, rfl, rfl, rfl, rfl⟩

theorem detectorRx_sameEngine (h : detectorRx b s = .next t) : s.SameEngine t := by
  obtain ⟨_, rfl⟩ | ⟨_, rfl⟩ := detectorRx_next h
  all_goals exact ⟨rfl, rfl, rfl, rfl, rfl, rfl, rfl, rfl, rfl, rfl, rfl, rfl, rfl⟩

/-! ### The checksum units leave both alone -/

/-- The checksum and transmit operations write nothing but the checksum units and `op_err`. -/
structure State.SameOutsideChecksumUnits (s t : State) : Prop where
  detector : s.SameDetector t
  engine : s.SameEngine t
  events : t.events = s.events

theorem execTxByte_sameOutside (h : execTxByte b s = .next t) : s.SameOutsideChecksumUnits t := by
  obtain ⟨_, rfl⟩ | ⟨_, rfl⟩ := execTxByte_next h
  all_goals exact ⟨⟨rfl, rfl, rfl, rfl, rfl, rfl, rfl, rfl, rfl, rfl⟩,
    ⟨rfl, rfl, rfl, rfl, rfl, rfl, rfl, rfl, rfl, rfl, rfl, rfl, rfl⟩, rfl⟩

theorem execTxSeal_sameOutside (h : execTxSeal s = .next t) : s.SameOutsideChecksumUnits t := by
  obtain ⟨_, rfl⟩ | ⟨_, _, rfl⟩ := execTxSeal_next h
  all_goals exact ⟨⟨rfl, rfl, rfl, rfl, rfl, rfl, rfl, rfl, rfl, rfl⟩,
    ⟨rfl, rfl, rfl, rfl, rfl, rfl, rfl, rfl, rfl, rfl, rfl, rfl, rfl⟩, rfl⟩

/-- The operations of the checksum units and the transmit buffer (R83). -/
inductive IsChecksumOp : Instr → Prop where
  | nop : IsChecksumOp .nop
  | ckClr : IsChecksumOp .ckClr
  | ckAcc (b : Byte) : IsChecksumOp (.ckAcc b)
  | c16Clr : IsChecksumOp .c16Clr
  | c16Acc (b : Byte) : IsChecksumOp (.c16Acc b)
  | txClr : IsChecksumOp .txClr
  | txByte (b : Byte) : IsChecksumOp (.txByte b)
  | txSeal : IsChecksumOp .txSeal

theorem IsChecksumOp.sameOutside (hi : IsChecksumOp i) (h : exec i s = .next t) : s.SameOutsideChecksumUnits t := by
  cases hi with
  | txByte b => exact execTxByte_sameOutside h
  | txSeal => exact execTxSeal_sameOutside h
  | nop | ckClr | ckAcc b | c16Clr | c16Acc b | txClr =>
    cases h
    exact ⟨⟨rfl, rfl, rfl, rfl, rfl, rfl, rfl, rfl, rfl, rfl⟩,
      ⟨rfl, rfl, rfl, rfl, rfl, rfl, rfl, rfl, rfl, rfl, rfl, rfl, rfl⟩, rfl⟩

/-! ### Every operation -/

/-- The detector's operations: the host's four, and a received byte in detector mode (R150, R151). -/
inductive IsDetectorOp (m : Mode) : Instr → Prop where
  | rxEob : IsDetectorOp m .rxEob
  | rxClassify : IsDetectorOp m .rxClassify
  | rxClr : IsDetectorOp m .rxClr
  | frameTake : IsDetectorOp m .frameTake
  | rxByte (b : Byte) (hm : m = .detector) : IsDetectorOp m (.rxByte b)

/-- The engine's operations: BT_START, TICK, and a received byte in engine mode (R150, R151). -/
inductive IsEngineOp (m : Mode) : Instr → Prop where
  | btStart : IsEngineOp m .btStart
  | tick : IsEngineOp m .tick
  | rxByte (b : Byte) (hm : m = .engine) : IsEngineOp m (.rxByte b)

/-- Every operation is one unit's; the mode flag says whose a received byte is. -/
theorem unit_cases (i : Instr) (m : Mode) : IsChecksumOp i ∨ IsDetectorOp m i ∨ IsEngineOp m i := by
  cases i with
  | nop => exact .inl .nop
  | ckClr => exact .inl .ckClr
  | ckAcc b => exact .inl (.ckAcc b)
  | c16Clr => exact .inl .c16Clr
  | c16Acc b => exact .inl (.c16Acc b)
  | txClr => exact .inl .txClr
  | txByte b => exact .inl (.txByte b)
  | txSeal => exact .inl .txSeal
  | rxEob => exact .inr (.inl .rxEob)
  | rxClassify => exact .inr (.inl .rxClassify)
  | rxClr => exact .inr (.inl .rxClr)
  | frameTake => exact .inr (.inl .frameTake)
  | btStart => exact .inr (.inr .btStart)
  | tick => exact .inr (.inr .tick)
  | rxByte b =>
    cases m with
    | detector => exact .inr (.inl (.rxByte b rfl))
    | engine => exact .inr (.inr (.rxByte b rfl))

theorem IsDetectorOp.sameChecksumUnits (hi : IsDetectorOp s.mode i) (h : exec i s = .next t) : s.SameChecksumUnits t := by
  cases hi with
  | rxEob => exact execRxEob_sameChecksumUnits h
  | rxClassify => exact execRxClassify_sameChecksumUnits h
  | rxClr => exact execRxClr_sameChecksumUnits h
  | frameTake => exact execFrameTake_sameChecksumUnits h
  | rxByte b _ => exact execRxByte_sameChecksumUnits h

theorem IsDetectorOp.sameEngine (hi : IsDetectorOp s.mode i) (h : exec i s = .next t) : s.SameEngine t := by
  cases hi with
  | rxEob => exact execRxEob_sameEngine h
  | rxClassify => exact execRxClassify_sameEngine h
  | rxClr => exact execRxClr_sameEngine h
  | frameTake => exact execFrameTake_sameEngine h
  | rxByte b hm => exact detectorRx_sameEngine ((execRxByte_of_detector hm b).symm.trans h)

theorem IsEngineOp.sameChecksumUnits (hi : IsEngineOp s.mode i) (h : exec i s = .next t) : s.SameChecksumUnits t := by
  cases hi with
  | btStart => exact execBtStart_sameChecksumUnits h
  | tick => exact execTick_sameChecksumUnits h
  | rxByte b _ => exact execRxByte_sameChecksumUnits h

theorem IsEngineOp.sameDetector (hi : IsEngineOp s.mode i) (h : exec i s = .next t) : s.SameDetector t := by
  cases hi with
  | btStart => exact execBtStart_sameDetector h
  | tick => exact execTick_sameDetector h
  | rxByte b hm => exact (engineRx_next ((execRxByte_of_engine hm b).symm.trans h)).sameDetector

/-- Settles O19: each listed operation is one unit's, and a received byte is the unit's that the mode flag names. -/
theorem unitsLeaveEachOtherAlone : Obligations.UnitsLeaveEachOtherAlone := by
  intro s t b
  refine ⟨fun i hi h => ?_, fun i hi h => ?_, fun i hi h => ?_, fun h hm => ?_, fun h hm => ?_⟩
  · have hop : IsChecksumOp i := by
      simp only [List.mem_cons, List.not_mem_nil, or_false] at hi
      obtain rfl | rfl | rfl | rfl | rfl | rfl | rfl | rfl := hi <;> constructor
    obtain ⟨hdetector, hengine, hevents⟩ := hop.sameOutside h
    exact ⟨hdetector, hengine, hevents⟩
  · have hop : IsDetectorOp s.mode i := by
      simp only [List.mem_cons, List.not_mem_nil, or_false] at hi
      obtain rfl | rfl | rfl | rfl := hi <;> constructor
    exact ⟨hop.sameChecksumUnits h, hop.sameEngine h⟩
  · have hop : IsEngineOp s.mode i := by
      simp only [List.mem_cons, List.not_mem_nil, or_false] at hi
      obtain rfl | rfl := hi <;> constructor
    exact ⟨hop.sameChecksumUnits h, hop.sameDetector h⟩
  · have hop : IsDetectorOp s.mode (.rxByte b) := .rxByte b hm
    exact ⟨hop.sameChecksumUnits h, hop.sameEngine h⟩
  · have hop : IsEngineOp s.mode (.rxByte b) := .rxByte b hm
    exact ⟨hop.sameChecksumUnits h, hop.sameDetector h⟩

end Sys2Proof.Machine
end

section
/-!
PROOFS of the whole-machine statements, part 2 (60_exceptions.md R245, R247): the events. Each operation appends to the output
list, and what it appends is of the unit that ran: the answer to an engine byte has the engine's kinds of event, and RX_EOB the detector's.
-/

namespace Sys2Proof.Machine

variable {s t u : State} {b : Byte} {i : Instr} {n : Nat} {p q : Event → Prop} {es : List Event}

/-- From `s` to `t` the output list grew by events that satisfy `p`. -/
def State.Emits (s t : State) (p : Event → Prop) : Prop := ∃ es, t.events = s.events ++ es ∧ ∀ e ∈ es, p e

theorem State.emits_of_append (h : t.events = s.events ++ es) (hp : ∀ e ∈ es, p e) : s.Emits t p := ⟨es, h, hp⟩

theorem State.emits_of_eq (h : t.events = s.events) : s.Emits t p := ⟨[], by simp [h], by simp⟩

theorem State.Emits.imp (h : s.Emits t p) (hpq : ∀ e, p e → q e) : s.Emits t q :=
  let ⟨es, hes, hp⟩ := h
  ⟨es, hes, fun e he => hpq e (hp e he)⟩

theorem State.Emits.forall_events (h : s.Emits t p) (hs : s.events = []) : ∀ e ∈ t.events, p e := by
  obtain ⟨es, hes, hp⟩ := h
  rwa [hes, hs, List.nil_append]

/-! ### The kinds of event -/

/-- The events of the block-transfer engine: the sender's bytes, the staging port and the end of a transfer. -/
def Event.IsEngine : Event → Prop
  | .serTx _ | .stgOpen _ _ | .stgWrite _ _ | .stgClose | .stgDiscard | .finalize | .btEnd _ => True
  | .frame _ | .frameErr _ | .notify _ => False

/-- The events of the frame detector. -/
def Event.IsDetector : Event → Prop
  | .frame _ | .frameErr _ | .notify _ => True
  | .serTx _ | .stgOpen _ _ | .stgWrite _ _ | .stgClose | .stgDiscard | .finalize | .btEnd _ => False

/-- R245: RX_BYTE in engine mode is named for every event of the engine. -/
theorem Event.IsEngine.emittedBy_rxByte {e : Event} (h : e.IsEngine) (b : Byte) : e.EmittedBy (.rxByte b) .engine := by
  have hb : IsRxByte (.rxByte b) := ⟨b, rfl⟩
  cases e with
  | serTx _ | stgDiscard | btEnd _ => exact .inr ⟨hb, rfl⟩
  | stgOpen _ _ | stgWrite _ _ | stgClose | finalize => exact ⟨hb, rfl⟩
  | frame _ | frameErr _ | notify _ => exact h.elim

/-- R245: RX_EOB is named for every event of the detector. -/
theorem Event.IsDetector.emittedBy_rxEob {e : Event} (h : e.IsDetector) (m : Mode) : e.EmittedBy .rxEob m := by
  cases e with
  | frame _ | notify _ => exact rfl
  | frameErr _ => exact .inl rfl
  | serTx _ | stgOpen _ _ | stgWrite _ _ | stgClose | stgDiscard | finalize | btEnd _ => exact h.elim

/-! ### The engine -/

theorem State.emits_abort (s : State) (reason : BtStatus) :
    s.Emits (s.abort reason) fun e => e = .stgDiscard ∨ e = .btEnd reason := by
  refine State.emits_of_append (congrArg State.events (s.abort_eq reason)) ?_
  cases s.stagingOpen <;> simp

theorem PacketAnswer.emits (h : PacketAnswer n s t) : s.Emits t Event.IsEngine := by
  cases h with
  | abort => exact (s.emits_abort _).imp fun e he => by obtain rfl | rfl := he <;> trivial
  | nak => exact State.emits_of_append rfl (by simp [Event.IsEngine])
  | endOfBatch => exact State.emits_of_append rfl (by simp [Event.IsEngine])
  | header => exact State.emits_of_append rfl (by simp [Event.IsEngine])
  | data data =>
    refine State.emits_of_append (List.append_assoc _ _ _) ?_
    split <;> simp [Event.IsEngine]
  | duplicate => exact State.emits_of_append rfl (by simp [Event.IsEngine])

theorem ByteAnswer.emits (h : ByteAnswer b s t) : s.Emits t Event.IsEngine := by
  cases h with
  | start | stray | stored => exact State.emits_of_eq rfl
  | eot => exact State.emits_of_append rfl (by simp [Event.IsEngine])
  | packet _ _ h => exact h.emits

theorem execBtStart_emits (h : execBtStart s = .next t) : s.Emits t fun e => ∃ b, e = .serTx b := by
  obtain ⟨_, rfl⟩ | ⟨_, rfl⟩ := execBtStart_next h
  · refine State.emits_of_append rfl ?_
    split <;> simp
  · exact State.emits_of_eq rfl

theorem execTick_emits (h : execTick s = .next t) : s.Emits t fun e => e = .stgDiscard ∨ e = .btEnd .timeout := by
  obtain ⟨_, rfl⟩ | ⟨_, _, rfl⟩ | ⟨_, _, rfl⟩ := execTick_next h
  · exact State.emits_of_eq rfl
  · exact s.emits_abort .timeout
  · exact State.emits_of_eq rfl

/-! ### The detector -/

theorem State.endBatch_emits (s : State) (c : RxClass) : s.Emits (s.endBatch c) Event.IsDetector := by
  rcases s.endBatch_cases c with e | ⟨_, _, e⟩ | ⟨_, e⟩ | ⟨_, _, e⟩ <;> rw [e]
  · exact State.emits_of_eq rfl
  · exact State.emits_of_append rfl (by simp [Event.IsDetector])
  · exact State.emits_of_append rfl (by simp [Event.IsDetector])
  · exact State.emits_of_append (List.append_assoc _ _ _) (by simp [Event.IsDetector])

theorem execRxEob_emits (h : execRxEob s = .next t) : s.Emits t Event.IsDetector := by
  obtain ⟨_, rfl⟩ := execRxEob_next h
  exact (State.endBatch_emits { s with rxClass := classify s.rxBytes } (classify s.rxBytes) :)

theorem detectorRx_emits (h : detectorRx b s = .next t) : s.Emits t fun e => e = .frameErr .rxOverflow := by
  obtain ⟨_, rfl⟩ | ⟨_, rfl⟩ := detectorRx_next h
  · exact State.emits_of_append rfl (by simp)
  · exact State.emits_of_eq rfl

/-! ### Every operation -/

theorem IsEngineOp.emits (hi : IsEngineOp s.mode i) (h : exec i s = .next t) : s.Emits t (Event.EmittedBy i s.mode) := by
  cases hi with
  | btStart => exact (execBtStart_emits h).imp fun _ ⟨_, he⟩ => he ▸ .inl rfl
  | tick => exact (execTick_emits h).imp fun _ he => by obtain rfl | rfl := he <;> exact .inl rfl
  | rxByte b hm =>
    rw [hm]
    exact (engineRx_next ((execRxByte_of_engine hm b).symm.trans h)).emits.imp fun e he => he.emittedBy_rxByte b

theorem IsDetectorOp.emits (hi : IsDetectorOp s.mode i) (h : exec i s = .next t) :
    s.Emits t fun e => e.IsDetector ∧ e.EmittedBy i s.mode := by
  cases hi with
  | rxEob => exact (execRxEob_emits h).imp fun e he => ⟨he, he.emittedBy_rxEob s.mode⟩
  | rxClassify =>
    obtain ⟨_, rfl⟩ := execRxClassify_next h
    exact State.emits_of_eq rfl
  | rxClr => cases h; exact State.emits_of_eq rfl
  | frameTake =>
    obtain ⟨_, rfl⟩ | ⟨_, rfl⟩ := execFrameTake_next h
    all_goals exact State.emits_of_eq rfl
  | rxByte b hm =>
    exact (detectorRx_emits ((execRxByte_of_detector hm b).symm.trans h)).imp fun e he =>
      he ▸ ⟨trivial, .inr ⟨⟨b, rfl⟩, hm⟩⟩

/-- The "emitted by" column of R245. -/
theorem exec_emits (h : exec i s = .next t) : s.Emits t (Event.EmittedBy i s.mode) := by
  obtain hi | hi | hi := unit_cases i s.mode
  · exact State.emits_of_eq (hi.sameOutside h).events
  · exact (hi.emits h).imp fun _ he => he.2
  · exact hi.emits h

/-- R247: FRAME is RX_EOB's, and BT_END is never. -/
theorem Event.not_frame_and_btEnd {m : Mode} {k : FrameKind} {st : BtStatus} (hframe : (Event.frame k).EmittedBy i m)
    (hend : (Event.btEnd st).EmittedBy i m) : False := by
  obtain rfl : i = .rxEob := hframe
  obtain h | ⟨⟨b, h⟩, _⟩ := hend <;> cases h

/-- Settles O22: the column of R245 gives both clauses about operations, and a step without one empties the output list. -/
theorem eventsComeFromTheUnitThatRan : Obligations.EventsComeFromTheUnitThatRan := by
  refine ⟨fun i s t hs h => ?_, fun s t h hne => ?_⟩
  · have hall := (exec_emits h).forall_events hs
    exact ⟨hall, fun ⟨⟨_, hframe⟩, _, hend⟩ => Event.not_frame_and_btEnd (hall _ hframe) (hall _ hend)⟩
  · obtain ⟨_, rfl⟩ | ⟨_, _, rfl⟩ | ⟨w, rest, i, hin, hd, _⟩ | ⟨_, _, _, _, _, rfl⟩ := step_next h
    · exact absurd rfl hne
    · exact absurd rfl hne
    · exact ⟨w, rest, i, hin, hd⟩
    · exact absurd (State.beginStep_events _) hne

end Sys2Proof.Machine
end

section
/-!
PROOFS of the whole-machine statements, part 3 (10_state.md R30, 70_reset_and_hazards.md R272, R287): the mode flag and Complete.
Only the engine's operations write the mode flag or the engine's state, so both statements are about those three.
-/

namespace Sys2Proof.Machine

variable {s t : State} {b : Byte} {i : Instr} {n : Nat}

theorem PacketAnswer.mode_eq_or_idle (h : PacketAnswer n s t) : t.mode = s.mode ∨ (t.mode = .detector ∧ t.btState = .idle) := by
  cases h with
  | abort | endOfBatch => exact .inr ⟨rfl, rfl⟩
  | nak | header | data | duplicate => exact .inl rfl

theorem ByteAnswer.mode_eq_or_idle (h : ByteAnswer b s t) : t.mode = s.mode ∨ (t.mode = .detector ∧ t.btState = .idle) := by
  cases h with
  | start | eot | stray | stored => exact .inl rfl
  | packet _ _ h => exact h.mode_eq_or_idle

/-- Settles O18: the operations of the other units leave the mode flag, and each answer of the engine that clears it is in Idle. -/
theorem modeChangesOnlyAtStartAndIdle : Obligations.ModeChangesOnlyAtStartAndIdle := by
  intro i s t h hne
  obtain hi | hi | hi := unit_cases i s.mode
  · exact absurd (hi.sameOutside h).engine.mode hne
  · exact absurd (hi.sameEngine h).mode hne
  · cases hi with
    | btStart =>
      obtain ⟨_, rfl⟩ | ⟨_, rfl⟩ := execBtStart_next h
      · exact .inl ⟨rfl, rfl, rfl⟩
      · exact absurd rfl hne
    | tick =>
      obtain ⟨_, rfl⟩ | ⟨_, _, rfl⟩ | ⟨_, _, rfl⟩ := execTick_next h
      · exact absurd rfl hne
      · exact .inr ⟨.inl rfl, rfl, rfl⟩
      · exact absurd rfl hne
    | rxByte b hm =>
      have hans := engineRx_next ((execRxByte_of_engine hm b).symm.trans h)
      exact .inr ⟨.inr ⟨b, rfl⟩, hans.mode_eq_or_idle.resolve_left hne⟩

/-- From Idle in detector mode, only BT_START leaves Idle (R201). -/
theorem exec_btState_of_idle (hst : s.btState = .idle) (hm : s.mode = .detector) (h : exec i s = .next t) :
    t.btState = .idle ∨ (t.btState = .waitHeader ∧ i = .btStart) := by
  obtain hi | hi | hi := unit_cases i s.mode
  · exact .inl ((hi.sameOutside h).engine.btState.trans hst)
  · exact .inl ((hi.sameEngine h).btState.trans hst)
  · cases hi with
    | btStart =>
      obtain ⟨_, rfl⟩ | ⟨hbusy, _⟩ := execBtStart_next h
      · exact .inr ⟨rfl, rfl⟩
      · exact absurd hst hbusy
    | tick =>
      cases (execTick_of_idle hst).symm.trans h
      exact .inl hst
    | rxByte b hm' => cases hm.symm.trans hm'

/-- Settles O8: the pre-step has put the engine in Idle, and only BT_START leaves it. -/
theorem completeLastsOneStep : Obligations.CompleteLastsOneStep := by
  intro s t x rest hc hin h
  obtain ⟨hnone, _⟩ | ⟨_, _, rfl⟩ | ⟨w, rest', i, hop, hd, hexec⟩ | ⟨_, rest', _, _, _, rfl⟩ := step_next h
  · cases hin.symm.trans hnone
  · exact .inl rfl
  · have hst : ({ s with inputs := rest' } : State).beginStep.btState = .idle := State.beginStep_btState_of_complete hc
    have hm : ({ s with inputs := rest' } : State).beginStep.mode = .detector := State.beginStep_mode_of_complete hc
    refine (exec_btState_of_idle hst hm hexec).imp_right fun ⟨hwait, hi⟩ => ⟨hwait, immOf w, ?_⟩
    cases hin.symm.trans hop
    subst hi
    have hopc : opcOf w = 0x30 := eq_opc_of_decodeFields hd
    have hw : w = 0x30#8 ++ immOf w := (opcOf_append_immOf w).symm.trans (congrArg (· ++ immOf w) hopc)
    exact congrArg HostInput.op hw
  · exact .inl (State.beginStep_btState_of_complete (s := { s with inputs := rest' }) hc)

end Sys2Proof.Machine
end

section
/-!
PROOFS of the whole-machine statements, part 4 (10_state.md R22, R35): the invariant, unit by unit. `Inv` is a valid configuration, a
legal transmit buffer, the detector's part and the engine's part; the engine's part is four facts about a few fields each, so that
what an operation does not write carries over as it stands.
-/

namespace Sys2Proof.Machine

variable {s t : State} {c : Config} {m : Mode} {st st' : BtState} {idle : BitVec 32} {r : Byte} {isOpen : Bool}
  {left off off' : BitVec 64} {mem : Memory} {len : Nat} {e : Byte}

/-! ### The parts -/

/-- R35 (a), (e), (f): the mode flag, the idle count and the retries, by the engine's state. -/
structure ControlLegal (c : Config) (m : Mode) (st : BtState) (idle : BitVec 32) (retries : Byte) : Prop where
  mode_iff : m = .engine ↔ st ≠ .idle
  idle_active : st ≠ .idle → idle.toNat < c.tTimeout
  idle_idle : st = .idle → idle = 0
  retries : retries.toNat ≤ retryLimit c.maxRetries

/-- R35 (b), R205: the packet buffer, and the packet that has begun in it. -/
structure PacketLegal (st : BtState) (pkt : Memory) (pktLen : Nat) : Prop where
  array : ArrayLegal pkt pktLen pktSize
  zero : st = .idle ∨ st = .complete → pktLen = 0
  begun : pktLen ≠ 0 → ∃ start, pkt.read? 0 = some start ∧ (start = soh ∨ start = stx) ∧
    pktLen < packetDataLen start + packetOverhead

/-- R35 (c), R200, R209: the staging destination, and what has been and is to be written there. -/
structure FileLegal (st : BtState) (isOpen : Bool) (remaining writeOffset : BitVec 64) : Prop where
  staging_iff : isOpen = true ↔ st.stages
  waitEot : st = .waitEot → remaining = 0
  receiving : st = .receivingData → remaining ≠ 0
  declared : isOpen = true → 0 ≤ remaining.toInt → writeOffset.toNat + remaining.toNat ≤ maxFileSize
  remaining : -1 ≤ remaining.toInt
  writeOffset : writeOffset.toNat ≤ maxFileSize

/-- The engine's part of the invariant. -/
structure State.EngineInv (s : State) : Prop where
  control : ControlLegal s.cfg s.mode s.btState s.idleTicks s.retries
  packet : PacketLegal s.btState s.pkt s.pktLen
  file : FileLegal s.btState s.stagingOpen s.remaining s.writeOffset
  name : ArrayLegal s.targetName s.nameLen nameSize

/-- The detector's part of the invariant. -/
structure State.DetectorInv (s : State) : Prop where
  rxbuf : ArrayLegal s.rxbuf s.rxLen rxbufCap
  frame : ArrayLegal s.frame s.frameLen rxbufCap
  overrun : s.frameValid = false → s.overrun = false
  pending : s.pending.toNat ≤ maxPending

/-- The invariant is its parts. -/
theorem State.inv_iff :
    s.Inv ↔ s.cfg.valid = true ∧ ArrayLegal s.txbuf s.txLen s.cfg.txbufCap ∧ s.DetectorInv ∧ s.EngineInv := by
  constructor
  · rintro ⟨⟨hmode, hzero, _, hoverrun, hretries, hactive, hidle, hpending⟩, hlegal,
      ⟨hbegun, hstaging, heot, hreceiving, hdeclared⟩⟩
    obtain ⟨hvalid, htx, hrx, hframe, hpkt, hname, hremaining, hoffset⟩ := s.legal_iff.1 hlegal
    exact ⟨hvalid, htx, ⟨hrx, hframe, hoverrun, hpending⟩, ⟨hmode, hactive, hidle, hretries⟩, ⟨hpkt, hzero, hbegun⟩,
      ⟨hstaging, heot, hreceiving, hdeclared, hremaining, hoffset⟩, hname⟩
  · rintro ⟨hvalid, htx, ⟨hrx, hframe, hoverrun, hpending⟩, ⟨hmode, hactive, hidle, hretries⟩, ⟨hpkt, hzero, hbegun⟩,
      ⟨hstaging, heot, hreceiving, hdeclared, hremaining, hoffset⟩, hname⟩
    exact ⟨⟨hmode, hzero, hstaging.1, hoverrun, hretries, hactive, hidle, hpending⟩,
      s.legal_iff.2 ⟨hvalid, htx, hrx, hframe, hpkt, hname, hremaining, hoffset⟩,
      ⟨hbegun, hstaging, heot, hreceiving, hdeclared⟩⟩

/-- The invariant says nothing of the output list, the pending inputs, the draw counter and `op_err`. -/
theorem State.Inv.withEvents (h : s.Inv) (es : List Event) (ins : List HostInput) (d : Nat) (x : OpErr) :
    ({ s with events := es, inputs := ins, draws := d, opErr := x } : State).Inv := by
  obtain ⟨hvalid, htx, ⟨hrx, hframe, hoverrun, hpending⟩, ⟨hcontrol, hpacket, hfile, hname⟩⟩ := State.inv_iff.1 h
  exact State.inv_iff.2 ⟨hvalid, htx, ⟨hrx, hframe, hoverrun, hpending⟩, ⟨hcontrol, hpacket, hfile, hname⟩⟩

theorem State.SameDetector.inv (h : s.SameDetector t) (hs : s.DetectorInv) : t.DetectorInv := by
  obtain ⟨hrx, hframe, hoverrun, hpending⟩ := hs
  rw [← h.rxbuf, ← h.rxLen] at hrx
  rw [← h.frame, ← h.frameLen] at hframe
  rw [← h.frameValid, ← h.overrun] at hoverrun
  rw [← h.pending] at hpending
  exact ⟨hrx, hframe, hoverrun, hpending⟩

theorem State.SameEngine.inv (h : s.SameEngine t) (hcfg : t.cfg = s.cfg) (hs : s.EngineInv) : t.EngineInv := by
  obtain ⟨hcontrol, hpacket, hfile, hname⟩ := hs
  rw [← hcfg, ← h.mode, ← h.btState, ← h.idleTicks, ← h.retries] at hcontrol
  rw [← h.btState, ← h.pkt, ← h.pktLen] at hpacket
  rw [← h.btState, ← h.stagingOpen, ← h.remaining, ← h.writeOffset] at hfile
  rw [← h.targetName, ← h.nameLen] at hname
  exact ⟨hcontrol, hpacket, hfile, hname⟩

/-! ### The rules of the parts -/

theorem ControlLegal.of_idle (c : Config) : ControlLegal c .detector .idle 0 0 :=
  ⟨by simp, fun h => absurd rfl h, fun _ => rfl, Nat.zero_le _⟩

/-- An active engine, with its idle count below the window. -/
theorem ControlLegal.of_active (hst : st ≠ .idle) (hidle : idle.toNat < c.tTimeout) (hr : r.toNat ≤ retryLimit c.maxRetries) :
    ControlLegal c .engine st idle r :=
  ⟨by simpa using hst, fun _ => hidle, fun h => absurd h hst, hr⟩

/-- An engine that is active and stays so. -/
theorem ControlLegal.toActive (h : ControlLegal c m st idle r) (hst : st ≠ .idle) (hst' : st' ≠ .idle) {idle' : BitVec 32}
    (hidle : idle'.toNat < c.tTimeout) {r' : Byte} (hr : r'.toNat ≤ retryLimit c.maxRetries) :
    ControlLegal c m st' idle' r' :=
  h.mode_iff.2 hst ▸ .of_active hst' hidle hr

theorem PacketLegal.clear (h : PacketLegal st mem len) (st' : BtState) : PacketLegal st' mem 0 :=
  ⟨h.array.clear, fun _ => rfl, fun hne => absurd rfl hne⟩

theorem FileLegal.isOpen_eq_false (h : FileLegal st isOpen left off) (hst : ¬ st.stages) : isOpen = false :=
  Bool.eq_false_iff.2 fun ho => hst (h.staging_iff.1 ho)

/-- The destination closed. -/
theorem FileLegal.close (h : FileLegal st isOpen left off) (hst' : ¬ st'.stages) (hoff : off'.toNat ≤ maxFileSize) :
    FileLegal st' false left off' where
  staging_iff := by simpa using hst'
  waitEot he := absurd (.inr he) hst'
  receiving he := absurd (.inl he) hst'
  declared ho := by simp at ho
  remaining := h.remaining
  writeOffset := hoff

/-- Between states that do not stage, the destination stays closed. -/
theorem FileLegal.unstaged (h : FileLegal st isOpen left off) (hst : ¬ st.stages) (hst' : ¬ st'.stages)
    (hoff : off'.toNat ≤ maxFileSize) : FileLegal st' isOpen left off' := by
  cases h.isOpen_eq_false hst
  exact h.close hst' hoff

theorem BtState.not_stages_idle : ¬ BtState.idle.stages := by simp [BtState.stages]
theorem BtState.not_stages_waitHeader : ¬ BtState.waitHeader.stages := by simp [BtState.stages]
theorem BtState.not_stages_complete : ¬ BtState.complete.stages := by simp [BtState.stages]

theorem BtState.stages.ne_idle (h : st.stages) : st ≠ .idle := by rintro rfl; exact not_stages_idle h

/-! ### Signed sizes -/

theorem toInt_neg_iff : left.toInt < 0 ↔ 2 ^ 63 ≤ left.toNat := by
  have := left.isLt
  rw [BitVec.toInt_neg_iff]
  omega

theorem toInt_eq_toNat (h : ¬ left.toInt < 0) : left.toInt = left.toNat :=
  BitVec.toInt_eq_toNat_of_lt (BitVec.toInt_pos_iff.1 (not_lt.1 h))

/-- The only legal negative size is -1 (R13). -/
theorem eq_neg_one (h : -1 ≤ left.toInt) (hneg : left.toInt < 0) : left = -1 :=
  BitVec.eq_of_toInt_eq (by rw [show (-1 : BitVec 64).toInt = -1 from rfl]; omega)

/-- A size that a header declares, or that it leaves open, is at least -1 and fits the file size (R209). -/
theorem headerSize_bounds {size : BitVec 64} (h : size = -1 ∨ ∃ k, k ≤ maxFileSize ∧ size = BitVec.ofNat 64 k) :
    -1 ≤ size.toInt ∧ (0 ≤ size.toInt → size.toNat ≤ maxFileSize) := by
  obtain rfl | ⟨k, hk, rfl⟩ := h
  · decide
  · have htoNat : (BitVec.ofNat 64 k).toNat = k := by
      rw [BitVec.toNat_ofNat, Nat.mod_eq_of_lt]
      simp only [maxFileSize] at hk
      omega
    have hpos : ¬ (BitVec.ofNat 64 k).toInt < 0 := by
      rw [toInt_neg_iff, htoNat]
      simp only [maxFileSize] at hk
      omega
    rw [toInt_eq_toNat hpos, htoNat]
    exact ⟨by omega, fun _ => hk⟩

/-! ### The reset state -/

theorem State.inv_resetWith (h : c.valid = true) : (State.resetWith c).Inv := by
  refine State.inv_iff.2 ⟨h, .empty _, ⟨.empty _, .empty _, fun _ => rfl, Nat.zero_le _⟩, .of_idle c,
    ⟨.empty _, fun _ => rfl, fun hne => absurd rfl hne⟩, ?_, .empty _⟩
  refine ⟨iff_of_false Bool.false_ne_true BtState.not_stages_idle, nofun, nofun, nofun, ?_, Nat.zero_le _⟩
  simp [State.resetWith]

/-- Settles O13: nothing is written, every length is 0 and the engine is in Idle. -/
theorem resetStateMeetsTheInvariants : Obligations.ResetStateMeetsTheInvariants :=
  ⟨fun _ => State.inv_resetWith, State.inv_resetWith (by decide)⟩

end Sys2Proof.Machine
end

section
/-!
PROOFS of the whole-machine statements, part 5 (10_state.md section 8): every step keeps the invariant. Each unit's operations keep
that unit's part and leave the other parts alone (`sameEngine`, `sameDetector`, `sameChecksumUnits`).
-/

namespace Sys2Proof.Machine

variable {s t : State} {b : Byte} {i : Instr} {n : Nat}

/-! ### The checksum units and the detector -/

theorem IsChecksumOp.txbuf_legal (hi : IsChecksumOp i) (hs : ArrayLegal s.txbuf s.txLen s.cfg.txbufCap) (h : exec i s = .next t) :
    ArrayLegal t.txbuf t.txLen s.cfg.txbufCap := by
  cases hi with
  | txClr => cases h; exact hs.clear
  | txByte b =>
    obtain ⟨_, rfl⟩ | ⟨hlt, rfl⟩ := execTxByte_next h
    · exact hs
    · exact hs.append hlt b
  | txSeal =>
    obtain ⟨_, rfl⟩ | ⟨hmin, _, rfl⟩ := execTxSeal_next h
    · exact hs
    · refine hs.overwrite ?_ _
      simp only [minTxLen] at hmin
      omega
  | nop | ckClr | ckAcc b | c16Clr | c16Acc b => cases h; exact hs

theorem State.DetectorInv.latch (hs : s.DetectorInv) (k : FrameKind) : (s.latch k).DetectorInv := by
  have hlen : s.rxBytes.length = s.rxLen := s.length_bytes .rxbuf 0 s.rxLen
  have hframe := hs.frame.replace (bs := s.rxBytes) (hlen.trans_le hs.rxbuf.le)
  rw [hlen] at hframe
  exact ⟨hs.rxbuf.clear, hframe, nofun, hs.pending⟩

theorem State.DetectorInv.endBatch (hs : s.DetectorInv) (c : RxClass) : (s.endBatch c).DetectorInv := by
  rcases s.endBatch_cases c with e | ⟨_, _, e⟩ | ⟨_, e⟩ | ⟨_, hcount, e⟩ <;> rw [e]
  · exact hs
  · exact ⟨hs.rxbuf.clear, hs.frame, hs.overrun, hs.pending⟩
  · exact hs.latch .response
  · obtain ⟨hrx, hframe, hoverrun, _⟩ := hs.latch .notification
    exact ⟨hrx, hframe, hoverrun, hcount⟩

theorem IsDetectorOp.inv (hi : IsDetectorOp s.mode i) (hs : s.DetectorInv) (h : exec i s = .next t) : t.DetectorInv := by
  obtain ⟨hrx, hframe, hoverrun, hpending⟩ := hs
  cases hi with
  | rxEob =>
    obtain ⟨_, rfl⟩ := execRxEob_next h
    exact State.DetectorInv.endBatch (s := { s with rxClass := classify s.rxBytes }) ⟨hrx, hframe, hoverrun, hpending⟩ _
  | rxClassify =>
    obtain ⟨_, rfl⟩ := execRxClassify_next h
    exact ⟨hrx, hframe, hoverrun, hpending⟩
  | rxClr => cases h; exact ⟨hrx.clear, hframe, hoverrun, hpending⟩
  | frameTake =>
    obtain ⟨_, rfl⟩ | ⟨_, rfl⟩ := execFrameTake_next h
    · exact ⟨hrx, hframe, fun _ => rfl, hpending⟩
    · exact ⟨hrx, hframe, hoverrun, hpending⟩
  | rxByte b hm =>
    obtain ⟨_, rfl⟩ | ⟨hlt, rfl⟩ := detectorRx_next ((execRxByte_of_detector hm b).symm.trans h)
    · exact ⟨hrx.clear, hframe, hoverrun, hpending⟩
    · exact ⟨hrx.append hlt b, hframe, hoverrun, hpending⟩

/-! ### The engine between and after packets -/

theorem State.EngineInv.startTransfer (hs : s.EngineInv) (hst : s.btState = .idle) (hc : 0 < s.cfg.tTimeout) :
    s.startTransfer.EngineInv where
  control := .of_active nofun hc (Nat.zero_le _)
  packet := hs.packet.clear _
  file := hs.file.unstaged (hst ▸ BtState.not_stages_idle) BtState.not_stages_waitHeader (Nat.zero_le _)
  name := hs.name.clear

theorem State.EngineInv.abort (hs : s.EngineInv) (reason : BtStatus) : (s.abort reason).EngineInv where
  control := .of_idle s.cfg
  packet := hs.packet.clear _
  file := hs.file.close BtState.not_stages_idle hs.file.writeOffset
  name := hs.name

/-- The idle count of an active engine, set to a value below the window. -/
theorem State.EngineInv.withIdle (hs : s.EngineInv) (hst : s.btState ≠ .idle) {k : BitVec 32} (hk : k.toNat < s.cfg.tTimeout) :
    ({ s with idleTicks := k } : State).EngineInv where
  control := hs.control.toActive hst hst hk hs.control.retries
  packet := hs.packet
  file := hs.file
  name := hs.name

/-- The retries of an active engine, whatever it emits. -/
theorem State.EngineInv.withRetries (hs : s.EngineInv) (hst : s.btState ≠ .idle) {r : Byte}
    (hr : r.toNat ≤ retryLimit s.cfg.maxRetries) (es : List Event) :
    ({ s with retries := r, events := es } : State).EngineInv where
  control := hs.control.toActive hst hst (hs.control.idle_active hst) hr
  packet := hs.packet
  file := hs.file
  name := hs.name

theorem State.EngineInv.onEot (hs : s.EngineInv) (hst : s.btState.stages) (hlen : s.pktLen = 0) : s.onEot.EngineInv where
  control := hs.control.toActive hst.ne_idle (st' := .complete) nofun (hs.control.idle_active hst.ne_idle) (Nat.zero_le _)
  packet := ⟨hs.packet.array, fun _ => hlen, hs.packet.begun⟩
  file := hs.file.close BtState.not_stages_complete hs.file.writeOffset
  name := hs.name

theorem State.EngineInv.onEndOfBatch (hs : s.EngineInv) (hst : s.btState = .waitHeader) : s.onEndOfBatch.EngineInv where
  control := .of_idle s.cfg
  packet := hs.packet.clear _
  file := hs.file.unstaged (hst ▸ BtState.not_stages_waitHeader) BtState.not_stages_idle hs.file.writeOffset
  name := hs.name

/-- A NAK is sent only while retries are left, so one more stays within the limit (R211). -/
theorem toNat_bumpRetries_le {m : RetryBound} {r : Byte} (h : r.toNat ≤ retryLimit m) (hleft : retriesReached m r = false) :
    (bumpRetries r).toNat ≤ retryLimit m := by
  have hbump : (bumpRetries r).toNat = min (r.toNat + 1) 255 := by
    rw [bumpRetries, BitVec.toNat_ofNat, Nat.mod_eq_of_lt (by omega)]
  rw [hbump]
  cases m with
  | inf => exact Nat.min_le_right _ _
  | upTo k =>
    have hne : r.toNat ≠ k.toNat := fun he => by simp [retriesReached, BitVec.eq_of_toNat_eq he] at hleft
    simp only [retryLimit] at h ⊢
    omega

/-! ### The header and the data -/

theorem stateAfterHeader_stages (size : BitVec 64) : (stateAfterHeader size).stages := by
  rw [stateAfterHeader]
  split
  · exact .inr rfl
  · exact .inl rfl

theorem fileLegal_acceptHeader {size : BitVec 64} (hsize : -1 ≤ size.toInt ∧ (0 ≤ size.toInt → size.toNat ≤ maxFileSize)) :
    FileLegal (stateAfterHeader size) true size 0 where
  staging_iff := iff_of_true rfl (stateAfterHeader_stages size)
  waitEot he := by simpa [stateAfterHeader] using he
  receiving he hzero := by simp [stateAfterHeader, hzero] at he
  declared _ hpos := by simpa using hsize.2 hpos
  remaining := hsize.1
  writeOffset := Nat.zero_le _

theorem State.EngineInv.acceptHeader (hs : s.EngineInv) (hst : s.btState ≠ .idle) (hlen : s.pktLen = 0) {name : List Byte}
    {size : BitVec 64} (hname : name.length ≤ nameSize)
    (hsize : -1 ≤ size.toInt ∧ (0 ≤ size.toInt → size.toNat ≤ maxFileSize)) : (s.acceptHeader name size).EngineInv where
  control := hs.control.toActive hst (stateAfterHeader_stages size).ne_idle (hs.control.idle_active hst) (Nat.zero_le _)
  packet := ⟨hs.packet.array, fun _ => hlen, hs.packet.begun⟩
  file := fileLegal_acceptHeader hsize
  name := hs.name.replace hname

theorem writeLen_le (s : State) (n : Nat) : writeLen s n ≤ n := by
  rw [writeLen]
  split <;> omega

theorem toNat_remainingAfter (hpos : ¬ s.remaining.toInt < 0) (n : Nat) :
    (remainingAfter s (writeLen s n)).toNat = s.remaining.toNat - writeLen s n ∧ writeLen s n ≤ s.remaining.toNat := by
  have hle : writeLen s n ≤ s.remaining.toNat := by rw [writeLen, if_neg hpos]; omega
  have hmod : (BitVec.ofNat 64 (writeLen s n)).toNat = writeLen s n := by
    rw [BitVec.toNat_ofNat, Nat.mod_eq_of_lt (hle.trans_lt s.remaining.isLt)]
  rw [remainingAfter, if_neg hpos, BitVec.toNat_sub_of_le (by rwa [BitVec.le_def, hmod]), hmod]
  exact ⟨rfl, hle⟩

theorem toInt_remainingAfter_neg_iff (s : State) (n : Nat) :
    (remainingAfter s (writeLen s n)).toInt < 0 ↔ s.remaining.toInt < 0 := by
  by_cases hneg : s.remaining.toInt < 0
  · rw [remainingAfter, if_pos hneg]
  · have := (toNat_remainingAfter hneg n).1
    rw [toInt_neg_iff] at hneg ⊢
    rw [toInt_neg_iff]
    omega

/-- The offset advances without wrapping, within the limit (R212, D39). -/
theorem toNat_writeOffset_add {w : Nat} (hoff : s.writeOffset.toNat ≤ maxFileSize)
    (hle : w = 0 ∨ s.writeOffset.toNat + w ≤ maxFileSize) :
    (s.writeOffset + BitVec.ofNat 64 w).toNat = s.writeOffset.toNat + w := by
  simp only [maxFileSize] at hoff hle
  rw [BitVec.toNat_add, BitVec.toNat_ofNat]
  omega

theorem stateAfterData_stages {st : BtState} (h : st.stages) (left : BitVec 64) : (stateAfterData st left).stages := by
  rw [stateAfterData]
  split
  · exact .inr rfl
  · exact h

/-- In WaitEot nothing remains, before and after a block (R200). -/
theorem remainingAfter_zero (h : s.remaining = 0) (n : Nat) : remainingAfter s (writeLen s n) = 0 := by
  have hpos : ¬ s.remaining.toInt < 0 := by simp [h]
  have := (toNat_remainingAfter hpos n).1
  exact BitVec.eq_of_toNat_eq (by rw [this, h]; simp)

theorem State.EngineInv.acceptData (hs : s.EngineInv) (hst : s.btState.stages) (hlen : s.pktLen = 0) {data : List Byte}
    {n : Nat} (hle : writeLen s n = 0 ∨ s.writeOffset.toNat + writeLen s n ≤ maxFileSize) :
    (s.acceptData data (writeLen s n)).EngineInv where
  control := hs.control.toActive hst.ne_idle (stateAfterData_stages hst _).ne_idle (hs.control.idle_active hst.ne_idle)
    (Nat.zero_le _)
  packet := ⟨hs.packet.array, fun _ => hlen, hs.packet.begun⟩
  name := hs.name
  file := by
    have hoffset := toNat_writeOffset_add hs.file.writeOffset hle
    have hopen : s.stagingOpen = true := hs.file.staging_iff.2 hst
    constructor
    case staging_iff => exact iff_of_true hopen (stateAfterData_stages hst _)
    case waitEot =>
      intro he
      simp only [State.acceptData, stateAfterData] at he ⊢
      split at he
      · assumption
      · exact remainingAfter_zero (hs.file.waitEot he) n
    case receiving =>
      intro he
      simp only [State.acceptData, stateAfterData] at he ⊢
      split at he
      · cases he
      · assumption
    case declared =>
      intro _ hpos
      have hpos' : ¬ s.remaining.toInt < 0 := mt (toInt_remainingAfter_neg_iff s n).2 (not_lt.2 hpos)
      obtain ⟨hleft, hwle⟩ := toNat_remainingAfter hpos' n
      have := hs.file.declared hopen (not_lt.1 hpos')
      simp only [State.acceptData]
      omega
    case remaining =>
      by_cases hneg : s.remaining.toInt < 0
      · simpa [State.acceptData, remainingAfter, hneg] using hs.file.remaining
      · exact le_trans (by decide) (not_lt.1 (mt (toInt_remainingAfter_neg_iff s n).1 hneg))
    case writeOffset =>
      have := hs.file.writeOffset
      simp only [State.acceptData]
      omega

/-! ### A byte for the engine -/

theorem packetDataLen_le (start : Byte) : packetDataLen start ≤ stxDataLen := by
  rw [packetDataLen]
  split <;> decide

theorem one_lt_packetDataLen_add (start : Byte) : 1 < packetDataLen start + packetOverhead :=
  Nat.lt_add_left _ (by decide)

/-- The state in which a packet is answered meets the engine's invariant, with no packet begun. -/
theorem State.EngineInv.withPacket (hs : s.EngineInv) (hst : s.btState ≠ .idle) (hsize : s.pktLen < pktSize)
    (hc : 0 < s.cfg.tTimeout) (b : Byte) : (s.withPacket b).EngineInv where
  control := hs.control.toActive hst hst (idle' := 0) hc hs.control.retries
  packet := ⟨(hs.packet.array.append hsize b).clear, fun _ => rfl, fun hne => absurd rfl hne⟩
  file := hs.file
  name := hs.name

theorem PacketAnswer.inv (h : PacketAnswer n s t) (hs : s.EngineInv) (hst : s.btState ≠ .idle) (hlen : s.pktLen = 0)
    (hn : n ≤ stxDataLen) : t.EngineInv := by
  cases h with
  | abort => exact hs.abort _
  | nak hleft => exact hs.withRetries hst (toNat_bumpRetries_le hs.control.retries hleft) _
  | endOfBatch hwait => exact hs.onEndOfBatch hwait
  | header name size _ hname hsize =>
    refine hs.acceptHeader hst hlen ?_ (headerSize_bounds hsize)
    simp only [nameSize, stxDataLen] at hn ⊢
    omega
  | data _ _ hstages hle => exact hs.acceptData hstages hlen hle
  | duplicate => exact hs.withRetries hst (Nat.zero_le _) _

theorem ByteAnswer.inv (h : ByteAnswer b s t) (hs : s.EngineInv) (hst : s.btState ≠ .idle) (hcomplete : s.btState ≠ .complete)
    (hc : 0 < s.cfg.tTimeout) : t.EngineInv := by
  have hactive : ¬(s.btState = .idle ∨ s.btState = .complete) := not_or.2 ⟨hst, hcomplete⟩
  have hidle := hs.withIdle hst (k := 0) hc
  cases h with
  | start hlen hb =>
    obtain ⟨hcontrol, hpacket, hfile, hname⟩ := hidle
    have harray : ArrayLegal (s.pkt.write 0 b) 1 pktSize := by
      have := hpacket.array
      rw [show ({ s with idleTicks := 0 } : State).pktLen = 0 from hlen] at this
      exact this.append (by decide) b
    have hread : (s.pkt.write 0 b).read? 0 = some b := (Memory.read?_write _ _ _ _).trans (if_pos rfl)
    exact ⟨hcontrol, ⟨harray, fun h => absurd h hactive, fun _ => ⟨b, hread, hb, one_lt_packetDataLen_add b⟩⟩, hfile, hname⟩
  | eot hlen hstages => exact hidle.onEot hstages hlen
  | stray => exact hidle
  | stored hbegun hsize hne =>
    obtain ⟨hcontrol, hpacket, hfile, hname⟩ := hidle
    obtain ⟨start, hstart, hb, hlt⟩ := hs.packet.begun hbegun
    rw [s.rd_appendPkt_zero (Nat.pos_of_ne_zero hbegun) hstart b] at hne
    refine ⟨hcontrol, ⟨hpacket.array.append hsize b, fun h => absurd h hactive, fun _ => ⟨start, ?_, hb, ?_⟩⟩, hfile, hname⟩
    · exact (Memory.read?_write _ _ _ _).trans ((if_neg (Ne.symm hbegun)).trans hstart)
    · simp only [State.appendPkt]
      omega
  | packet _ hsize h => exact h.inv (hs.withPacket hst hsize hc b) hst rfl (packetDataLen_le _)

theorem IsEngineOp.inv (hi : IsEngineOp s.mode i) (hs : s.EngineInv) (hcomplete : s.btState ≠ .complete)
    (hc : 0 < s.cfg.tTimeout) (h : exec i s = .next t) : t.EngineInv := by
  cases hi with
  | btStart =>
    obtain ⟨hst, rfl⟩ | ⟨_, rfl⟩ := execBtStart_next h
    · exact hs.startTransfer hst hc
    · obtain ⟨hcontrol, hpacket, hfile, hname⟩ := hs
      exact ⟨hcontrol, hpacket, hfile, hname⟩
  | tick =>
    obtain ⟨_, rfl⟩ | ⟨_, _, rfl⟩ | ⟨hst, hlt, rfl⟩ := execTick_next h
    · exact hs
    · exact hs.abort _
    · refine hs.withIdle hst ((Nat.mod_le _ _).trans_lt ?_)
      simpa using hlt
  | rxByte b hm =>
    exact (engineRx_next ((execRxByte_of_engine hm b).symm.trans h)).inv hs (hs.control.mode_iff.1 hm) hcomplete hc

/-! ### Every step -/

theorem exec_inv (hs : s.Inv) (hcomplete : s.btState ≠ .complete) (h : exec i s = .next t) : t.Inv := by
  obtain ⟨hvalid, htx, hdetector, hengine⟩ := State.inv_iff.1 hs
  have hcfg : t.cfg = s.cfg := exec_cfg h
  have hvalid' : t.cfg.valid = true := hcfg ▸ hvalid
  have hsame (hck : s.SameChecksumUnits t) : ArrayLegal t.txbuf t.txLen t.cfg.txbufCap := by
    rwa [hck.txbuf, hck.txLen, hcfg]
  obtain hi | hi | hi := unit_cases i s.mode
  · obtain ⟨hd, he, _⟩ := hi.sameOutside h
    exact State.inv_iff.2 ⟨hvalid', hcfg ▸ hi.txbuf_legal htx h, hd.inv hdetector, he.inv hcfg hengine⟩
  · exact State.inv_iff.2 ⟨hvalid', hsame (hi.sameChecksumUnits h), hi.inv hdetector h, (hi.sameEngine h).inv hcfg hengine⟩
  · obtain ⟨_, _, hc, _⟩ := Config.bounds_of_valid hvalid
    exact State.inv_iff.2 ⟨hvalid', hsame (hi.sameChecksumUnits h), (hi.sameDetector h).inv hdetector,
      hi.inv hengine hcomplete hc h⟩

theorem State.EngineInv.goIdle (hs : s.EngineInv) (hst : s.btState = .complete) : s.goIdle.EngineInv where
  control := .of_idle s.cfg
  packet := hs.packet.clear _
  file := hs.file.unstaged (hst ▸ BtState.not_stages_complete) BtState.not_stages_idle hs.file.writeOffset
  name := hs.name

theorem State.Inv.goIdle (hs : s.Inv) (hst : s.btState = .complete) : s.goIdle.Inv := by
  obtain ⟨hvalid, htx, ⟨hrx, hframe, hoverrun, hpending⟩, hengine⟩ := State.inv_iff.1 hs
  exact State.inv_iff.2 ⟨hvalid, htx, ⟨hrx, hframe, hoverrun, hpending⟩, hengine.goIdle hst⟩

/-- The pre-step keeps the invariant (R272). -/
theorem State.Inv.beginStep (hs : s.Inv) : s.beginStep.Inv := by
  by_cases hst : s.btState = .complete
  · rw [s.beginStep_of_complete hst]
    exact (hs.goIdle hst).withEvents [] s.inputs (s.draws + 1) .none
  · rw [s.beginStep_of_ne hst]
    exact hs.withEvents [] s.inputs (s.draws + 1) .none

theorem State.Inv.withInputs (hs : s.Inv) (ins : List HostInput) : ({ s with inputs := ins } : State).Inv :=
  hs.withEvents s.events ins s.draws s.opErr

theorem step_inv (hs : s.Inv) (h : step s = .next t) : t.Inv := by
  obtain ⟨_, rfl⟩ | ⟨rest, _, rfl⟩ | ⟨_, rest, _, _, _, hexec⟩ | ⟨_, rest, _, _, _, rfl⟩ := step_next h
  · exact hs.withEvents [] s.inputs s.draws s.opErr
  · exact (State.inv_resetWith hs.legal.config).withEvents [] rest (s.draws + 1) .none
  · exact exec_inv (hs.withInputs rest).beginStep (State.preStepDone_beginStep _).btState hexec
  · have hbegin := (hs.withInputs rest).beginStep
    exact hbegin.withEvents _ _ _ _

/-- Settles O14: holding, a reset, the pre-step and each operation after it keep the invariant. -/
theorem everyStepKeepsTheInvariants : Obligations.EveryStepKeepsTheInvariants := fun _ _ => step_inv

end Sys2Proof.Machine
end

section
/-!
PROOFS of the whole-machine statements, part 6 (92 D39, 93 I9): from a state that meets the invariant an operation answers, but for the
one fault of a data block that would carry `write_offset` past the limit. The other faults need a length past its array, or a packet
that is complete while no transfer is active.
-/

namespace Sys2Proof.Machine

variable {s t : State} {b : Byte} {i : Instr} {n : Nat}

/-- The operation answers a next state. -/
def Answers (r : Result) : Prop := ∃ t, r = .next t

/-- Where D39 asks for a fault: a data block of a file of undeclared size, too close to the limit (R13, R212). -/
structure State.AtSizeLimit (s : State) : Prop where
  btState : s.btState = .receivingData
  remaining : s.remaining = -1
  offset : 2 ^ 63 - 1 < s.writeOffset.toNat + 1024

/-! ### The operations that always answer -/

theorem IsChecksumOp.answers (hi : IsChecksumOp i) (hs : ArrayLegal s.txbuf s.txLen s.cfg.txbufCap) : Answers (exec i s) := by
  cases hi with
  | txByte b =>
    obtain hfull | hlt := Nat.eq_or_lt_of_le hs.le
    · exact ⟨_, execTxByte_of_full hfull b⟩
    · exact ⟨_, execTxByte_of_lt hlt b⟩
  | txSeal =>
    obtain hlt | hmin := Nat.lt_or_ge s.txLen minTxLen
    · exact ⟨_, execTxSeal_of_lt hlt⟩
    · exact ⟨_, execTxSeal_of_le hmin hs.le⟩
  | nop | ckClr | ckAcc b | c16Clr | c16Acc b | txClr => exact ⟨_, rfl⟩

theorem IsDetectorOp.answers (hi : IsDetectorOp s.mode i) (hs : s.DetectorInv) : Answers (exec i s) := by
  cases hi with
  | rxEob => exact ⟨_, execRxEob_of_classify hs.rxbuf.le rfl⟩
  | rxClassify => exact ⟨_, execRxClassify_of_le hs.rxbuf.le⟩
  | rxClr => exact ⟨_, rfl⟩
  | frameTake =>
    cases hvalid : s.frameValid with
    | true => exact ⟨_, execFrameTake_of_valid hvalid⟩
    | false => exact ⟨_, execFrameTake_of_not_valid hvalid⟩
  | rxByte b hm =>
    obtain hfull | hlt := Nat.eq_or_lt_of_le hs.rxbuf.le
    · exact ⟨_, (execRxByte_of_detector hm b).trans (detectorRx_of_full hfull b)⟩
    · exact ⟨_, (execRxByte_of_detector hm b).trans (detectorRx_of_lt hlt b)⟩

theorem execTick_answers (s : State) : Answers (execTick s) := by
  by_cases hst : s.btState = .idle
  · exact ⟨_, execTick_of_idle hst⟩
  · obtain hlt | hge := Nat.lt_or_ge (s.idleTicks.toNat + 1) s.cfg.tTimeout
    · exact ⟨_, execTick_of_lt hst hlt⟩
    · exact ⟨_, execTick_of_ge hst hge⟩

theorem execBtStart_answers (s : State) : Answers (execBtStart s) := by
  by_cases hst : s.btState = .idle
  · exact ⟨_, execBtStart_of_idle hst⟩
  · exact ⟨_, execBtStart_of_ne hst⟩

/-! ### A byte for the engine -/

/-- A block of a declared size never passes the limit: no more is written than remains (R212). -/
theorem State.EngineInv.atSizeLimit (hs : s.EngineInv) (hst : s.btState.stages) (hn : n ≤ stxDataLen) (hpos : 0 < writeLen s n)
    (hgt : maxFileSize < s.writeOffset.toNat + writeLen s n) : s.AtSizeLimit := by
  have hneg : s.remaining.toInt < 0 := by
    by_contra hdeclared
    have hwlen := (toNat_remainingAfter hdeclared n).2
    have hsum := hs.file.declared (hs.file.staging_iff.2 hst) (not_lt.1 hdeclared)
    omega
  have hleft : s.remaining = -1 := eq_neg_one hs.file.remaining hneg
  have hstate : s.btState = .receivingData := hst.resolve_right fun heot => by
    rw [hs.file.waitEot heot] at hleft
    exact absurd hleft (by decide)
  have hwlen := writeLen_le s n
  refine ⟨hstate, hleft, ?_⟩
  simp only [maxFileSize, stxDataLen] at hgt hn
  omega

theorem State.EngineInv.onPacket_answers (hs : s.EngineInv) (hactive : ¬(s.btState = .idle ∨ s.btState = .complete))
    (hn : n ≤ stxDataLen) :
    Answers (onPacket n s) ∨ (onPacket n s = .fault .writeOffsetOverflow ∧ s.AtSizeLimit) := by
  rcases onPacket_cases n s with ⟨_, hst⟩ | e | ⟨e, _⟩ | ⟨_, _, _, _, _, e, _⟩ | ⟨e, hst⟩ | ⟨e, _⟩
  · exact absurd hst hactive
  · exact .inl ⟨_, e⟩
  · exact .inl ⟨_, e⟩
  · exact .inl ⟨_, e⟩
  · rcases onData_cases (s.bytes .pkt 3 n) s with ⟨e', hpos, hgt⟩ | ⟨e', _⟩
    · rw [State.length_bytes] at hpos hgt
      exact .inr ⟨e.trans e', hs.atSizeLimit hst hn hpos hgt⟩
    · exact .inl ⟨_, e.trans e'⟩
  · exact .inl ⟨_, e⟩

theorem State.EngineInv.engineRx_answers (hs : s.EngineInv) (hc : 0 < s.cfg.tTimeout) (b : Byte) :
    Answers (engineRx b s) ∨ (engineRx b s = .fault .writeOffsetOverflow ∧ s.AtSizeLimit) := by
  rcases engineRx_cases b s with ⟨_, _, e⟩ | ⟨_, _, _, e⟩ | ⟨_, e⟩ | ⟨hbegun, hsize, _⟩ | ⟨_, _, _, e⟩ | ⟨hbegun, hsize, _, e⟩
  · exact .inl ⟨_, e⟩
  · exact .inl ⟨_, e⟩
  · exact .inl ⟨_, e⟩
  · obtain ⟨start, _, _, hlt⟩ := hs.packet.begun hbegun
    exact absurd (hlt.trans_le (packetDataLen_add_overhead_le start)) (Nat.not_lt.2 hsize)
  · exact .inl ⟨_, e⟩
  · have hactive : ¬(s.btState = .idle ∨ s.btState = .complete) := mt hs.packet.zero hbegun
    rw [e]
    have hpacket := hs.withPacket (not_or.1 hactive).1 hsize hc b
    obtain hanswers | ⟨hfault, hst, hleft, hoffset⟩ :=
      hpacket.onPacket_answers hactive (packetDataLen_le _)
    · exact .inl hanswers
    · exact .inr ⟨hfault, hst, hleft, hoffset⟩

/-! ### Every step -/

theorem exec_answers (hs : s.Inv) (i : Instr) :
    Answers (exec i s) ∨ (exec i s = .fault .writeOffsetOverflow ∧ s.AtSizeLimit ∧ ∃ b, i = .rxByte b) := by
  obtain ⟨hvalid, htx, hdetector, hengine⟩ := State.inv_iff.1 hs
  obtain hi | hi | hi := unit_cases i s.mode
  · exact .inl (hi.answers htx)
  · exact .inl (hi.answers hdetector)
  · cases hi with
    | btStart => exact .inl (execBtStart_answers s)
    | tick => exact .inl (execTick_answers s)
    | rxByte b hm =>
      obtain ⟨_, _, hc, _⟩ := Config.bounds_of_valid hvalid
      have hexec : exec (.rxByte b) s = engineRx b s := execRxByte_of_engine hm b
      rw [hexec]
      exact (hengine.engineRx_answers hc b).imp_right fun ⟨hfault, hlimit⟩ => ⟨hfault, hlimit, b, rfl⟩

/-- Only the encoding of RX_BYTE decodes to it: the operand is in the word (R81). -/
theorem eq_encode_rxByte {w : Word} (h : decode w = .ok (.rxByte b)) : w = encode (.rxByte b) := by
  have hmask : w &&& 0xFFFF#16 = w := BitVec.and_allOnes
  exact hmask.symm.trans (decode_eq_ok_iff.1 h)

/-- The pre-step does not touch what D39's fault depends on. -/
theorem State.AtSizeLimit.of_beginStep {ins : List HostInput} (h : ({ s with inputs := ins } : State).beginStep.AtSizeLimit) :
    s.AtSizeLimit := by
  obtain ⟨hst, hleft, hoffset⟩ := h
  rw [State.beginStep_remaining] at hleft
  rw [State.beginStep_writeOffset] at hoffset
  rw [State.beginStep_btState] at hst
  split at hst
  · cases hst
  · exact ⟨hst, hleft, hoffset⟩

/-- With no input the engine holds its state (R260). -/
theorem takeInput_nil (h : s.inputs = []) : takeInput s = .next (holdStep s) := by
  simp [takeInput, h]

/-- Settles O15: a step of a valid configuration holds, resets, raises ILLEGAL_OP, or is the operation's answer after the pre-step. -/
theorem stepStopsOnlyAtTheFileSizeLimit : Obligations.StepStopsOnlyAtTheFileSizeLimit := by
  intro s hs
  have hv := hs.legal.config
  match hin : s.inputs with
  | [] => exact .inl ⟨_, (step_of_valid hv).trans (takeInput_nil hin)⟩
  | .reset :: rest => exact .inl ⟨_, step_reset hv hin⟩
  | .op w :: rest =>
    cases hd : decode w with
    | error e => exact .inl ⟨_, step_of_decode_error hv hin hd⟩
    | ok i =>
      have hstep := (step_op hv hin).trans (runWord_of_decode_ok hd)
      obtain ⟨t, hnext⟩ | ⟨hfault, hlimit, b, rfl⟩ := exec_answers (hs.withInputs rest).beginStep i
      · exact .inl ⟨t, hstep.trans hnext⟩
      · obtain ⟨hst, hleft, hoffset⟩ := hlimit.of_beginStep
        exact .inr ⟨hstep.trans hfault, hst, hleft, hoffset, b, rest, by rw [eq_encode_rxByte hd]⟩

end Sys2Proof.Machine
end

section
/-!
PROOFS of the whole-machine statements, part 7 (60_exceptions.md R250): the staging port. What an operation emits, the port allows, and
it leaves the port where the engine's fields say it is. The detector's events do not concern the port; the engine's answers are taken
one by one.
-/

namespace Sys2Proof.Machine

variable {s t : State} {b : Byte} {i : Instr} {n : Nat} {v : StagingView} {es es' : List Event}

/-! ### The port -/

theorem StagingView.seeAll_append (v : StagingView) (es es' : List Event) :
    v.seeAll (es ++ es') = (v.seeAll es).bind fun u => u.seeAll es' := by
  induction es generalizing v with
  | nil => rfl
  | cons e es ih =>
    simp only [List.cons_append, StagingView.seeAll]
    cases v.see e with
    | none => rfl
    | some u => exact ih u

/-- The events of other ports, while no FINALIZE is due. -/
theorem StagingView.seeAll_of_detector (hv : v ≠ .finalizing) (hes : ∀ e ∈ es, e.IsDetector) : v.seeAll es = some v := by
  induction es with
  | nil => rfl
  | cons e es ih =>
    obtain ⟨he, hrest⟩ := List.forall_mem_cons.1 hes
    have hsee : v.see e = some v := by
      cases e with
      | frame _ | frameErr _ | notify _ =>
        cases v with
        | closed | opened _ _ => rfl
        | finalizing => exact absurd rfl hv
      | serTx _ | stgOpen _ _ | stgWrite _ _ | stgClose | stgDiscard | finalize | btEnd _ => exact he.elim
    rw [StagingView.seeAll, hsee]
    exact ih hrest

/-! ### What the engine's fields say -/

theorem State.stagingView_of_closed (h : s.stagingOpen = false) : s.stagingView = .closed := by
  rw [State.stagingView, h]
  rfl

/-- The declared size of the open file: what has been written and what remains. -/
def State.declaredSize (s : State) : Option Nat :=
  if s.remaining.toInt < 0 then none else some (s.writeOffset.toNat + s.remaining.toNat)

theorem State.stagingView_of_open (h : s.stagingOpen = true) : s.stagingView = .opened s.declaredSize s.writeOffset.toNat :=
  if_pos h

theorem State.stagingView_ne_finalizing (s : State) : s.stagingView ≠ .finalizing := by
  rw [State.stagingView]
  split <;> nofun

theorem State.SameEngine.stagingView (h : s.SameEngine t) : t.stagingView = s.stagingView := by
  rw [State.stagingView, State.stagingView, h.stagingOpen, h.remaining, h.writeOffset]

/-- From `s` to `t` the port saw, in order, what it allows, and stands where the fields of `t` say. -/
def State.PortFollows (s t : State) : Prop := ∃ es, t.events = s.events ++ es ∧ s.stagingView.seeAll es = some t.stagingView

theorem State.portFollows_of_eq (hes : t.events = s.events) (hview : t.stagingView = s.stagingView) : s.PortFollows t :=
  ⟨[], by simp [hes], by rw [StagingView.seeAll, hview]⟩

/-- A byte for the sender does not concern the port. -/
theorem State.portFollows_serTx {x : Byte} (hes : t.events = s.events ++ [.serTx x]) (hview : t.stagingView = s.stagingView) :
    s.PortFollows t := by
  refine ⟨_, hes, ?_⟩
  rw [hview]
  have hne := s.stagingView_ne_finalizing
  cases hv : s.stagingView with
  | closed | opened _ _ => rfl
  | finalizing => exact absurd hv hne

theorem State.PortFollows.seeAll_events (h : s.PortFollows t) (hs : s.events = []) :
    s.stagingView.seeAll t.events = some t.stagingView := by
  obtain ⟨es, hes, hsee⟩ := h
  rwa [hes, hs, List.nil_append]

/-! ### The engine's answers -/

/-- An open destination is discarded, and then the end is reported (R217). -/
theorem State.portFollows_abort (s : State) (reason : BtStatus) : s.PortFollows (s.abort reason) := by
  refine ⟨_, congrArg State.events (s.abort_eq reason), ?_⟩
  rw [State.stagingView_of_closed (s := s.abort reason) rfl]
  cases ho : s.stagingOpen with
  | false => rw [State.stagingView_of_closed ho]; rfl
  | true => rw [State.stagingView_of_open ho]; rfl

theorem State.EngineInv.portFollows_onEot (hs : s.EngineInv) (hst : s.btState.stages) : s.PortFollows s.onEot := by
  refine ⟨_, rfl, ?_⟩
  rw [State.stagingView_of_closed (s := s.onEot) rfl, State.stagingView_of_open (hs.file.staging_iff.2 hst)]
  rfl

theorem State.EngineInv.stagingView_of_waitHeader (hs : s.EngineInv) (hst : s.btState = .waitHeader) : s.stagingView = .closed :=
  State.stagingView_of_closed (hs.file.isOpen_eq_false (hst ▸ BtState.not_stages_waitHeader))

theorem State.EngineInv.portFollows_onEndOfBatch (hs : s.EngineInv) (hst : s.btState = .waitHeader) :
    s.PortFollows s.onEndOfBatch := by
  have hview : s.onEndOfBatch.stagingView = s.stagingView := rfl
  refine ⟨_, rfl, ?_⟩
  rw [hview, hs.stagingView_of_waitHeader hst]
  rfl

/-- R209: the name is not empty and fits, and the size is a legal one. -/
theorem State.EngineInv.portFollows_acceptHeader (hs : s.EngineInv) (hst : s.btState = .waitHeader) {name : List Byte}
    {size : BitVec 64} (hne : name ≠ []) (hname : name.length ≤ nameSize) (hsize : -1 ≤ size.toInt) :
    s.PortFollows (s.acceptHeader name size) := by
  refine ⟨_, rfl, ?_⟩
  rw [hs.stagingView_of_waitHeader hst, State.stagingView_of_open (s := s.acceptHeader name size) rfl]
  have hallowed : 1 ≤ name.length ∧ name.length ≤ nameSize ∧ -1 ≤ size.toInt := ⟨List.length_pos_iff.2 hne, hname, hsize⟩
  simp [StagingView.seeAll, StagingView.see, hallowed, State.declaredSize, State.acceptHeader]

/-- A write at the offset reached, not past the declared size, moves the offset (R212, R250). -/
theorem StagingView.see_stgWrite {size : Option Nat} {off : BitVec 64} {data : List Byte} (hpos : 0 < data.length)
    (hmax : data.length ≤ stxDataLen) (hsize : ∀ k ∈ size, off.toNat + data.length ≤ k) :
    (StagingView.opened size off.toNat).see (.stgWrite off data) = some (.opened size (off.toNat + data.length)) :=
  if_pos ⟨rfl, hpos, hmax, hsize⟩

/-- A block of `wlen` bytes does not change the declared size: what is written no longer remains (R212). -/
theorem State.declaredSize_acceptData (s : State) (data : List Byte)
    (hoffset : (s.writeOffset + BitVec.ofNat 64 (writeLen s n)).toNat = s.writeOffset.toNat + writeLen s n) :
    (s.acceptData data (writeLen s n)).declaredSize = s.declaredSize := by
  simp only [State.declaredSize, State.acceptData, toInt_remainingAfter_neg_iff, hoffset]
  split
  next => rfl
  next hpos =>
    obtain ⟨hleft, hwle⟩ := toNat_remainingAfter hpos n
    rw [hleft, Nat.add_assoc, Nat.add_sub_cancel' hwle]

/-- No more is written than remains of a declared size. -/
theorem State.add_writeLen_le_declaredSize (s : State) (n : Nat) : ∀ k ∈ s.declaredSize, s.writeOffset.toNat + writeLen s n ≤ k := by
  intro k hk
  rw [State.declaredSize] at hk
  split at hk
  next => cases hk
  next hpos =>
    cases hk
    exact Nat.add_le_add_left (toNat_remainingAfter hpos n).2 _

theorem State.EngineInv.portFollows_acceptData (hs : s.EngineInv) (hst : s.btState.stages) {data : List Byte}
    (hlen : data.length = n) (hn : n ≤ stxDataLen)
    (hle : writeLen s n = 0 ∨ s.writeOffset.toNat + writeLen s n ≤ maxFileSize) :
    s.PortFollows (s.acceptData data (writeLen s n)) := by
  have hopen : s.stagingOpen = true := hs.file.staging_iff.2 hst
  have hoffset := toNat_writeOffset_add hs.file.writeOffset hle
  have hview : (s.acceptData data (writeLen s n)).stagingView = .opened s.declaredSize (s.writeOffset.toNat + writeLen s n) := by
    rw [State.stagingView_of_open (s := s.acceptData data (writeLen s n)) hopen, s.declaredSize_acceptData data hoffset, ← hoffset]
    rfl
  refine ⟨_, List.append_assoc _ _ _, ?_⟩
  rw [StagingView.seeAll_append, hview, State.stagingView_of_open hopen]
  by_cases hpos : 0 < writeLen s n
  · have hwlen := writeLen_le s n
    have htake : (data.take (writeLen s n)).length = writeLen s n := by
      rw [List.length_take, hlen, Nat.min_eq_left hwlen]
    have hsee := StagingView.see_stgWrite (size := s.declaredSize) (off := s.writeOffset) (data := data.take (writeLen s n))
      (by omega) (by omega) (by rw [htake]; exact s.add_writeLen_le_declaredSize n)
    rw [if_pos hpos, StagingView.seeAll, hsee, htake]
    rfl
  · rw [if_neg hpos, Nat.eq_zero_of_not_pos hpos]
    rfl

/-- In Idle and WaitHeader no destination is open, whatever the offset (R35 c). -/
theorem State.EngineInv.portFollows_startTransfer (hs : s.EngineInv) (hst : s.btState = .idle) : s.PortFollows s.startTransfer := by
  have hclosed := hs.file.isOpen_eq_false (hst ▸ BtState.not_stages_idle)
  have hview : s.startTransfer.stagingView = s.stagingView :=
    (State.stagingView_of_closed (s := s.startTransfer) hclosed).trans (State.stagingView_of_closed hclosed).symm
  by_cases hsolicit : s.cfg.solicitOnStart = true
  · exact State.portFollows_serTx (by rw [State.startTransfer, if_pos hsolicit]) hview
  · exact State.portFollows_of_eq (by rw [State.startTransfer, if_neg hsolicit, List.append_nil]) hview

theorem PacketAnswer.portFollows (h : PacketAnswer n s t) (hs : s.EngineInv) (hn : n ≤ stxDataLen) : s.PortFollows t := by
  cases h with
  | abort => exact s.portFollows_abort _
  | nak => exact State.portFollows_serTx rfl rfl
  | endOfBatch hst => exact hs.portFollows_onEndOfBatch hst
  | header name size hne hname hsize hst =>
    refine hs.portFollows_acceptHeader hst hne ?_ (headerSize_bounds hsize).1
    simp only [nameSize, stxDataLen] at hn ⊢
    omega
  | data _ hlen hst hle => exact hs.portFollows_acceptData hst hlen hn hle
  | duplicate => exact State.portFollows_serTx rfl rfl

theorem ByteAnswer.portFollows (h : ByteAnswer b s t) (hs : s.EngineInv) (hst : s.btState ≠ .idle) (hc : 0 < s.cfg.tTimeout) :
    s.PortFollows t := by
  cases h with
  | start | stray | stored => exact State.portFollows_of_eq rfl rfl
  | eot _ hstages => exact (hs.withIdle hst (k := 0) hc).portFollows_onEot hstages
  | packet _ hsize h => exact h.portFollows (hs.withPacket hst hsize hc b) (packetDataLen_le _)

theorem IsEngineOp.portFollows (hi : IsEngineOp s.mode i) (hs : s.EngineInv) (hc : 0 < s.cfg.tTimeout) (h : exec i s = .next t) :
    s.PortFollows t := by
  cases hi with
  | btStart =>
    obtain ⟨hst, rfl⟩ | ⟨_, rfl⟩ := execBtStart_next h
    · exact hs.portFollows_startTransfer hst
    · exact State.portFollows_of_eq rfl rfl
  | tick =>
    obtain ⟨_, rfl⟩ | ⟨_, _, rfl⟩ | ⟨_, _, rfl⟩ := execTick_next h
    · exact State.portFollows_of_eq rfl rfl
    · exact s.portFollows_abort _
    · exact State.portFollows_of_eq rfl rfl
  | rxByte b hm =>
    exact (engineRx_next ((execRxByte_of_engine hm b).symm.trans h)).portFollows hs (hs.control.mode_iff.1 hm) hc

/-! ### Every step -/

theorem exec_portFollows (hs : s.Inv) (h : exec i s = .next t) : s.PortFollows t := by
  obtain ⟨hvalid, _, _, hengine⟩ := State.inv_iff.1 hs
  obtain hi | hi | hi := unit_cases i s.mode
  · have hsame := hi.sameOutside h
    exact State.portFollows_of_eq hsame.events hsame.engine.stagingView
  · obtain ⟨es, hes, hdetector⟩ := hi.emits h
    refine ⟨es, hes, ?_⟩
    rw [(hi.sameEngine h).stagingView]
    exact StagingView.seeAll_of_detector s.stagingView_ne_finalizing fun e he => (hdetector e he).1
  · obtain ⟨_, _, hc, _⟩ := Config.bounds_of_valid hvalid
    exact hi.portFollows hengine hc h

/-- Settles O16: a step that emits is an operation after the pre-step, which leaves the output list empty and the port alone. -/
theorem stagingPortSeesFilesInProtocolOrder : Obligations.StagingPortSeesFilesInProtocolOrder := by
  intro s t hs hreset h
  obtain ⟨_, rfl⟩ | ⟨rest, hin, _⟩ | ⟨_, rest, _, _, _, hexec⟩ | ⟨_, rest, _, _, _, rfl⟩ := step_next h
  · rfl
  · exact absurd hin (hreset rest)
  · have hview : ({ s with inputs := rest } : State).beginStep.stagingView = s.stagingView := State.beginStep_stagingView _
    rw [← hview]
    exact (exec_portFollows (hs.withInputs rest).beginStep hexec).seeAll_events (State.beginStep_events _)
  · have hview : ({ s with inputs := rest } : State).beginStep.stagingView = s.stagingView := State.beginStep_stagingView _
    have hevents : ({ s with inputs := rest } : State).beginStep.events = [] := State.beginStep_events _
    rw [← hview]
    simp only [hevents]
    rfl

end Sys2Proof.Machine
end

section
/-!
PROOFS of the whole-machine statements, part 8 (10_state.md R22, R24): no rule looks at an unspecified byte. Two states that agree
differ only in their memories (`withMemories`), so every test on a field decides alike in both, and what is left is to see that the
bytes each rule reads lie below a length and that every length it raises is written up to.
-/

namespace Sys2Proof.Machine

variable {s t s' t' : State} {a : ArrayId} {lo n : Nat} {b : Byte} {bs : List Byte}

/-! ### States that agree -/

/-- The same fields, with these memories. -/
def State.withMemories (s : State) (m : ArrayId → Memory) : State :=
  { s with txbuf := m .txbuf, rxbuf := m .rxbuf, frame := m .frame, pkt := m .pkt, targetName := m .targetName }

theorem State.Agree.exists_withMemories (h : s.Agree t) : ∃ m, t = s.withMemories m :=
  ⟨t.mem, show t.regs.withMemories t.mem = s.regs.withMemories t.mem by rw [h.regs]⟩

theorem State.Agree.rd_eq (h : s.Agree t) {i : Nat} (hi : i < s.len a) : t.rd a i = s.rd a i := h.bytes a i hi

theorem State.Agree.bytes_eq (h : s.Agree t) (hn : lo + n ≤ s.len a) : t.bytes a lo n = s.bytes a lo n :=
  State.bytes_congr fun _ hk => h.rd_eq (by omega)

theorem State.Agree.rxBytes_eq (h : s.Agree t) : t.rxBytes = s.rxBytes := by
  obtain ⟨m, rfl⟩ := h.exists_withMemories
  exact h.bytes_eq (a := .rxbuf) (Nat.le_of_eq (Nat.zero_add _))

theorem State.len_eq_of_regs (h : t.regs = s.regs) (x : ArrayId) : t.len x = s.len x := by
  cases x with
  | txbuf => exact (congrArg State.txLen h :)
  | rxbuf => exact (congrArg State.rxLen h :)
  | frame => exact (congrArg State.frameLen h :)
  | pkt => exact (congrArg State.pktLen h :)
  | targetName => exact (congrArg State.nameLen h :)

/-! ### What keeps the agreement -/

/-- The same bytes stored to the same place in both, with no length raised past them. -/
theorem State.Agree.of_storedOnly (h : s.Agree t) (hs : s.StoredOnly s' a lo bs) (ht : t.StoredOnly t' a lo bs)
    (hregs : t'.regs = s'.regs) (hdraws : s'.draws = s.draws) (hother : ∀ x ≠ a, s'.len x ≤ s.len x) (hlo : lo ≤ s.len a)
    (hhi : s'.len a ≤ s.len a ∨ s'.len a ≤ lo + bs.length) : s'.Agree t' := by
  refine ⟨hregs, fun x i hi => ?_⟩
  have hdraws' : t'.draws = s'.draws := (congrArg State.draws hregs :)
  rw [State.rd, State.rd, hs x i, ht x i, hdraws', hdraws]
  split
  next => rfl
  next hout =>
    have hlt : i < s.len x := by
      by_cases hx : x = a
      · subst hx
        by_contra hge
        exact hout ⟨rfl, by omega, by omega⟩
      · exact hi.trans_le (hother x hx)
    have hold : t.draws = s.draws := (congrArg State.draws h.regs :)
    have hrd := h.rd_eq hlt
    rwa [State.rd, State.rd, hold] at hrd

/-- Nothing stored and no length raised. -/
theorem State.Agree.of_sameMemory (h : s.Agree t) (hs : s.SameMemory s') (ht : t.SameMemory t') (hregs : t'.regs = s'.regs)
    (hdraws : s'.draws = s.draws) (hlen : ∀ x, s'.len x ≤ s.len x) : s'.Agree t' := by
  have hstored {u u' : State} (hu : u.SameMemory u') : u.StoredOnly u' .txbuf 0 [] := fun x i => by simp [hu x i]
  exact h.of_storedOnly (hstored hs) (hstored ht) hregs hdraws (fun x _ => hlen x) (Nat.zero_le _)
    (.inl (hlen _))

/-- A test that decides alike on both sides. -/
theorem rel_ite {α : Type} {R : α → α → Prop} {c : Prop} [Decidable c] {x x' y y' : α} (hpos : c → R x y)
    (hneg : ¬c → R x' y') : R (if c then x else x') (if c then y else y') := by
  split
  next hc => exact hpos hc
  next hc => exact hneg hc

/-! ### The checksum units -/

theorem State.Agree.writeTxbuf (h : s.Agree t) (hlo : lo ≤ s.txLen) (hn : n ≤ s.txLen ∨ n ≤ lo + 1) (b : Byte) :
    State.Agree { s with txbuf := s.txbuf.write lo b, txLen := n } { t with txbuf := t.txbuf.write lo b, txLen := n } := by
  obtain ⟨m, rfl⟩ := h.exists_withMemories
  refine h.of_storedOnly (s.storedOnly_txbuf lo n b) ((s.withMemories m).storedOnly_txbuf lo n b) rfl rfl (fun x hx => ?_) hlo hn
  cases x <;> simp [State.len] at hx ⊢

theorem execTxByte_agree (h : s.Agree t) (b : Byte) : ResultAgree (execTxByte b s) (execTxByte b t) := by
  obtain ⟨m, rfl⟩ := h.exists_withMemories
  refine rel_ite (fun _ => ?_) fun _ => rel_ite (fun _ => ?_) fun _ => rfl
  · exact h.of_sameMemory (fun _ _ => rfl) (fun _ _ => rfl) rfl rfl fun _ => Nat.le_refl _
  · exact h.writeTxbuf (Nat.le_refl _) (.inr (Nat.le_refl _)) b

/-- TX_SEAL reads below `tx_len`, and its byte lies there too (R127). -/
theorem execTxSeal_agree (h : s.Agree t) : ResultAgree (execTxSeal s) (execTxSeal t) := by
  have hbytes : t.bytes .txbuf 0 (s.txLen - 1) = s.bytes .txbuf 0 (s.txLen - 1) :=
    h.bytes_eq (a := .txbuf) ((Nat.zero_add _).trans_le (Nat.sub_le _ _))
  obtain ⟨m, rfl⟩ := h.exists_withMemories
  refine rel_ite (fun _ => ?_) fun _ => rel_ite (fun _ => ?_) fun _ => rfl
  · exact h.of_sameMemory (fun _ _ => rfl) (fun _ _ => rfl) rfl rfl fun _ => Nat.le_refl _
  · rw [show (s.withMemories m).txLen = s.txLen from rfl, hbytes]
    exact h.writeTxbuf (Nat.sub_le _ _) (.inl (Nat.le_refl _)) _

/-! ### The detector -/

theorem State.Agree.discard (h : s.Agree t) (e : FrameErr) : (s.discard e).Agree (t.discard e) := by
  obtain ⟨m, rfl⟩ := h.exists_withMemories
  exact h.of_sameMemory (fun _ _ => rfl) (fun _ _ => rfl) rfl rfl fun x => by cases x <;> simp [State.len, State.discard]

/-- The latch copies the bytes below `rx_len`, and `frame_len` is their number (R159). -/
theorem State.Agree.latch (h : s.Agree t) (k : FrameKind) : (s.latch k).Agree (t.latch k) := by
  have hbytes := h.rxBytes_eq
  have hlen : s.rxBytes.length = s.rxLen := s.length_bytes .rxbuf 0 s.rxLen
  obtain ⟨m, rfl⟩ := h.exists_withMemories
  refine h.of_storedOnly (s.storedOnly_latch k) (hbytes ▸ (s.withMemories m).storedOnly_latch k) rfl rfl (fun x hx => ?_)
    (Nat.zero_le _) (.inr ?_)
  · cases x <;> simp [State.len, State.latch] at hx ⊢
  · exact (hlen.symm.trans (Nat.zero_add _).symm).le

theorem State.Agree.endNotification (h : s.Agree t) : s.endNotification.Agree t.endNotification := by
  have hbytes := h.rxBytes_eq
  have hlatch := h.latch .notification
  by_cases hv : validateNotification s.rxBytes = .none
  · rw [State.endNotification_of_valid hv, State.endNotification_of_valid (hbytes ▸ hv), hbytes]
    obtain ⟨m, rfl⟩ := h.exists_withMemories
    exact hlatch.of_sameMemory (fun _ _ => rfl) (fun _ _ => rfl) rfl rfl fun _ => Nat.le_refl _
  · rw [State.endNotification_of_invalid hv, State.endNotification_of_invalid (hbytes ▸ hv), hbytes]
    exact h.discard _

theorem State.Agree.endResponse (h : s.Agree t) : s.endResponse.Agree t.endResponse := by
  have hbytes := h.rxBytes_eq
  have hcfg : t.cfg = s.cfg := (congrArg State.cfg h.regs :)
  by_cases hv : validateResponse s.cfg s.rxBytes = .none
  · rw [State.endResponse_of_valid hv, State.endResponse_of_valid (by rwa [hbytes, hcfg])]
    exact h.latch .response
  · rw [State.endResponse_of_invalid hv, State.endResponse_of_invalid (by rwa [hbytes, hcfg]), hbytes, hcfg]
    exact h.discard _

theorem State.Agree.endBatch (h : s.Agree t) (c : RxClass) : (s.endBatch c).Agree (t.endBatch c) := by
  cases c with
  | incomplete => exact h
  | malformed => exact h.discard .malformed
  | notification => exact h.endNotification
  | response => exact h.endResponse

theorem State.Agree.withRxClass (h : s.Agree t) (c : RxClass) :
    State.Agree { s with rxClass := c } { t with rxClass := c } := by
  obtain ⟨m, rfl⟩ := h.exists_withMemories
  exact h.of_sameMemory (fun _ _ => rfl) (fun _ _ => rfl) rfl rfl fun _ => Nat.le_refl _

theorem execRxEob_agree (h : s.Agree t) : ResultAgree (execRxEob s) (execRxEob t) := by
  have hbytes := h.rxBytes_eq
  have hbatch := (h.withRxClass (classify s.rxBytes)).endBatch (classify s.rxBytes)
  obtain ⟨m, rfl⟩ := h.exists_withMemories
  rw [execRxEob, execRxEob, hbytes]
  exact rel_ite (fun _ => hbatch) fun _ => rfl

theorem execRxClassify_agree (h : s.Agree t) : ResultAgree (execRxClassify s) (execRxClassify t) := by
  have hbytes := h.rxBytes_eq
  obtain ⟨m, rfl⟩ := h.exists_withMemories
  rw [execRxClassify, execRxClassify, hbytes]
  exact rel_ite (fun _ => h.withRxClass _) fun _ => rfl

theorem execFrameTake_agree (h : s.Agree t) : ResultAgree (execFrameTake s) (execFrameTake t) := by
  obtain ⟨m, rfl⟩ := h.exists_withMemories
  refine rel_ite (fun _ => ?_) fun _ => ?_
  all_goals exact h.of_sameMemory (fun _ _ => rfl) (fun _ _ => rfl) rfl rfl fun _ => Nat.le_refl _

theorem detectorRx_agree (h : s.Agree t) (b : Byte) : ResultAgree (detectorRx b s) (detectorRx b t) := by
  obtain ⟨m, rfl⟩ := h.exists_withMemories
  refine rel_ite (fun _ => ?_) fun _ => rel_ite (fun _ => ?_) fun _ => rfl
  · exact h.of_sameMemory (fun _ _ => rfl) (fun _ _ => rfl) rfl rfl fun x => by cases x <;> simp [State.len, State.rxOverflow]
  · refine h.of_storedOnly (s.storedOnly_rxbuf s.rxLen (s.rxLen + 1) b)
      ((s.withMemories m).storedOnly_rxbuf s.rxLen (s.rxLen + 1) b) rfl rfl (fun x hx => ?_) (Nat.le_refl _)
      (.inr (Nat.le_refl _))
    cases x <;> simp [State.len] at hx ⊢

/-! ### The engine's answers -/

theorem State.Agree.abort (h : s.Agree t) (reason : BtStatus) : (s.abort reason).Agree (t.abort reason) := by
  obtain ⟨m, rfl⟩ := h.exists_withMemories
  exact h.of_sameMemory (fun _ _ => rfl) (fun _ _ => rfl) rfl rfl fun x => by cases x <;> simp [State.len, State.abort]

theorem State.Agree.badPacket (h : s.Agree t) : s.badPacket.Agree t.badPacket := by
  have habort := h.abort .crcExhausted
  obtain ⟨m, rfl⟩ := h.exists_withMemories
  refine rel_ite (R := State.Agree) (fun _ => habort) fun _ => ?_
  exact h.of_sameMemory (fun _ _ => rfl) (fun _ _ => rfl) rfl rfl fun _ => Nat.le_refl _

theorem State.Agree.acceptHeader (h : s.Agree t) (name : List Byte) (size : BitVec 64) :
    (s.acceptHeader name size).Agree (t.acceptHeader name size) := by
  obtain ⟨m, rfl⟩ := h.exists_withMemories
  refine h.of_storedOnly (s.storedOnly_acceptHeader name size) ((s.withMemories m).storedOnly_acceptHeader name size) rfl rfl
    (fun x hx => ?_) (Nat.zero_le _) (.inr (Nat.zero_add _).ge)
  cases x <;> simp [State.len, State.acceptHeader] at hx ⊢

theorem State.Agree.onHeader (h : s.Agree t) (data : List Byte) : (s.onHeader data).Agree (t.onHeader data) := by
  unfold State.onHeader
  rcases headerName? data with _ | _ | ⟨c, cs⟩
  · exact h.badPacket
  · obtain ⟨m, rfl⟩ := h.exists_withMemories
    exact h.of_sameMemory (fun _ _ => rfl) (fun _ _ => rfl) rfl rfl fun x => by
      cases x <;> simp [State.len, State.onEndOfBatch]
  · dsimp only
    cases headerSize data (c :: cs).length with
    | tooLarge => exact h.badPacket
    | notDeclared => exact h.acceptHeader _ _
    | declared v => exact h.acceptHeader _ _

theorem onData_agree (h : s.Agree t) (data : List Byte) : ResultAgree (onData data s) (onData data t) := by
  obtain ⟨m, rfl⟩ := h.exists_withMemories
  refine rel_ite (fun _ => rfl) fun _ => ?_
  exact h.of_sameMemory (fun _ _ => rfl) (fun _ _ => rfl) rfl rfl fun _ => Nat.le_refl _

theorem State.Agree.onDuplicate (h : s.Agree t) : s.onDuplicate.Agree t.onDuplicate := by
  obtain ⟨m, rfl⟩ := h.exists_withMemories
  exact h.of_sameMemory (fun _ _ => rfl) (fun _ _ => rfl) rfl rfl fun _ => Nat.le_refl _

theorem dispatchPacket_agree (h : s.Agree t) (blk : Byte) (data : List Byte) :
    ResultAgree (dispatchPacket blk data s) (dispatchPacket blk data t) := by
  have hst : t.btState = s.btState := (congrArg State.btState h.regs :)
  have hblk : t.expectedBlk = s.expectedBlk := (congrArg State.expectedBlk h.regs :)
  unfold dispatchPacket
  rw [hst]
  cases s.btState with
  | idle | complete => exact rfl
  | waitHeader => exact rel_ite (fun _ => h.badPacket) fun _ => h.onHeader data
  | receivingData | waitEot =>
    dsimp only
    rw [hblk]
    exact rel_ite (fun _ => onData_agree h data) fun _ =>
      rel_ite (fun _ => h.onDuplicate) fun _ => h.badPacket

/-- on_packet runs with `pkt_len` back at 0, so that the packet's bytes agree is a premise (R207). -/
theorem onPacket_agree (h : s.Agree t) (hpkt : ∀ i < n + 5, t.rd .pkt i = s.rd .pkt i) :
    ResultAgree (onPacket n s) (onPacket n t) := by
  have hdata : t.bytes .pkt 3 n = s.bytes .pkt 3 n := State.bytes_congr fun k hk => hpkt (3 + k) (by omega)
  rw [onPacket, onPacket, hdata, hpkt 1 (by omega), hpkt 2 (by omega), hpkt (3 + n) (by omega), hpkt (4 + n) (by omega)]
  exact rel_ite (fun _ => dispatchPacket_agree h _ _) fun _ => h.badPacket

/-! ### A byte for the engine -/

theorem State.storedOnly_pkt (s : State) (lo n : Nat) (b : Byte) :
    s.StoredOnly { s with pkt := s.pkt.write lo b, pktLen := n } .pkt lo [b] := by
  refine State.storedOnly_of_write rfl fun x hx => ?_
  cases x with
  | pkt => exact absurd rfl hx
  | txbuf | rxbuf | frame | targetName => rfl

theorem State.Agree.writePkt (h : s.Agree t) (hlo : lo ≤ s.pktLen) (hn : n ≤ s.pktLen ∨ n ≤ lo + 1) (b : Byte) :
    State.Agree { s with pkt := s.pkt.write lo b, pktLen := n } { t with pkt := t.pkt.write lo b, pktLen := n } := by
  obtain ⟨m, rfl⟩ := h.exists_withMemories
  refine h.of_storedOnly (s.storedOnly_pkt lo n b) ((s.withMemories m).storedOnly_pkt lo n b) rfl rfl (fun x hx => ?_) hlo hn
  cases x <;> simp [State.len] at hx ⊢

theorem State.Agree.clearPkt (h : s.Agree t) : State.Agree { s with pktLen := 0 } { t with pktLen := 0 } := by
  obtain ⟨m, rfl⟩ := h.exists_withMemories
  exact h.of_sameMemory (fun _ _ => rfl) (fun _ _ => rfl) rfl rfl fun x => by cases x <;> simp [State.len]

theorem betweenPackets_agree (h : s.Agree t) (b : Byte) : ResultAgree (betweenPackets b s) (betweenPackets b t) := by
  have hstart := h.writePkt (lo := 0) (n := 1) (Nat.zero_le _) (.inr (Nat.le_refl _)) b
  obtain ⟨m, rfl⟩ := h.exists_withMemories
  refine rel_ite (fun _ => hstart) fun _ => rel_ite (fun _ => ?_) fun _ => h
  exact h.of_sameMemory (fun _ _ => rfl) (fun _ _ => rfl) rfl rfl fun _ => Nat.le_refl _

/-- The packet's bytes lie below the length that storing the byte gives, before on_packet sets it back to 0. -/
theorem packetByte_agree (h : s.Agree t) (b : Byte) : ResultAgree (packetByte b s) (packetByte b t) := by
  have happend : (s.appendPkt b).Agree (t.appendPkt b) := by
    obtain ⟨m, rfl⟩ := h.exists_withMemories
    exact h.writePkt (Nat.le_refl _) (.inr (Nat.le_refl _)) b
  have hlen : t.pktLen = s.pktLen := State.len_eq_of_regs h.regs .pkt
  have hpkt {i : Nat} (hi : i < s.pktLen + 1) : (t.appendPkt b).rd .pkt i = (s.appendPkt b).rd .pkt i :=
    happend.rd_eq (a := .pkt) hi
  rw [packetByte, packetByte, hlen, hpkt (Nat.succ_pos _)]
  refine rel_ite (fun _ => rel_ite (fun hfull => ?_) fun _ => happend) fun _ => rfl
  exact onPacket_agree happend.clearPkt fun i hi => hpkt (hfull ▸ hi)

theorem engineRx_agree (h : s.Agree t) (b : Byte) : ResultAgree (engineRx b s) (engineRx b t) := by
  have hactive : State.Agree { s with idleTicks := 0 } { t with idleTicks := 0 } := by
    obtain ⟨m, rfl⟩ := h.exists_withMemories
    exact h.of_sameMemory (fun _ _ => rfl) (fun _ _ => rfl) rfl rfl fun _ => Nat.le_refl _
  have hbetween := betweenPackets_agree hactive b
  have hinside := packetByte_agree hactive b
  obtain ⟨m, rfl⟩ := h.exists_withMemories
  exact rel_ite (fun _ => hbetween) fun _ => hinside

/-! ### Every operation -/

theorem execRxByte_agree (h : s.Agree t) (b : Byte) : ResultAgree (execRxByte b s) (execRxByte b t) := by
  have hmode : t.mode = s.mode := (congrArg State.mode h.regs :)
  unfold execRxByte
  rw [hmode]
  cases s.mode with
  | engine => exact engineRx_agree h b
  | detector => exact detectorRx_agree h b

theorem execBtStart_agree (h : s.Agree t) : ResultAgree (execBtStart s) (execBtStart t) := by
  obtain ⟨m, rfl⟩ := h.exists_withMemories
  refine rel_ite (fun _ => ?_) fun _ => ?_
  · exact h.of_sameMemory (fun _ _ => rfl) (fun _ _ => rfl) rfl rfl fun _ => Nat.le_refl _
  · exact h.of_sameMemory (fun _ _ => rfl) (fun _ _ => rfl) rfl rfl fun x => by
      cases x <;> simp [State.len, State.startTransfer]

theorem execTick_agree (h : s.Agree t) : ResultAgree (execTick s) (execTick t) := by
  have habort := h.abort .timeout
  obtain ⟨m, rfl⟩ := h.exists_withMemories
  refine rel_ite (fun _ => h) fun _ => rel_ite (fun _ => habort) fun _ => ?_
  exact h.of_sameMemory (fun _ _ => rfl) (fun _ _ => rfl) rfl rfl fun _ => Nat.le_refl _

theorem exec_agree (h : s.Agree t) (i : Instr) : ResultAgree (exec i s) (exec i t) := by
  cases i with
  | txByte b => exact execTxByte_agree h b
  | txSeal => exact execTxSeal_agree h
  | rxByte b => exact execRxByte_agree h b
  | rxEob => exact execRxEob_agree h
  | rxClassify => exact execRxClassify_agree h
  | frameTake => exact execFrameTake_agree h
  | btStart => exact execBtStart_agree h
  | tick => exact execTick_agree h
  | nop => exact h
  | ckClr | ckAcc b | c16Clr | c16Acc b =>
    obtain ⟨m, rfl⟩ := h.exists_withMemories
    exact h.of_sameMemory (fun _ _ => rfl) (fun _ _ => rfl) rfl rfl fun _ => Nat.le_refl _
  | rxClr | txClr =>
    obtain ⟨m, rfl⟩ := h.exists_withMemories
    exact h.of_sameMemory (fun _ _ => rfl) (fun _ _ => rfl) rfl rfl fun x => by cases x <;> simp [State.len]

/-! ### The ports -/

theorem State.Agree.readPort_eq (h : s.Agree t) (p : BytePort) (k : Nat) : t.readPort p k = s.readPort p k := by
  have hdraws : t.draws = s.draws := (congrArg State.draws h.regs :)
  rw [State.readPort, State.readPort, State.len_eq_of_regs h.regs, hdraws]
  split
  next hk => exact h.rd_eq hk
  next => rfl

theorem State.Agree.status_eq (h : s.Agree t) (p : StatusPort) : t.status p = s.status p := by
  obtain ⟨m, rfl⟩ := h.exists_withMemories
  cases p <;> rfl

/-- Settles O17: the operations one by one, and the ports. -/
theorem unspecifiedBytesAreNeverObserved : Obligations.UnspecifiedBytesAreNeverObserved :=
  fun _ _ h => ⟨exec_agree h, h.readPort_eq, h.status_eq⟩

end Sys2Proof.Machine
end

section
/-!
PROOFS of the encoding statements, part 3 (30_encoding.md R82 to R84, R86): the rows of the opcode map, and the assembler's lines.
Every row tests `opc` alone, so a row selects the words of one opcode. A line's mnemonic is read by evaluation; its operand is read
digit by digit.
-/

namespace Sys2Proof

open Machine

variable {w : Word} {opc b : Byte} {i : Instr} {e : DecodeReject}

/-! ### The opcode map -/

theorem opcodeTable_mask : ∀ r ∈ opcodeTable, r.mask = 0xFF00#16 ∧ immOf r.pattern = 0x00#8 := by decide

theorem opcodeTable_opc_inj : ∀ r ∈ opcodeTable, ∀ r' ∈ opcodeTable, opcOf r.pattern = opcOf r'.pattern → r = r' := by decide

/-- A row selects the words of its opcode (R83). -/
theorem selects_iff {r : OpcodeRow} (hr : r ∈ opcodeTable) : r.selects w = true ↔ opcOf w = opcOf r.pattern := by
  obtain ⟨hmask, himm⟩ := opcodeTable_mask r hr
  have hand : w &&& 0xFF00#16 = opcOf w ++ 0x00#8 := by
    have hopc : opcOf w &&& 0xFF#8 = opcOf w := BitVec.and_allOnes
    have himm0 : immOf w &&& 0x00#8 = 0x00#8 := BitVec.and_zero
    have hmask' : (0xFF00#16 : Word) = 0xFF#8 ++ 0x00#8 := rfl
    calc w &&& 0xFF00#16 = (opcOf w ++ immOf w) &&& (0xFF#8 ++ 0x00#8) := by rw [opcOf_append_immOf, hmask']
      _ = opcOf w ++ 0x00#8 := by rw [BitVec.and_append, hopc, himm0]
  have hpattern : r.pattern = opcOf r.pattern ++ 0x00#8 := by rw [← himm, opcOf_append_immOf]
  rw [OpcodeRow.selects, beq_iff_eq, hmask, hand, hpattern, opcOf_append]
  exact ⟨fun h => (append_inj h).1, fun h => by rw [h]⟩

/-- The opcode of every operation is in the map. -/
theorem Instr.exists_row (i : Instr) : ∃ r ∈ opcodeTable, opcOf r.pattern = i.opc := by
  cases i <;> simp [opcodeTable, Instr.opc, opcOf]

/-- Every opcode of the map decodes, with any operand byte. -/
theorem exists_decodeFields_of_row {r : OpcodeRow} (hr : r ∈ opcodeTable) (b : Byte) :
    ∃ i, decodeFields (opcOf r.pattern) b = .ok i := by
  simp only [opcodeTable, List.cons_append, List.nil_append, List.mem_cons, List.not_mem_nil, or_false] at hr
  obtain rfl | rfl | rfl | rfl | rfl | rfl | rfl | rfl | rfl | rfl | rfl | rfl | rfl | rfl | rfl := hr
  all_goals exact ⟨_, rfl⟩

/-- A rejection names the opcode (R84). -/
theorem eq_illegalOpcode_of_decodeFields (h : decodeFields opc b = .error e) : e = .illegalOpcode opc := by
  unfold decodeFields at h
  split at h
  case h_16 => cases h; rfl
  all_goals cases h

/-- Settles O1: decoding and selecting both depend on the opcode alone, and the opcodes of the rows are the operations'. -/
theorem decodeAcceptsExactlyTheTable : Obligations.DecodeAcceptsExactlyTheTable := by
  refine fun w => ⟨⟨?_, ?_⟩, fun r hr r' hr' h h' => ?_, fun e h => eq_illegalOpcode_of_decodeFields h⟩
  · rintro ⟨i, hi⟩
    obtain ⟨r, hr, hopc⟩ := i.exists_row
    exact ⟨r, hr, (selects_iff hr).2 ((eq_opc_of_decodeFields hi).trans hopc.symm)⟩
  · rintro ⟨r, hr, hsel⟩
    obtain ⟨i, hi⟩ := exists_decodeFields_of_row hr (immOf w)
    exact ⟨i, by rw [decode, (selects_iff hr).1 hsel, hi]⟩
  · exact opcodeTable_opc_inj r hr r' hr' (((selects_iff hr).1 h).symm.trans ((selects_iff hr').1 h'))

/-- Settles O3: each word is the opcode and operand it is written with. -/
theorem wordsFromTheOpcodeMapDecode : Obligations.WordsFromTheOpcodeMapDecode := by
  unfold Obligations.WordsFromTheOpcodeMapDecode
  decide

/-! ### The assembler's lines -/

namespace Machine.Asm

theorem hexDigit?_hexChar {n : Nat} (h : n < 16) : hexDigit? (hexChar n) = some n := by
  have hall : ∀ k : Fin 16, hexDigit? (hexChar k) = some k.val := by decide
  exact hall ⟨n, h⟩

/-- A byte written as `0xHH` is read back whole (R86). -/
theorem byte?_hexByte (b : Byte) : byte? (hexByte b) = some (b, []) := by
  have hhi : hexDigit? (hexChar (b.toNat / 16)) = some (b.toNat / 16) := hexDigit?_hexChar (by have := b.isLt; omega)
  have hlo : hexDigit? (hexChar (b.toNat % 16)) = some (b.toNat % 16) := hexDigit?_hexChar (Nat.mod_lt _ (by decide))
  have hvalue : 16 * (b.toNat / 16) + b.toNat % 16 = b.toNat := Nat.div_add_mod _ _
  simp [byte?, number?, hexByte, hhi, hlo, hvalue]

theorem withByte_hexByte (f : Byte → Instr) (b : Byte) : withByte f (' ' :: hexByte b) = some [f b] := by
  have hskip : skip (' ' :: hexByte b) = hexByte b := rfl
  rw [withByte, hskip, byte?_hexByte]
  rfl

theorem assembleLine_lineOf (i : Instr) : assembleLine (lineOf i) = some [i] := by
  cases i with
  | ckAcc b => exact withByte_hexByte .ckAcc b
  | c16Acc b => exact withByte_hexByte .c16Acc b
  | rxByte b => exact withByte_hexByte .rxByte b
  | txByte b => exact withByte_hexByte .txByte b
  | nop | ckClr | c16Clr | rxEob | rxClassify | rxClr | frameTake | txClr | txSeal | btStart | tick => rfl

end Machine.Asm

/-- Settles O4: the line is read back, and its words are the encodings of what it assembles to. -/
theorem assemblerReadsBackItsLines : Obligations.AssemblerReadsBackItsLines :=
  fun i => ⟨Asm.assembleLine_lineOf i, by rw [Asm.lineWords, Asm.assembleLine_lineOf]; rfl⟩

end Sys2Proof
end

section
/-!
PROOFS of the scope statements, part 2 (60_exceptions.md R260): with nothing issued the engine holds its state.
-/

namespace Sys2Proof.Machine

/-- Settles O10: a step without an input is `holdStep`. -/
theorem engineHoldsItsStateBetweenOperations : Obligations.EngineHoldsItsStateBetweenOperations := by
  intro s hv hin
  exact (step_of_valid hv).trans (takeInput_nil hin)

end Sys2Proof.Machine
end

section
/-!
PROOFS of the checksum statements, part 4 (40_checksum.md R121): the checksum of a frame is right when it cancels the fold of the
rest.
-/

namespace Sys2Proof.Machine

/-- Settles O25: the fold of the whole is the fold of the body with the checksum byte, and a byte cancels only itself. -/
theorem checksumIsRightIffFoldIsZero : Obligations.ChecksumIsRightIffFoldIsZero := by
  refine fun f c => ⟨?_, trailer_append_singleton f c, body_append_singleton f c⟩
  rw [xor8_append_singleton, eq_comm]
  exact BitVec.xor_eq_zero_iff.symm

end Sys2Proof.Machine
end

section
/-!
PROOFS of the block-transfer statements, part 6 (42_block_transfer.md section 1): a CRC appended to its data. Its first byte cancels
the upper half of the register, so the eight shifts only move the lower half up, where the second byte cancels it.
-/

namespace Sys2Proof.Machine

variable {c : Word}

/-- While no set bit is shifted out, a shift is a shift. -/
theorem crcShifts_of_lt (n : Nat) (h : c.toNat * 2 ^ n < 2 ^ 16) : crcShifts n c = c <<< n := by
  induction n generalizing c with
  | zero => simp [crcShifts]
  | succ n ih =>
    have hone : c.toNat * 2 < 2 ^ 16 := by
      refine Nat.lt_of_le_of_lt (Nat.mul_le_mul_left _ ?_) h
      exact Nat.le_self_pow (Nat.succ_ne_zero n) 2
    have hmsb : c.msb = false := by
      rw [BitVec.msb_eq_false_iff_two_mul_lt]
      omega
    have hnext : (c <<< 1).toNat = c.toNat * 2 := by
      rw [BitVec.toNat_shiftLeft, Nat.shiftLeft_eq, pow_one, Nat.mod_eq_of_lt hone]
    have hshift : crcShift c = c <<< 1 := by rw [crcShift, if_neg (by simp [hmsb])]
    rw [crcShifts, hshift, ih (by rwa [hnext, Nat.mul_assoc, ← Nat.pow_succ']), Nat.add_comm n,
      BitVec.shiftLeft_add]

/-- A CRC step with the upper byte of the register moves the lower byte up (R190). -/
theorem crc16Step_hiByte (c : Word) : crc16Step c (hiByte c) = (loByte c).setWidth 16 <<< 8 := by
  have hcancel : c ^^^ ((hiByte c).setWidth 16 <<< 8) = (loByte c).setWidth 16 := by
    obtain ⟨hi, lo, rfl⟩ := exists_append c
    rw [hiByte_append, loByte_append]
    ext k hk
    rw [BitVec.getElem_xor, BitVec.getElem_append]
    by_cases h8 : k < 8
    · simp [h8]
    · simp [h8, BitVec.getLsbD_eq_getElem (x := hi) (i := k - 8) (by omega), BitVec.getLsbD_of_ge lo k (by omega)]
  have hlt : ((loByte c).setWidth 16).toNat * 2 ^ 8 < 2 ^ 16 := by
    have := (loByte c).isLt
    rw [BitVec.toNat_setWidth_of_le (by decide)]
    omega
  rw [crc16Step, hcancel, crcShifts_of_lt 8 hlt]

/-- Settles O42: the first appended byte leaves the second one's value in the upper half, and the second cancels it. -/
theorem appendedCrcLeavesZero : Obligations.AppendedCrcLeavesZero := by
  intro d
  have happend : d ++ [hiByte (crc16 d), loByte (crc16 d)] = d ++ [hiByte (crc16 d)] ++ [loByte (crc16 d)] := by simp
  rw [happend, crc16_append_singleton, crc16_append_singleton, crc16Step_hiByte, crc16Step, BitVec.xor_self]
  decide

end Sys2Proof.Machine
end

section
/-!
PROOFS of the frame detector statements, part 4 (30_encoding.md R90 to R92, 41_frame_detector.md R155): the boundaries of frames. A
buffer is classified by its length against one total as soon as it holds the length field, so a part of a frame, the frame, and the
frame with more after it are the three cases of `byLength`.
-/

namespace Sys2Proof.Machine

variable {f g x payload : List Byte} {total k : Nat} {rc ct count : Byte} {code : Word}

/-- A buffer that does not start with the sentinel has the total its length field gives, once that has arrived (R155). -/
theorem classify_of_total (hhead : f.head? ≠ some notifyEvents)
    (htotal : respHdrLen ≤ f.length → respOverhead + (u16At f 4).toNat = total) (hle : respHdrLen ≤ total) :
    classify f = .byLength f.length total .response := by
  obtain hshort | hlen := Nat.lt_or_ge f.length respHdrLen
  · rw [classify_of_short hshort hhead, RxClass.byLength_of_lt (hshort.trans_le hle)]
  · rw [classify_of_header hlen hhead, htotal hlen]

/-! ### Response frames -/

/-- A response frame, byte by byte up to the length field (R90). -/
theorem responseFrame_eq (rc ct : Byte) (code : Word) (payload : List Byte) :
    ∃ crc, responseFrame rc ct code payload =
      rc :: ct :: hiByte code :: loByte code :: hiByte (BitVec.ofNat 16 payload.length) ::
        loByte (BitVec.ofNat 16 payload.length) :: (payload ++ [crc]) :=
  ⟨_, rfl⟩

@[simp] theorem length_responseFrame : (responseFrame rc ct code payload).length = 7 + payload.length := by
  obtain ⟨crc, e⟩ := responseFrame_eq rc ct code payload
  rw [e]
  simp only [List.length_cons, List.length_append, List.length_nil]
  omega

/-- The length field of a response frame is the payload's length (R90). -/
theorem toNat_u16_ofNat_length (h : payload.length < 65536) :
    (u16 (hiByte (BitVec.ofNat 16 payload.length)) (loByte (BitVec.ofNat 16 payload.length))).toNat = payload.length := by
  rw [u16_hiByte_loByte, BitVec.toNat_ofNat, Nat.mod_eq_of_lt h]

/-- What follows the header of a response frame does not matter to its total. -/
theorem classify_responseHeader (hrc : rc ≠ notifyEvents) (hlen : payload.length < 65536) (tail : List Byte) :
    classify (rc :: ct :: hiByte code :: loByte code :: hiByte (BitVec.ofNat 16 payload.length) ::
        loByte (BitVec.ofNat 16 payload.length) :: tail) =
      .byLength (6 + tail.length) (7 + payload.length) .response := by
  rw [Nat.add_comm 6]
  refine classify_of_total (fun h => hrc (Option.some.inj h)) (fun _ => ?_) (Nat.le_add_right_of_le (by decide))
  exact congrArg (7 + ·) (toNat_u16_ofNat_length hlen)

theorem classify_take_responseFrame (hrc : rc ≠ notifyEvents) (hlen : payload.length < 65536) (hk : k < 7 + payload.length) :
    classify ((responseFrame rc ct code payload).take k) = .incomplete := by
  obtain ⟨crc, e⟩ := responseFrame_eq rc ct code payload
  rw [e]
  obtain hshort | ⟨j, rfl⟩ : k < 6 ∨ ∃ j, k = j + 6 := (Nat.lt_or_ge k 6).imp_right fun h => ⟨k - 6, by omega⟩
  · refine classify_of_short ((List.length_take_le _ _).trans_lt hshort) fun hhead => hrc ?_
    cases k with
    | zero => cases hhead
    | succ k => exact Option.some.inj hhead
  · have hclass := classify_responseHeader (ct := ct) (code := code) hrc hlen ((payload ++ [crc]).take j)
    refine hclass.trans (RxClass.byLength_of_lt ?_)
    have := List.length_take_le j (payload ++ [crc])
    omega

theorem classify_responseFrame (hrc : rc ≠ notifyEvents) (hlen : payload.length < 65536) :
    classify (responseFrame rc ct code payload) = .response := by
  obtain ⟨crc, e⟩ := responseFrame_eq rc ct code payload
  rw [e, classify_responseHeader hrc hlen]
  exact RxClass.byLength_of_eq (by simp; omega)

theorem classify_responseFrame_append (hrc : rc ≠ notifyEvents) (hlen : payload.length < 65536) (hx : x ≠ []) :
    classify (responseFrame rc ct code payload ++ x) = .malformed := by
  obtain ⟨crc, e⟩ := responseFrame_eq rc ct code payload
  have hpos := List.length_pos_iff.2 hx
  rw [e]
  refine (classify_responseHeader hrc hlen (payload ++ [crc] ++ x)).trans (RxClass.byLength_of_gt ?_)
  simp only [List.length_append, List.length_cons, List.length_nil]
  omega

/-! ### Notification frames -/

theorem notificationFrame_eq (count : Byte) :
    notificationFrame count = [notifyEvents, 0x00, 0x01, count, xor8 [notifyEvents, 0x00, 0x01, count]] := rfl

theorem classify_take_notificationFrame (hk : k < 5) : classify ((notificationFrame count).take k) = .incomplete := by
  cases k with
  | zero => rfl
  | succ k =>
    rw [notificationFrame_eq, List.take_succ_cons, classify_notifyEvents_cons]
    refine RxClass.byLength_of_lt ?_
    have := List.length_take_le k [0x00, 0x01, count, xor8 [notifyEvents, 0x00, 0x01, count]]
    simp only [List.length_cons, notifyLen]
    omega

theorem classify_notificationFrame (count : Byte) : classify (notificationFrame count) = .notification := rfl

theorem classify_notificationFrame_append (hx : x ≠ []) : classify (notificationFrame count ++ x) = .malformed := by
  have hpos := List.length_pos_iff.2 hx
  rw [notificationFrame_eq, List.cons_append, classify_notifyEvents_cons]
  refine RxClass.byLength_of_gt ?_
  simp only [List.length_cons, List.length_append, List.length_nil, notifyLen]
  omega

/-- Settles O34: both kinds of frame, below their length, at it and past it. -/
theorem frameBoundariesAreFoundExactly : Obligations.FrameBoundariesAreFoundExactly :=
  ⟨fun _ _ _ _ hrc hlen => ⟨length_responseFrame, fun _ hk => classify_take_responseFrame hrc hlen (length_responseFrame ▸ hk),
      classify_responseFrame hrc hlen, fun _ => classify_responseFrame_append hrc hlen⟩,
    fun count => ⟨rfl, fun _ => classify_take_notificationFrame, classify_notificationFrame count,
      fun _ => classify_notificationFrame_append⟩⟩

end Sys2Proof.Machine
end

section
/-!
PROOFS of the frame detector statements, part 5 (41_frame_detector.md R156, R158): which buffers are latched as a response.
-/

namespace Sys2Proof.Machine

variable {s t : State} {c : Config} {f : List Byte}

/-- A response has no violation when it passes the four tests of R156. -/
theorem validateResponse_eq_none_iff :
    validateResponse c f = .none ↔
      inRcSet c (byteAt f 0) = true ∧ isCommandType c (byteAt f 1) = true ∧ inCatalogue c (byteAt f 1) (u16At f 2) = true ∧
        trailer f = xor8 (body f) := by
  rw [validateResponse]
  split
  next hrc => exact iff_of_false nofun fun h => by simp [h.1] at hrc
  next hrc =>
    split
    next hct => exact iff_of_false nofun fun h => by simp [h.2.1] at hct
    next hct =>
      split
      next hcode => exact iff_of_false nofun fun h => by simp [h.2.2.1] at hcode
      next hcode =>
        split
        next hcrc => exact iff_of_false nofun fun h => hcrc h.2.2.2
        next hcrc => exact iff_of_true rfl ⟨by simpa using hrc, by simpa using hct, by simpa using hcode, not_not.1 hcrc⟩

/-- A state has a response latched. -/
def State.HasResponse (s : State) : Prop := s.frameValid = true ∧ s.frameKind = .response

theorem State.not_hasResponse (h : s.frameValid = false) : ¬ s.HasResponse := fun hr => Bool.noConfusion (h.symm.trans hr.1)

/-- With no frame latched, only a valid response gets one latched as such (R158). -/
theorem State.hasResponse_endBatch_iff (h : s.frameValid = false) (k : RxClass) :
    (s.endBatch k).HasResponse ↔ k = .response ∧ validateResponse s.cfg s.rxBytes = .none := by
  cases k with
  | incomplete => exact iff_of_false (State.not_hasResponse h) fun h => nomatch h.1
  | malformed => exact iff_of_false (State.not_hasResponse (s := s.discard .malformed) h) fun h => nomatch h.1
  | notification =>
    refine iff_of_false ?_ fun h => nomatch h.1
    simp only [State.endBatch]
    by_cases hv : validateNotification s.rxBytes = .none
    · rw [State.endNotification_of_valid hv]
      exact fun hr => nomatch hr.2
    · rw [State.endNotification_of_invalid hv]
      exact State.not_hasResponse (s := s.discard _) h
  | response =>
    simp only [State.endBatch]
    by_cases hv : validateResponse s.cfg s.rxBytes = .none
    · rw [State.endResponse_of_valid hv]
      exact iff_of_true ⟨rfl, rfl⟩ ⟨trivial, hv⟩
    · rw [State.endResponse_of_invalid hv]
      exact iff_of_false (State.not_hasResponse (s := s.discard _) h) fun hr => hv hr.2

/-- Settles O37: the batch ends by its class, and a response's tests are read as membership and equality of its bytes. -/
theorem responseIsLatchedExactlyWhenValid : Obligations.ResponseIsLatchedExactlyWhenValid := by
  intro s hlen hnone f
  have hf : f.length = s.rxLen := s.length_bytes .rxbuf 0 s.rxLen
  have hlatched := State.hasResponse_endBatch_iff (s := { s with rxClass := classify f }) hnone (classify f)
  refine ⟨_, execRxEob_of_classify hlen rfl, hlatched.trans (and_congr_right fun _ => ?_)⟩
  have htrailer : byteAt f (s.rxLen - 1) = trailer f := by rw [trailer, hf]
  have hbody : f.take (s.rxLen - 1) = body f := by rw [body, hf]
  rw [htrailer, hbody]
  have htype : isCommandType s.cfg (byteAt f 1) = true ↔
      byteAt f 1 = 0x01 ∨ byteAt f 1 = s.cfg.ctLorawan ∨ byteAt f 1 = s.cfg.ctSidewalk := by
    simpa using isCommandType_iff (c := s.cfg) (t := byteAt f 1)
  exact validateResponse_eq_none_iff.trans (and_congr inRcSet_iff (and_congr htype (and_congr inCatalogue_iff Iff.rfl)))

end Sys2Proof.Machine
end

section
/-!
PROOFS of the block-transfer statements, part 7 (42_block_transfer.md R205): the bytes of a packet but the last.
-/

namespace Sys2Proof.Machine

variable {s : State} {b : Byte}

/-- SOH or STX between packets begins one (R205). -/
theorem execRxByte_of_start (hmode : s.mode = .engine) (hlen : s.pktLen = 0) (hb : b = soh ∨ b = stx) :
    execRxByte b s = .next { s with idleTicks := 0, pkt := s.pkt.write 0 b, pktLen := 1 } := by
  rw [execRxByte_of_between hmode hlen, betweenPackets, if_pos hb, State.done_eq]

theorem execRxByte_stores_of_start (hmode : s.mode = .engine) (hlen : s.pktLen = 0) (hb : b = soh ∨ b = stx) :
    ∃ t, execRxByte b s = .next t ∧ t.regs = { s.regs with idleTicks := 0, pktLen := 1 } ∧ s.StoredOnly t .pkt 0 [b] :=
  ⟨_, execRxByte_of_start hmode hlen hb, rfl, s.storedOnly_pkt 0 1 b⟩

/-- Settles O48: the first byte and a byte in the middle of a packet. -/
theorem packetBytesAreCollected : Obligations.PacketBytesAreCollected :=
  ⟨fun _ _ => execRxByte_stores_of_start, fun _ b _ hmode hbegun hstart hlt => execRxByte_stores_of_lt hmode hbegun hstart hlt b⟩

end Sys2Proof.Machine
end

section
/-!
PROOFS of the block-transfer statements, part 8 (42_block_transfer.md R215, R216): a run of TICKs. Below the window each one only
counts; what such a run keeps is `Waited`, and the TICK that completes the window aborts.
-/

namespace Sys2Proof.Machine

variable {s t u : State} {is js : List Instr} {i : Instr} {k : Nat}

theorem issueAll_append_of_next (h : issueAll is s = .next t) (js : List Instr) : issueAll (is ++ js) s = issueAll js t := by
  induction is generalizing s with
  | nil =>
    cases h
    rfl
  | cons i is ih =>
    rw [issueAll] at h
    rw [List.cons_append, issueAll]
    cases hi : issue i s with
    | next u =>
      rw [hi] at h
      exact ih h
    | fault e | refused e =>
      rw [hi] at h
      cases h

theorem issueAll_singleton_of_next (h : issue i s = .next t) : issueAll [i] s = .next t := by rw [issueAll, h]; rfl

theorem State.sameDetector_beginStep (s : State) : s.SameDetector s.beginStep := by
  constructor <;> simp

/-- After `k` TICKs that only counted. -/
structure State.Waited (s : State) (k : Nat) (u : State) : Prop where
  btState : u.btState = s.btState
  idleTicks : u.idleTicks.toNat = s.idleTicks.toNat + k
  cfg : u.cfg = s.cfg
  stagingOpen : u.stagingOpen = s.stagingOpen
  stagingView : u.stagingView = s.stagingView
  detector : s.SameDetector u

/-- The pre-step of an active transfer leaves what a run of TICKs keeps. -/
theorem State.Waited.beginStep (h : s.Waited k u) (hst : s.btState ≠ .complete) : s.Waited k u.beginStep := by
  have hcomplete : u.btState ≠ .complete := h.btState ▸ hst
  refine ⟨?_, ?_, ?_, ?_, ?_, h.detector.trans u.sameDetector_beginStep⟩
  · rw [u.beginStep_btState, if_neg hcomplete, h.btState]
  · rw [u.beginStep_idleTicks, if_neg hcomplete, h.idleTicks]
  · rw [u.beginStep_cfg, h.cfg]
  · rw [u.beginStep_stagingOpen, h.stagingOpen]
  · rw [u.beginStep_stagingView, h.stagingView]

/-- One more TICK below the window only counts (R215). -/
theorem State.Waited.tick (h : s.Waited k u) (hidle : s.btState ≠ .idle) (hlt : s.idleTicks.toNat + (k + 1) < s.cfg.tTimeout)
    (hmax : s.cfg.tTimeout < 2 ^ 32) : ∃ v, execTick u = .next v ∧ s.Waited (k + 1) v := by
  have hcount := h.idleTicks
  have hexec := execTick_of_lt (s := u) (h.btState ▸ hidle) (by rw [h.cfg]; omega)
  refine ⟨_, hexec, h.btState, ?_, h.cfg, h.stagingOpen, h.stagingView, h.detector.trans (execTick_sameDetector hexec)⟩
  have hone : (1 : BitVec 32).toNat = 1 := rfl
  rw [BitVec.toNat_add, hone]
  omega

/-- A run of TICKs shorter than the rest of the window (R216). -/
theorem issueAll_ticks_waited (hv : s.cfg.valid = true) (hidle : s.btState ≠ .idle) (hcomplete : s.btState ≠ .complete)
    (k : Nat) (hlt : s.idleTicks.toNat + k < s.cfg.tTimeout) : ∃ u, issueAll (Asm.ticks k) s = .next u ∧ s.Waited k u := by
  induction k with
  | zero => exact ⟨s, rfl, rfl, rfl, rfl, rfl, rfl, rfl, rfl, rfl, rfl, rfl, rfl, rfl, rfl, rfl, rfl⟩
  | succ k ih =>
    obtain ⟨u, hrun, hwaited⟩ := ih (by omega)
    have hmax : s.cfg.tTimeout < 2 ^ 32 := by have := Config.bounds_of_valid hv; omega
    obtain ⟨v, htick, hwaited'⟩ := (hwaited.beginStep hcomplete).tick hidle hlt hmax
    have hissue : issue .tick u = .next v := (issue_of_valid (hwaited.cfg ▸ hv) _).trans htick
    refine ⟨v, ?_, hwaited'⟩
    rw [Asm.ticks, List.replicate_succ', ← Asm.ticks, issueAll_append_of_next hrun]
    exact issueAll_singleton_of_next hissue

/-- Settles O46: the shorter runs only count, and the next TICK finds the window complete. -/
theorem stalledTransferTimesOut : Obligations.StalledTransferTimesOut := by
  intro s hs hidle hcomplete
  have hv := hs.legal.config
  have hbelow := hs.r35.idle_active hidle
  refine ⟨fun k hk => ?_, ?_⟩
  · obtain ⟨u, hrun, hwaited⟩ := issueAll_ticks_waited hv hidle hcomplete k (by omega)
    exact ⟨u, hrun, hwaited.btState, hwaited.idleTicks, hwaited.stagingView⟩
  · obtain ⟨k, hk⟩ : ∃ k, s.cfg.tTimeout - s.idleTicks.toNat = k + 1 := ⟨s.cfg.tTimeout - s.idleTicks.toNat - 1, by omega⟩
    obtain ⟨u, hrun, hwaited⟩ := issueAll_ticks_waited hv hidle hcomplete k (by omega)
    have hbegin := hwaited.beginStep hcomplete
    have hcount := hbegin.idleTicks
    have hexec := execTick_of_ge (s := u.beginStep) (hbegin.btState ▸ hidle) (by rw [hbegin.cfg]; omega)
    have hissue : issue .tick u = .next (u.beginStep.abort .timeout) := (issue_of_valid (hwaited.cfg ▸ hv) _).trans hexec
    refine ⟨_, ?_, rfl, rfl, rfl, rfl, rfl, hbegin.detector.trans (execTick_sameDetector hexec), ?_⟩
    · rw [hk, Asm.ticks, List.replicate_succ', ← Asm.ticks, issueAll_append_of_next hrun]
      exact issueAll_singleton_of_next hissue
    · rw [State.abort_eq, u.beginStep_events, List.nil_append, hbegin.stagingOpen]

end Sys2Proof.Machine
end

section
/-!
PROOFS of the statements about byte sequences, part 1 (20_memory.md R63): arrays that hold a sequence, and runs of operations that
append one byte each. The induction over the sequence is made here once, for TX_BYTE and for RX_BYTE in both modes.
-/

namespace Sys2Proof.Machine

variable {s t : State} {a : ArrayId} {b : Byte} {f bs : List Byte} {cap : Nat} {K : State → Prop} {op : Byte → Instr}

/-- The array holds the sequence, every byte of it written. -/
structure State.Holds (s : State) (a : ArrayId) (f : List Byte) : Prop where
  len : s.len a = f.length
  read : ∀ i < f.length, s.read? a i = f[i]?

theorem State.holds_nil (h : s.len a = 0) : s.Holds a [] := ⟨h, nofun⟩

/-- The bytes from index 0 on are the sequence's. -/
theorem State.Holds.bytes_append (h : s.Holds a (f ++ bs)) : s.bytes a 0 f.length = f := by
  apply List.ext_getElem?
  intro k
  rw [State.getElem?_bytes]
  split
  next hk =>
    have hread := h.read k (by rw [List.length_append]; omega)
    rw [List.getElem?_append_left hk, List.getElem?_eq_getElem hk] at hread
    rw [Nat.zero_add, State.rd_of_read? s hread, List.getElem?_eq_getElem hk]
  next hk => exact (List.getElem?_eq_none (Nat.not_lt.1 hk)).symm

theorem State.Holds.bytes_eq (h : s.Holds a f) : s.bytes a 0 f.length = f :=
  State.Holds.bytes_append (bs := []) (by rwa [List.append_nil])

theorem State.Holds.of_sameMemory (h : s.Holds a f) (hmem : s.SameMemory t) (hlen : t.len a = s.len a) : t.Holds a f :=
  ⟨hlen.trans h.len, fun i hi => (hmem a i).trans (h.read i hi)⟩

/-- A byte stored right after a sequence extends it. -/
theorem State.holds_of_storedOnly (hread : ∀ i < f.length, s.read? a i = f[i]?) (hstored : s.StoredOnly t a f.length [b])
    (hlen : t.len a = f.length + 1) : t.Holds a (f ++ [b]) := by
  refine ⟨by simpa using hlen, fun i hi => ?_⟩
  rw [List.length_append, List.length_singleton] at hi
  rw [hstored a i]
  by_cases hlast : i = f.length
  · subst hlast
    simp
  · have hlt : i < f.length := by omega
    rw [if_neg (by omega), hread i hlt, List.getElem?_append_left hlt]

/-- A byte stored at the length is appended. -/
theorem State.Holds.append (h : s.Holds a f) (hstored : s.StoredOnly t a f.length [b]) (hlen : t.len a = f.length + 1) :
    t.Holds a (f ++ [b]) :=
  State.holds_of_storedOnly h.read hstored hlen

/-- A byte stored in place of the last one. -/
theorem State.Holds.replaceLast {x : Byte} (h : s.Holds a (f ++ [x])) (hstored : s.StoredOnly t a f.length [b])
    (hlen : t.len a = s.len a) : t.Holds a (f ++ [b]) := by
  refine State.holds_of_storedOnly (fun i hi => ?_) hstored (by rw [hlen, h.len]; simp)
  rw [h.read i (by rw [List.length_append]; omega), List.getElem?_append_left hi]

/-- A run of an operation that appends its byte below the capacity `cap` and keeps `K`. -/
theorem issueAll_map_append
    (hop : ∀ (s : State) (f : List Byte) (b : Byte), K s → s.Holds a f → f.length < cap →
      ∃ t, issue (op b) s = .next t ∧ K t ∧ t.Holds a (f ++ [b]))
    (hK : K s) (hf : s.Holds a f) (hcap : f.length + bs.length ≤ cap) :
    ∃ t, issueAll (bs.map op) s = .next t ∧ K t ∧ t.Holds a (f ++ bs) := by
  induction bs generalizing s f with
  | nil => exact ⟨s, rfl, hK, by rwa [List.append_nil]⟩
  | cons b bs ih =>
    rw [List.length_cons] at hcap
    obtain ⟨u, hissue, hK', hf'⟩ := hop s f b hK hf (by omega)
    obtain ⟨t, hrun, hK'', hf''⟩ := ih hK' hf' (by rw [List.length_append, List.length_singleton]; omega)
    exact ⟨t, (issueAll_cons_of_next hissue _).trans hrun, hK'', by rwa [List.append_assoc, List.singleton_append] at hf''⟩

end Sys2Proof.Machine
end

section
/-!
PROOFS of the checksum statements, part 5 (30_encoding.md R87, R94): TX_FRAME. TX_CLR empties the buffer, the TX_BYTEs fill it with the
command frame and a placeholder, and TX_SEAL puts the checksum in the placeholder's place.
-/

namespace Sys2Proof.Machine

variable {s t : State} {f : List Byte} {b x : Byte} {c : Config}

/-- What the operations of TX_FRAME keep: the configuration, no error and no event. -/
structure State.Quiet (c : Config) (s : State) : Prop where
  cfg : s.cfg = c
  opErr : s.opErr = .none
  events : s.events = []

theorem issue_txClr (hv : s.cfg.valid = true) : ∃ t, issue .txClr s = .next t ∧ t.Quiet s.cfg ∧ t.Holds .txbuf [] :=
  ⟨_, issue_of_valid hv _, ⟨s.beginStep_cfg, s.beginStep_opErr, s.beginStep_events⟩, State.holds_nil rfl⟩

theorem issue_txByte (hv : c.valid = true) (hq : s.Quiet c) (hf : s.Holds .txbuf f) (hlt : f.length < c.txbufCap) (b : Byte) :
    ∃ t, issue (.txByte b) s = .next t ∧ t.Quiet c ∧ t.Holds .txbuf (f ++ [b]) := by
  have hlen : s.beginStep.txLen = f.length := s.beginStep_txLen.trans hf.len
  have hcfg : s.beginStep.cfg = c := s.beginStep_cfg.trans hq.cfg
  have hexec := execTxByte_of_lt (s := s.beginStep) (by rwa [hlen, hcfg]) b
  refine ⟨_, (issue_of_valid (hq.cfg ▸ hv) _).trans hexec, ⟨hcfg, s.beginStep_opErr, s.beginStep_events⟩, ?_⟩
  have hf' : s.beginStep.Holds .txbuf f := hf.of_sameMemory s.beginStep_read? s.beginStep_txLen
  exact hf'.append (hlen ▸ s.beginStep.storedOnly_txbuf _ _ b) (congrArg (· + 1) hlen)

/-- TX_SEAL replaces the last byte by the checksum of the others (R127). -/
theorem issue_txSeal (hv : c.valid = true) (hq : s.Quiet c) (hf : s.Holds .txbuf (f ++ [x])) (hmin : minTxLen ≤ f.length + 1)
    (hcap : f.length + 1 ≤ c.txbufCap) :
    ∃ t, issue .txSeal s = .next t ∧ t.Quiet c ∧ t.Holds .txbuf (sealed f) := by
  have hlen : s.beginStep.txLen = f.length + 1 := s.beginStep_txLen.trans (hf.len.trans (by simp))
  have hcfg : s.beginStep.cfg = c := s.beginStep_cfg.trans hq.cfg
  have hf' : s.beginStep.Holds .txbuf (f ++ [x]) := hf.of_sameMemory s.beginStep_read? s.beginStep_txLen
  have hbelow : s.beginStep.bytes .txbuf 0 f.length = f := hf'.bytes_append
  have hexec := execTxSeal_of_le (s := s.beginStep) (by rwa [hlen]) (by rwa [hlen, hcfg])
  rw [hlen, Nat.add_sub_cancel, hbelow] at hexec
  exact ⟨_, (issue_of_valid (hq.cfg ▸ hv) _).trans hexec, ⟨hcfg, s.beginStep_opErr, s.beginStep_events⟩,
    hf'.replaceLast (s.beginStep.storedOnly_txbuf f.length (f.length + 1) _) hlen.symm⟩

/-- The bytes of a command frame before its checksum (R94). -/
def commandFields (ct : Byte) (code : Word) (payload : List Byte) : List Byte :=
  [ct, hiByte code, loByte code, hiByte (BitVec.ofNat 16 payload.length), loByte (BitVec.ofNat 16 payload.length)] ++ payload

theorem sealed_commandFields (ct : Byte) (code : Word) (payload : List Byte) :
    sealed (commandFields ct code payload) = commandFrame ct code payload := rfl

theorem length_commandFields (ct : Byte) (code : Word) (payload : List Byte) :
    (commandFields ct code payload).length = 5 + payload.length := List.length_append

theorem txFrame_eq (ct : Byte) (code : Word) (payload : List Byte) :
    Asm.txFrame ct code payload = .txClr :: (commandFields ct code payload ++ [0x00]).map .txByte ++ [.txSeal] := rfl

/-- Settles O30: TX_CLR, the run of TX_BYTEs, and TX_SEAL. -/
theorem txFrameBuildsTheCommandFrame : Obligations.TxFrameBuildsTheCommandFrame := by
  intro s ct code payload hv _ hcap
  have hlen := length_commandFields ct code payload
  rw [txFrame_eq, ← sealed_commandFields]
  generalize commandFields ct code payload = fields at hlen ⊢
  obtain ⟨t1, hclr, hquiet1, hempty⟩ := issue_txClr hv
  obtain ⟨t2, hbytes, hquiet2, hplaceholder⟩ := issueAll_map_append (op := .txByte) (bs := fields ++ [0x00])
    (fun _ _ b hq hf hlt => issue_txByte hv hq hf hlt b) hquiet1 hempty (by simp [hlen]; omega)
  obtain ⟨t3, hseal, hquiet3, hframe⟩ := issue_txSeal hv hquiet2 hplaceholder (by simp only [minTxLen]; omega) (by omega)
  have hrun : issueAll (.txClr :: (fields ++ [0x00]).map .txByte) s = .next t2 := (issueAll_cons_of_next hclr _).trans hbytes
  have hlen3 : t3.txLen = (sealed fields).length := hframe.len
  refine ⟨t3, (issueAll_append_of_next hrun [.txSeal]).trans (issueAll_singleton_of_next hseal), ?_, ?_, hquiet3.opErr,
    hquiet3.events⟩
  · rw [hlen3, sealed, List.length_append, hlen, List.length_singleton]
    omega
  · rw [hlen3]
    exact hframe.bytes_eq

end Sys2Proof.Machine
end

section
/-!
PROOFS of the frame detector statements, part 6 (41_frame_detector.md R150 to R152, R158, R163): whole batches. A run of RX_BYTEs in
detector mode leaves the receive buffer longer and nothing else of the detector changed; RX_EOB then ends the batch by what the buffer
holds.
-/

namespace Sys2Proof.Machine

variable {s t : State} {f g : List Byte} {b count rc ct : Byte} {code : Word} {payload : List Byte}

/-- What a run of RX_BYTEs in detector mode keeps of the state it started in. -/
structure State.Receiving (s t : State) : Prop where
  mode : t.mode = .detector
  cfg : t.cfg = s.cfg
  frameValid : t.frameValid = s.frameValid
  frame : t.frame = s.frame
  pending : t.pending = s.pending

theorem State.receiving_refl (h : s.mode = .detector) : s.Receiving s := ⟨h, rfl, rfl, rfl, rfl⟩

theorem State.Receiving.beginStep (h : s.Receiving t) : s.Receiving t.beginStep := by
  refine ⟨?_, ?_, ?_, ?_, ?_⟩
  · rw [t.beginStep_mode, h.mode, ite_self]
  · rw [t.beginStep_cfg, h.cfg]
  · rw [t.beginStep_frameValid, h.frameValid]
  · rw [t.beginStep_frame, h.frame]
  · rw [t.beginStep_pending, h.pending]

theorem State.Holds.rxbuf_beginStep (h : s.Holds .rxbuf f) : s.beginStep.Holds .rxbuf f :=
  h.of_sameMemory s.beginStep_read? s.beginStep_rxLen

theorem State.Holds.rxBytes_eq (h : s.Holds .rxbuf f) : s.rxBytes = f := by
  have hlen : s.rxLen = f.length := h.len
  rw [State.rxBytes, hlen, h.bytes_eq]

/-- A byte in detector mode, while there is room, is appended to the receive buffer (R151). -/
theorem issue_rxByte_detector (hv : s.cfg.valid = true) (hr : s.Receiving t) (hf : t.Holds .rxbuf f)
    (hlt : f.length < rxbufCap) (b : Byte) :
    ∃ u, issue (.rxByte b) t = .next u ∧ s.Receiving u ∧ u.Holds .rxbuf (f ++ [b]) := by
  obtain ⟨hmode, hcfg, hvalid, hframe, hpending⟩ := hr.beginStep
  have hf' := hf.rxbuf_beginStep
  have hlen : t.beginStep.rxLen = f.length := hf'.len
  have hexec := (execRxByte_of_detector hmode b).trans (detectorRx_of_lt (hlen ▸ hlt) b)
  refine ⟨_, (issue_of_valid (hr.cfg ▸ hv) _).trans hexec, ⟨hmode, hcfg, hvalid, hframe, hpending⟩, ?_⟩
  exact hf'.append (hlen ▸ t.beginStep.storedOnly_rxbuf _ _ b) (congrArg (· + 1) hlen)

theorem issueAll_rxBytes_detector (hv : s.cfg.valid = true) (hr : s.Receiving t) (hf : t.Holds .rxbuf f)
    (hcap : f.length + g.length ≤ rxbufCap) :
    ∃ u, issueAll (Asm.rxBytes g) t = .next u ∧ s.Receiving u ∧ u.Holds .rxbuf (f ++ g) :=
  issueAll_map_append (fun _ _ b hr hf hlt => issue_rxByte_detector hv hr hf hlt b) hr hf hcap

/-- A batch: its bytes are appended, and the buffer is then ended by its class (R152, R158). -/
theorem issueAll_rxBatch (hv : s.cfg.valid = true) (hr : s.Receiving t) (hf : t.Holds .rxbuf f)
    (hcap : f.length + g.length ≤ rxbufCap) :
    ∃ u, s.Receiving u ∧ u.opErr = .none ∧ u.events = [] ∧ u.Holds .rxbuf (f ++ g) ∧ u.rxClass = classify (f ++ g) ∧
      issueAll (Asm.rxBatch g) t = .next (u.endBatch (classify (f ++ g))) := by
  obtain ⟨u, hrun, hr', hf'⟩ := issueAll_rxBytes_detector hv hr hf hcap
  obtain ⟨hmode, hcfg, hvalid, hframe, hpending⟩ := hr'.beginStep
  have hbegin := hf'.rxbuf_beginStep
  have hlen : u.beginStep.rxLen = (f ++ g).length := hbegin.len
  have hfits : u.beginStep.rxLen ≤ rxbufCap := by rwa [hlen, List.length_append]
  have hissue := (issue_of_valid (hr'.cfg ▸ hv) .rxEob).trans (execRxEob_of_classify hfits (congrArg classify hbegin.rxBytes_eq))
  exact ⟨{ u.beginStep with rxClass := classify (f ++ g) }, ⟨hmode, hcfg, hvalid, hframe, hpending⟩, u.beginStep_opErr,
    u.beginStep_events, hbegin.of_sameMemory (fun _ _ => rfl) rfl, rfl,
    (issueAll_append_of_next hrun _).trans (issueAll_singleton_of_next hissue)⟩

/-- The latch holds the receive buffer's bytes (R159). -/
theorem State.bytes_frame_latch (s : State) (k : FrameKind) : (s.latch k).bytes .frame 0 s.rxLen = s.rxBytes := by
  have hlen : s.rxBytes.length = s.rxLen := s.length_bytes .rxbuf 0 s.rxLen
  have hbytes := State.bytes_of_writeAll (s := s.latch k) (a := .frame) (m := s.frame) (bs := s.rxBytes) rfl
  rwa [hlen] at hbytes

/-! ### Notifications -/

theorem validateNotification_notificationFrame (count : Byte) :
    validateNotification (notificationFrame count) = if 10 < count.toNat then .badPendingCount else .none := by
  rw [notificationFrame_eq, validateNotification_bytes, if_neg (not_not.2 ⟨rfl, rfl⟩)]
  simp [notifyEvents]

/-- Settles O38: the frame is a notification, and its validation is the test of its count. -/
theorem notificationsAreDelivered : Obligations.NotificationsAreDelivered := by
  intro s count hv hmode hempty
  obtain ⟨u, ⟨_, _, hvalid, hframe, hpending⟩, hopErr, hevents, hholds, hclass, hrun⟩ :=
    issueAll_rxBatch (g := notificationFrame count) hv (State.receiving_refl hmode) (State.holds_nil hempty)
      (show 0 + 5 ≤ rxbufCap by decide)
  rw [List.nil_append, classify_notificationFrame] at hrun hclass
  have hbytes : u.rxBytes = notificationFrame count := hholds.rxBytes_eq
  have hcheck := validateNotification_notificationFrame count
  rw [← hbytes] at hcheck
  by_cases hle : count.toNat ≤ 10
  · rw [if_neg (Nat.not_lt.2 hle)] at hcheck
    rw [State.endBatch, State.endNotification_of_valid hcheck, hbytes] at hrun
    refine ⟨_, hrun, hclass, rfl, hopErr, fun _ => ⟨rfl, rfl, rfl, ?_, ?_⟩, fun hgt => absurd hle (Nat.not_le.2 hgt)⟩
    · exact (u.bytes_frame_latch .notification).trans hbytes
    · exact congrArg (· ++ _) hevents
  · rw [if_pos (Nat.not_le.1 hle)] at hcheck
    rw [State.endBatch, State.endNotification_of_invalid (by rw [hcheck]; nofun), hcheck] at hrun
    refine ⟨_, hrun, hclass, rfl, hopErr, fun h => absurd h hle, fun _ => ⟨hpending, hvalid, hframe, rfl, ?_⟩⟩
    exact congrArg (· ++ _) hevents

/-! ### Responses -/

/-- A response frame built from its parts has no violation when its enumerated fields are in the sets (R156). -/
theorem validateResponse_responseFrame {c : Config} (hrc : rc ∈ c.rcSet) (hct : ct ∈ [0x01#8, c.ctLorawan, c.ctSidewalk])
    (hcode : (ct, code) ∈ c.catalogue) : validateResponse c (responseFrame rc ct code payload) = .none := by
  have hfield : u16At (responseFrame rc ct code payload) 2 = code := u16_hiByte_loByte code
  refine validateResponse_eq_none_iff.2 ⟨inRcSet_iff.2 hrc, isCommandType_iff.2 hct, ?_, ?_⟩
  · rw [hfield]
    exact inCatalogue_iff.2 hcode
  · rw [responseFrame, sealed, trailer_append_singleton, body_append_singleton]

/-- Settles O39: the first batch ends with an incomplete buffer, which the second one's bytes complete. -/
theorem fragmentedResponsesAreReassembled : Obligations.FragmentedResponsesAreReassembled := by
  intro s rc ct code payload k hv hmode hempty hlen hrc hset hct hcode hk f
  have hflen : f.length = 7 + payload.length := length_responseFrame
  have hfits : f.length ≤ rxbufCap := by rw [hflen, rxbufCap]; omega
  have htake : (f.take k).length = k := List.length_take_of_le (by omega)
  obtain ⟨u, hr, _, _, hholds, hclass, hrun⟩ :=
    issueAll_rxBatch (g := f.take k) hv (State.receiving_refl hmode) (State.holds_nil hempty) (by
      rw [List.length_nil, htake]; omega)
  rw [List.nil_append] at hholds hclass hrun
  rw [classify_take_responseFrame hrc hlen hk] at hclass hrun
  obtain ⟨v, hr', _, hevents, hholds', hclass', hrun'⟩ := issueAll_rxBatch (g := f.drop k) hv hr hholds (by
    rw [← List.length_append, List.take_append_drop]; exact hfits)
  rw [List.take_append_drop] at hholds' hclass' hrun'
  rw [classify_responseFrame hrc hlen] at hclass' hrun'
  have hbytes : v.rxBytes = f := hholds'.rxBytes_eq
  have hnone : validateResponse v.cfg v.rxBytes = .none := by
    rw [hbytes, hr'.cfg]
    exact validateResponse_responseFrame hset hct hcode
  rw [State.endBatch, State.endResponse_of_valid hnone] at hrun'
  exact ⟨u, v.latch .response, hrun, hclass, hholds.len.trans htake, hr.frameValid, hrun', hclass', rfl, rfl,
    (v.bytes_frame_latch .response).trans hbytes, rfl, rfl, congrArg (· ++ _) hevents⟩

end Sys2Proof.Machine
end

section
/-!
PROOFS of the block-transfer statements, part 9 (42_block_transfer.md R205, R212): a data packet, byte by byte. The first byte begins the
packet, every byte but the last is only stored, and the last one hands the packet to on_data.
-/

namespace Sys2Proof.Machine

variable {s t : State} {start b : Byte} {f g data : List Byte} {n : Nat}

/-- What the bytes of a packet but the last keep, from the first one on. -/
structure State.Collecting (s : State) (start : Byte) (t : State) : Prop where
  mode : t.mode = .engine
  btState : t.btState = s.btState
  cfg : t.cfg = s.cfg
  expectedBlk : t.expectedBlk = s.expectedBlk
  remaining : t.remaining = s.remaining
  writeOffset : t.writeOffset = s.writeOffset
  begun : 0 < t.pktLen
  start : t.read? .pkt 0 = some start
  events : t.events = []

/-- The pre-step of a transfer that stages. -/
theorem State.beginStep_of_stages (h : s.btState.stages) : s.beginStep = { s.openStep with opErr := .none } :=
  s.beginStep_of_ne fun hc => BtState.not_stages_complete (hc ▸ h)

theorem State.Collecting.beginStep (h : s.Collecting start t) (hst : s.btState.stages) : s.Collecting start t.beginStep := by
  obtain ⟨hmode, hstate, hcfg, hblk, hleft, hoffset, hbegun, hstart, _⟩ := h
  rw [State.beginStep_of_stages (hstate ▸ hst)]
  exact ⟨hmode, hstate, hcfg, hblk, hleft, hoffset, hbegun, hstart, rfl⟩

theorem State.Holds.pkt_beginStep (h : s.Holds .pkt f) (hst : s.btState.stages) : s.beginStep.Holds .pkt f := by
  refine h.of_sameMemory s.beginStep_read? ?_
  rw [State.beginStep_of_stages hst]
  rfl

theorem StartsPacket.start_eq (h : StartsPacket start n) : start = soh ∨ start = stx := h.imp And.left And.left

theorem StartsPacket.packetDataLen_eq (h : StartsPacket start n) : packetDataLen start = n := by
  obtain ⟨rfl, rfl⟩ | ⟨rfl, rfl⟩ := h <;> rfl

/-- The first byte of a packet (R205). -/
theorem issue_rxByte_start (hv : s.cfg.valid = true) (hmode : s.mode = .engine) (hst : s.btState.stages) (hlen : s.pktLen = 0)
    (hb : start = soh ∨ start = stx) :
    ∃ t, issue (.rxByte start) s = .next t ∧ s.Collecting start t ∧ t.Holds .pkt [start] := by
  have hholds : s.beginStep.Holds .pkt [] := State.Holds.pkt_beginStep (State.holds_nil hlen) hst
  have hissue := issue_of_valid hv (.rxByte start)
  rw [State.beginStep_of_stages hst] at hissue hholds
  refine ⟨_, hissue.trans (execRxByte_of_start hmode hlen hb), ⟨hmode, rfl, rfl, rfl, rfl, rfl, Nat.one_pos, ?_, rfl⟩, ?_⟩
  · exact (Memory.read?_write _ _ _ _).trans (if_pos rfl)
  · exact hholds.append (State.storedOnly_pkt _ 0 1 start) rfl

/-- A byte in the middle of a packet (R205). -/
theorem issue_rxByte_inside (hv : s.cfg.valid = true) (hst : s.btState.stages) (hc : s.Collecting start t) (hf : t.Holds .pkt f)
    (hlt : f.length < packetDataLen start + 4) (b : Byte) :
    ∃ u, issue (.rxByte b) t = .next u ∧ s.Collecting start u ∧ u.Holds .pkt (f ++ [b]) := by
  obtain ⟨hmode, hstate, hcfg, hblk, hleft, hoffset, hbegun, hstart, hevents⟩ := hc.beginStep hst
  have hf' := hf.pkt_beginStep (hc.btState ▸ hst)
  have hlen : t.beginStep.pktLen = f.length := hf'.len
  have hexec := (execRxByte_of_inside hmode hbegun b).trans
    (packetByte_of_lt (s := { t.beginStep with idleTicks := 0 }) hbegun hstart (by simp only [hlen, packetOverhead]; omega) b)
  refine ⟨_, (issue_of_valid (hc.cfg ▸ hv) _).trans hexec,
    ⟨hmode, hstate, hcfg, hblk, hleft, hoffset, Nat.succ_pos _, ?_, hevents⟩, ?_⟩
  · exact (State.read?_appendPkt _ _ _ _).trans ((if_neg fun h => Nat.ne_of_lt hbegun h.2).trans hstart)
  · exact hf'.append (hlen ▸ t.beginStep.storedOnly_pkt _ (t.beginStep.pktLen + 1) b) (congrArg (· + 1) hlen)

/-- Every part of a packet but the whole is only stored. -/
theorem issueAll_rxBytes_packet (hv : s.cfg.valid = true) (hmode : s.mode = .engine) (hst : s.btState.stages)
    (hlen : s.pktLen = 0) (hb : start = soh ∨ start = stx) (hg : g.length < packetDataLen start + 4) :
    ∃ t, issueAll (Asm.rxBytes (start :: g)) s = .next t ∧ s.Collecting start t ∧ t.Holds .pkt (start :: g) := by
  obtain ⟨u, hstart, hc, hholds⟩ := issue_rxByte_start hv hmode hst hlen hb
  obtain ⟨t, hrun, hc', hholds'⟩ := issueAll_map_append (op := .rxByte) (bs := g) (cap := packetDataLen start + 4)
    (fun _ _ b hc hf hlt => issue_rxByte_inside hv hst hc hf hlt b) hc hholds (by
      rw [List.length_singleton]; omega)
  exact ⟨t, (issueAll_cons_of_next hstart _).trans hrun, hc', hholds'⟩

/-- With all but the last byte collected, the last one completes the packet (R205). -/
theorem State.Collecting.completesPacket (hc : s.Collecting start t) (hf : t.Holds .pkt f)
    (hlen : (f ++ [b]).length = packetDataLen start + packetOverhead) (h0 : byteAt (f ++ [b]) 0 = start) :
    t.CompletesPacket b (f ++ [b]) where
  mode := hc.mode
  begun := hc.begun
  bytes := by
    have hpkt : t.pktLen = f.length := hf.len
    rw [hpkt, hf.bytes_eq]
  length := by rw [h0, hlen]

/-- A packet between its start byte and the last byte of its CRC (R101). -/
def packetInner (blk : Byte) (data : List Byte) : List Byte := [blk, 0xFF ^^^ blk] ++ data ++ [hiByte (crc16 data)]

theorem packet_eq (start blk : Byte) (data : List Byte) :
    packet start blk data = (start :: packetInner blk data) ++ [loByte (crc16 data)] := by
  simp [packet, packetInner]

theorem length_packetInner (blk : Byte) (data : List Byte) : (packetInner blk data).length = data.length + 3 := by
  simp [packetInner]

theorem take_packet {k : Nat} (hk : k < data.length + 4) (start blk : Byte) :
    (packet start blk data).take (k + 1) = start :: (packetInner blk data).take k := by
  have hinner := length_packetInner blk data
  rw [packet_eq, List.cons_append, List.take_succ_cons, List.take_append_of_le_length (by omega)]

section
variable (hv : s.cfg.valid = true) (hstarts : StartsPacket start n) (hlen : data.length = n) (hmode : s.mode = .engine)
  (hst : s.btState.stages) (hpkt : s.pktLen = 0)
include hv hstarts hlen hmode hst hpkt

/-- No byte before the last is answered. -/
theorem issueAll_rxBytes_take_packet {k : Nat} (hk : k < (packet start s.expectedBlk data).length) :
    ∃ u, issueAll (Asm.rxBytes ((packet start s.expectedBlk data).take k)) s = .next u ∧ u.pktLen = k ∧ u.btState = s.btState ∧
      (0 < k → u.events = []) := by
  rw [length_packet] at hk
  cases k with
  | zero => exact ⟨s, rfl, hpkt, rfl, fun h => absurd h (Nat.lt_irrefl 0)⟩
  | succ k =>
    have hinner : ((packetInner s.expectedBlk data).take k).length = k :=
      List.length_take_of_le (by rw [length_packetInner]; omega)
    obtain ⟨u, hrun, hc, hholds⟩ := issueAll_rxBytes_packet (g := (packetInner s.expectedBlk data).take k) hv hmode hst hpkt
      hstarts.start_eq (by rw [hinner, hstarts.packetDataLen_eq]; omega)
    rw [take_packet (by omega)]
    refine ⟨u, hrun, hholds.len.trans ?_, hc.btState, fun _ => hc.events⟩
    rw [List.length_cons, hinner]

/-- After all bytes but the last, the last one completes the packet. -/
theorem exists_completesPacket :
    ∃ u, issueAll (Asm.rxBytes (start :: packetInner s.expectedBlk data)) s = .next u ∧ s.Collecting start u.beginStep ∧
      u.beginStep.CompletesPacket (loByte (crc16 data)) (packet start s.expectedBlk data) := by
  have hn := hstarts.packetDataLen_eq
  obtain ⟨u, hrun, hc, hholds⟩ := issueAll_rxBytes_packet (g := packetInner s.expectedBlk data) hv hmode hst hpkt
    hstarts.start_eq (by rw [length_packetInner]; omega)
  have hc' := hc.beginStep hst
  refine ⟨u, hrun, hc', ?_⟩
  rw [packet_eq]
  refine hc'.completesPacket (hholds.pkt_beginStep (hc.btState ▸ hst)) ?_ rfl
  rw [← packet_eq, length_packet, hlen, hn, packetOverhead]

end

/-- Settles O54: all but the last byte are collected, and the last one writes the block (`expectedBlockIsWrittenAndAcknowledged`). -/
theorem dataPacketIsReceivedByteByByte : Obligations.DataPacketIsReceivedByteByByte := by
  intro s start n data hv hstarts hlen hmode hst hpkt wlen hle p
  refine ⟨fun k hk => issueAll_rxBytes_take_packet hv hstarts hlen hmode hst hpkt hk, ?_⟩
  obtain ⟨u, hrun, hc, hcompletes⟩ := exists_completesPacket hv hstarts hlen hmode hst hpkt
  have hwrite := (expectedBlockIsWrittenAndAcknowledged u.beginStep (loByte (crc16 data)) start n data hstarts hlen
    (hc.expectedBlk.symm ▸ hcompletes) (hc.btState ▸ hst)).1
  simp only [hc.remaining, hc.writeOffset, hc.expectedBlk, hc.events] at hwrite
  obtain ⟨t, hexec, _, hregs⟩ := hwrite (.inr hle)
  have hvalid : u.cfg.valid = true := by rwa [← u.beginStep_cfg, hc.cfg]
  have hissue : issue (.rxByte (loByte (crc16 data))) u = .next t := (issue_of_valid hvalid _).trans hexec
  refine ⟨t, ?_, (congrArg State.pktLen hregs :), (congrArg State.mode hregs :).trans hc.mode,
    (congrArg State.expectedBlk hregs :), (congrArg State.writeOffset hregs :),
    (congrArg State.opErr hregs :).trans u.beginStep_opErr, (congrArg State.retries hregs :), (congrArg State.events hregs :)⟩
  rw [show p = _ from packet_eq start s.expectedBlk data, Asm.rxBytes, List.map_append]
  exact (issueAll_append_of_next hrun _).trans (issueAll_singleton_of_next hissue)

end Sys2Proof.Machine
end
